-- ==== Sys2Proof/Word.lean ====
section
/-! DEFINITION. The word types of the block: bytes of the host space, 16-bit elements and 32-bit
registers (spec/00_scope.md R11, spec/10_state.md R20). -/

namespace Sys2Proof

/-- One byte of the host space (`u8`, or the bits of an `i8`). -/
abbrev Byte := BitVec 8

/-- A 16-bit element (`u16`, or the bits of an `i16`). -/
abbrev Half := BitVec 16

/-- A 32-bit register or element: `u32`, the bits of an `i32`, or a binary32 bit pattern. -/
abbrev Word := BitVec 32

end Sys2Proof
end

