-- ==== Sys2Proof/Config.lean ====
section
/-! DEFINITION. The architecture constants (R6, R7, R132) and the free values of the spec's
unspecified behaviours (spec/93_implementation_defined.md U1, U2, U4, U5, U6). -/

namespace Sys2Proof

/-- The nine architecture constants of R6, as a record. -/
structure Arch where
  l1Size        : Nat
  l2Size        : Nat
  l3Size        : Nat
  ftQuant       : Nat
  ftShift       : Nat
  l1Quant       : Nat
  outputScale   : Nat
  inputBuckets  : Nat
  outputBuckets : Nat
  deriving DecidableEq, Repr

/-- The instance that R6 tabulates. UNVERIFIED (safe as a model of the spec): the spec takes the
numbers from its source unaudited (N4); notes/assumptions/15.md. -/
def Config.arch : Arch :=
  { l1Size := 2048, l2Size := 16, l3Size := 32, ftQuant := 255, ftShift := 10, l1Quant := 64,
    outputScale := 400, inputBuckets := 14, outputBuckets := 8 }

/-- `L1_SIZE` (R6): elements of an accumulator, bytes of the activation buffer. -/
def Config.l1Size : Nat := Config.arch.l1Size
/-- `L2_SIZE` (R6): L1 outputs, which are the L2 inputs. -/
def Config.l2Size : Nat := Config.arch.l2Size
/-- `L3_SIZE` (R6): L2 outputs, which are the L3 inputs. -/
def Config.l3Size : Nat := Config.arch.l3Size
/-- `FT_QUANT` (R6). -/
def Config.ftQuant : Int := Config.arch.ftQuant
/-- `HALF` (R7). -/
def Config.half : Nat := Config.l1Size / 2
/-- `NGROUPS` (R7): 4-byte groups of the activation buffer. -/
def Config.ngroups : Nat := Config.l1Size / 4
/-- `NSLICES` (R7): 8-group slices. -/
def Config.nslices : Nat := Config.ngroups / 8
/-- `FT_LSHIFT` (R7). -/
def Config.ftLshift : Nat := 16 - Config.arch.ftShift

/-- `L1_MUL` (R7, R132), as a binary32 bit pattern. -/
def Config.l1Mul : Word := 0x39810182#32
/-- `OutputScale` as a binary32 bit pattern (R132): 400.0. -/
def Config.outputScaleF32 : Word := 0x43C80000#32

@[simp] theorem Config.l1Size_eq : Config.l1Size = 2048 := rfl
@[simp] theorem Config.l2Size_eq : Config.l2Size = 16 := rfl
@[simp] theorem Config.l3Size_eq : Config.l3Size = 32 := rfl
@[simp] theorem Config.ftQuant_eq : Config.ftQuant = 255 := rfl
@[simp] theorem Config.half_eq : Config.half = 1024 := rfl
@[simp] theorem Config.ngroups_eq : Config.ngroups = 512 := rfl
@[simp] theorem Config.nslices_eq : Config.nslices = 64 := rfl
@[simp] theorem Config.ftLshift_eq : Config.ftLshift = 6 := rfl

/-- The free byte (U1, U2, U4, U5): what the byte at address `a` holds when the spec says its value
is unspecified, for the draw number `e`. It has no body: nothing can be proved about its value.
Safe; notes/assumptions/1.md, 7.md, 8.md, 9.md. -/
opaque Config.unspecifiedByte : Nat → Nat → Byte

/-- The free NaN pattern (U6): the bits of a NaN result. No rule of the model ever stores it, since
every float result passes an operation that raises an error on a NaN. Safe; notes/assumptions/10.md. -/
opaque Config.nanBits : Word

end Sys2Proof
end

