-- ==== Sys2Proof/Machine/Integer.lean ====
section
/-! DEFINITION. The integer primitives (spec/40_numerics.md R120 to R126), exact on mathematical
integers (R11). -/

namespace Sys2Proof.Machine

/-- `clamp(v, lo, hi)` (R11). -/
def clamp (v lo hi : Int) : Int := if v < lo then lo else if hi < v then hi else v

/-- `asr(v, n)`: the floor of `v / 2^n` (R11). -/
def asr (v : Int) (n : Nat) : Int := v / 2 ^ n

/-- The first clip of the feature transform (R121). -/
def ftClip0 (a : Int) : Int := clamp a 0 Config.ftQuant

/-- The second clip: no lower bound (R121). -/
def ftClip1 (b : Int) : Int := min b Config.ftQuant

/-- The pre-shift (R122). -/
def ftShl (a0 : Int) : Int := a0 * 2 ^ Config.ftLshift

/-- The high word of the 32-bit product, truncated (R123). -/
def mulhi16 (x y : Int) : Int := asr (x * y) 16

/-- The byte-saturating pack (R124). -/
def satU8 (h : Int) : Int := clamp h 0 255

/-- The element function of the quantizer (R161), for `a` from half0 and `b` from half1. -/
def ftqPair (a b : Int) : Int := satU8 (mulhi16 (ftShl (ftClip0 a)) (ftClip1 b))

/-- The four-term unsigned-by-signed dot product (R125). -/
def dot4 (a w : Nat → Byte) : Int :=
  (a 0).toNat * (w 0).toInt + (a 1).toNat * (w 1).toInt + (a 2).toNat * (w 2).toInt +
    (a 3).toNat * (w 3).toInt

end Sys2Proof.Machine
end

