-- ==== Sys2Proof/Machine/Port.lean ====
section
/-! DEFINITION. The host port (spec/20_memory.md R61) and the moves of the two agents (R16, R276,
R279). -/

namespace Sys2Proof.Machine

/-- The request signals of the port (R61) while `req_valid = 1`. -/
structure Request where
  /-- `req_write`: true for a write -/
  write : Bool
  /-- `req_addr` -/
  addr  : BitVec 16
  /-- `req_size`: 0, 1, 2 for 1, 2, 4 bytes; 3 is reserved -/
  size  : BitVec 2
  /-- `req_wdata`: the low `8·n` bits carry the value -/
  wdata : Word
  deriving DecidableEq, Repr

/-- The number of bytes of a transaction, `n` of R62 (size 3 is reserved, and refused on the bus). -/
def Request.bytes (r : Request) : Nat := 2 ^ r.size.toNat

/-- The response signals of the port (R61) while `resp_valid = 1`. -/
structure Response where
  /-- `resp_rdata`: right-justified, zero-extended; 0 for a write or an error -/
  rdata : Word
  /-- `resp_err`: the transaction was refused -/
  err   : Bool
  deriving DecidableEq, Repr

/-- The response `buserr` (R62, R66). -/
def Response.buserr : Response := { rdata := 0, err := true }

/-- The response `ok(v)` (R62). -/
def Response.ok (v : Word) : Response := { rdata := v, err := false }

/-- A move of one of the two agents (R16): a transaction of the host, the completion of the command
in flight by the sequencer, or an edge of the reset pin. DESIGN CHOICE (safe): the moves to come are
plain data in the state; notes/assumptions/2.md. -/
inductive Move where
  /-- the host presents a request -/
  | host (r : Request)
  /-- the sequencer completes the command in flight (R240); without effect while none is -/
  | complete
  /-- `rst_n` goes low across a clock edge (R260) -/
  | assertReset
  /-- `rst_n` is high again (R260) -/
  | releaseReset
  deriving DecidableEq, Repr

end Sys2Proof.Machine
end

