-- ==== Sys2Proof/Machine/State.lean ====
section
/-! DEFINITION. The state of the block (spec/10_state.md R20), the errors it raises
(spec/60_exceptions.md R230), and the state after reset (R46, R260). -/

namespace Sys2Proof.Machine

/-- The five errors of R230. -/
inductive ErrorKind where
  /-- `E_ILLCMD`: the word written to `CMD` is no command (R231) -/
  | illcmd
  /-- `E_NOINIT`: the lookup table has not been initialised (R232) -/
  | noinit
  /-- `E_STALE`: the index list does not match the activation buffer (R233) -/
  | stale
  /-- `E_NAN`: a NaN reached an activation or the final conversion (R234) -/
  | nan
  /-- `E_RANGE`: the scaled score does not fit a signed 32-bit integer (R235) -/
  | range
  deriving DecidableEq, Repr

/-- An error found during a run: its kind, and the detail that goes to `ERRINFO` (R230). -/
structure Failure where
  kind : ErrorKind
  info : Word
  deriving DecidableEq, Repr

/-- The fields of `STATUS` (R36). Its reserved bits 7:5 and 31:16 read as 0 and are not stored. -/
structure Status where
  /-- bit 0: from the acceptance of a command to its completion -/
  busy     : Bool
  /-- bit 1: the most recently accepted command completed without error -/
  done     : Bool
  /-- bit 2: an error was raised since reset or SRST -/
  err      : Bool
  /-- bit 3: the lookup table is valid (R39) -/
  lutValid : Bool
  /-- bit 4: the index list matches the activation buffer (R38) -/
  nnzFresh : Bool
  /-- bits 11:8: the code of the first error -/
  errcode  : BitVec 4
  /-- bits 15:12: the opcode's low four bits of the most recently accepted command -/
  cur      : BitVec 4
  deriving DecidableEq, Repr

/-- `STATUS = 0` (R46). -/
def Status.zero : Status :=
  { busy := false, done := false, err := false, lutValid := false, nnzFresh := false,
    errcode := 0#4, cur := 0#4 }

/-- The stored bytes of the data buffers: pairs of host address and byte, addresses strictly rising.
An address that nothing has written is not listed. -/
abbrev Memory := List Host.Cell

/-- The canonical form of a memory: addresses strictly rising. An unlisted address holds no stored
byte, and every entry is a stored byte, so no entry equals what an unlisted address reads as;
notes/assumptions/18.md. -/
abbrev Memory.wf (m : Memory) : Prop := m.Pairwise (fun p q => p.1 < q.1)

/-- The state of the block and of its port. The last three fields are the model's own. -/
structure State where
  /-- `STATUS` (R36) -/
  status   : Status
  /-- `ERRINFO` (R40) -/
  errinfo  : Word
  /-- `NNZ_COUNT` (R24) -/
  nnzCount : Word
  /-- `SCORE`, two's complement (R28) -/
  score    : Word
  /-- the data buffers of R20 at the host addresses of R67 -/
  mem      : Memory
  /-- the response the port gives in this step (R61): `none` while `resp_valid = 0`;
  notes/assumptions/13.md -/
  response : Option Response
  /-- `rst_n` is low (R260) -/
  inReset  : Bool
  /-- the model's own: the moves to come, in order; notes/assumptions/2.md -/
  schedule : List Move
  /-- the model's own: the draw that the bytes nothing has written come from;
  notes/assumptions/1.md -/
  epoch    : Nat
  /-- the model's own: the next draw of free values; notes/assumptions/7.md -/
  fresh    : Nat
  deriving DecidableEq, Repr

/-- Why the machine stops with a fault. -/
inductive Fault where
  /-- raised by the sequencer where `BUSY = 1` and `CUR` is no command's opcode, a state that no run
  reaches (R36, R238). Safe; notes/assumptions/14.md. -/
  | noCommandInFlight
  deriving DecidableEq, Repr

/-- Why a command has no meaning. -/
inductive Refusal where
  /-- raised by `exec` for a command that has no meaning yet; none is left. Safe. -/
  | notModelled (mnemonic : String)
  deriving DecidableEq, Repr

/-- What the meaning of a command answers. -/
abbrev Result := Host.Outcome State Fault Refusal

/-- The state right after hardware reset (R46, R260): the control registers are 0, no buffer byte is
written yet, `rst_n` is high, and no transaction has been answered. DESIGN CHOICE: the values of the
model's own fields, `schedule`, `epoch` and `fresh`; notes/assumptions/3.md. -/
def State.reset : State :=
  { status := Status.zero, errinfo := 0#32, nnzCount := 0#32, score := 0#32, mem := [],
    response := none, inReset := false, schedule := [], epoch := 0, fresh := 1 }

end Sys2Proof.Machine
end

