-- ==== Sys2Proof/Machine/Float.lean ====
section
/-! DEFINITION. The binary32 primitives (spec/40_numerics.md R127 to R132). Every finite binary32 value
is an integer multiple of `2^-149`, and the product of two is one of `2^-298`; arithmetic is exact on
those integers and rounds once. The format is the spec's G1 (spec/93_implementation_defined.md);
notes/assumptions/16.md. -/

namespace Sys2Proof.Machine

/-- A binary32 value. There is one NaN: which pattern a NaN result has is unspecified and never
observed (R128, U6; notes/assumptions/10.md). -/
inductive F32 where
  /-- a NaN -/
  | nan
  /-- an infinity, negative where `neg` -/
  | inf (neg : Bool)
  /-- the value `units × 2^-149`, negative where `neg`; both zeros are kept apart -/
  | fin (neg : Bool) (units : Nat)
  deriving DecidableEq, Repr

/-- The value of a 32-bit pattern: sign bit 31, exponent 30:23, fraction 22:0 (R127, G1). -/
def F32.unpack (w : Word) : F32 :=
  let neg := w.getLsbD 31
  let e := (w.extractLsb' 23 8).toNat
  let f := (w.extractLsb' 0 23).toNat
  if e = 255 then (if f = 0 then .inf neg else .nan)
  else if e = 0 then .fin neg f
  else .fin neg ((2 ^ 23 + f) * 2 ^ (e - 1))

/-- The sign bit and the 31 bits below it. -/
def F32.assemble (neg : Bool) (magnitude : Nat) : Word :=
  BitVec.ofBool neg ++ BitVec.ofNat 31 magnitude

/-- The 32-bit pattern of a value (R13, `bits(v)`). -/
def F32.pack : F32 → Word
  | .nan => Config.nanBits
  | .inf neg => F32.assemble neg (255 * 2 ^ 23)
  | .fin neg u =>
    let sh := u.log2 - 23
    F32.assemble neg (sh * 2 ^ 23 + u / 2 ^ sh)

/-- `isNaN(v)` (R13). -/
def F32.isNaN : F32 → Bool
  | .nan => true
  | .inf _ | .fin _ _ => false

/-- `+0.0` -/
def F32.zero : F32 := .fin false 0

/-- `1.0` -/
def F32.one : F32 := .fin false (2 ^ 149)

/-- The signed number of units of a finite value. -/
def signed (neg : Bool) (u : Nat) : Int := if neg then -(u : Int) else u

/-- The quotient by `2^sh` rounded to nearest, ties to even. -/
def roundShift (x sh : Nat) : Nat :=
  let q := x / 2 ^ sh
  let r := x % 2 ^ sh
  if 2 ^ sh < 2 * r ∨ (2 * r = 2 ^ sh ∧ q % 2 = 1) then q + 1 else q

/-- The binary32 value nearest `x × 2^-298`, ties to even, subnormals kept, overflow to infinity
(R127, R128). The quantum is `2^sh` in these units: 24 significant bits, but at least `2^-149`. -/
def F32.round (neg : Bool) (x : Nat) : F32 :=
  let sh := max (x.log2 - 23) 149
  let u := roundShift x sh * 2 ^ (sh - 149)
  if 2 ^ 277 ≤ u then .inf neg else .fin neg u

/-- The rounded value of an exact `z × 2^-298`; `zeroNeg` is the sign of an exact zero. -/
def F32.ofExact (z : Int) (zeroNeg : Bool) : F32 :=
  if z = 0 then .fin zeroNeg 0 else F32.round (decide (z < 0)) z.natAbs

/-- `fadd(a, b)` (R128). An exact zero sum is `-0.0` only when both operands are. -/
def F32.add : F32 → F32 → F32
  | .fin s x, .fin t y => F32.ofExact ((signed s x + signed t y) * 2 ^ 149) (s && t)
  | .inf s, .inf t => if s = t then .inf s else .nan
  | .inf s, .fin _ _ => .inf s
  | .fin _ _, .inf t => .inf t
  | .nan, _ => .nan
  | .inf _, .nan => .nan
  | .fin _ _, .nan => .nan

/-- `fmul(a, b)` (R128). -/
def F32.mul : F32 → F32 → F32
  | .fin s x, .fin t y => F32.round (s != t) (x * y)
  | .inf s, .inf t => .inf (s != t)
  | .inf s, .fin t y => if y = 0 then .nan else .inf (s != t)
  | .fin s x, .inf t => if x = 0 then .nan else .inf (s != t)
  | .nan, _ => .nan
  | .inf _, .nan => .nan
  | .fin _ _, .nan => .nan

/-- `fma(a, b, c)`: the product exact, one rounding (R128). A product that is infinite or a NaN needs
no rounding. -/
def F32.fma (a b c : F32) : F32 :=
  match a, b, c with
  | .fin s x, .fin t y, .fin n z =>
    F32.ofExact (signed (s != t) (x * y) + signed n z * 2 ^ 149) ((s != t) && n)
  | .fin _ _, .fin _ _, .inf n => .inf n
  | .fin _ _, .fin _ _, .nan => .nan
  | a, b, c => F32.add (F32.mul a b) c

/-- `f32_of_i32(n)` (R129). -/
def F32.ofInt (n : Int) : F32 := F32.ofExact (n * 2 ^ 298) false

/-- `clip01(v)` (R130); `none` where it raises `E_NAN`. -/
def F32.clip01 : F32 → Option F32
  | .nan => none
  | .inf neg => some (if neg then F32.zero else F32.one)
  | .fin neg u =>
    if neg then some (if u = 0 then .fin true 0 else F32.zero)
    else some (if 2 ^ 149 < u then F32.one else .fin false u)

/-- `csq(v)`: clip, then square (R130); `none` where it raises `E_NAN`. -/
def F32.csq (v : F32) : Option F32 :=
  match v.clip01 with
  | some c => some (F32.mul c c)
  | none => none

/-- `i32_trunc(v)`: toward zero (R131), or the error it raises. -/
def F32.i32Trunc : F32 → Except ErrorKind Int
  | .nan => .error .nan
  | .inf _ => .error .range
  | .fin neg u =>
    if 2 ^ 180 ≤ signed neg u ∨ signed neg u < -(2 ^ 180) then .error .range
    else .ok (signed neg (u / 2 ^ 149))

/-- The activation of consecutive lanes, lane `j` first (R130): the patterns of the squares, or
`E_NAN` with the detail `code + j` of the lowest lane that is a NaN (R234). -/
def activate (code : Nat) : Nat → List F32 → Except Failure (List Word)
  | _, [] => .ok []
  | j, v :: vs =>
    match v.csq with
    | none => .error { kind := .nan, info := BitVec.ofNat 32 (code + j) }
    | some r =>
      match activate code (j + 1) vs with
      | .error f => .error f
      | .ok ws => .ok (r.pack :: ws)

end Sys2Proof.Machine
end

