-- ==== Sys2Proof/Syntax.lean ====
section
/-! DEFINITION. The eleven commands of the block (spec/30_encoding.md R102), one constructor for each
row of spec/opcode_table.json. No command has an operand (R103). -/

namespace Sys2Proof

/-- A command. -/
inductive Instr where
  /-- does nothing (R150) -/
  | nop
  /-- builds the sparsity lookup table (R151) -/
  | init
  /-- feature-transform quantizer (R162) -/
  | ftq
  /-- sparsity encoder (R167) -/
  | nnz
  /-- quantizer, then encoder (R169) -/
  | ft
  /-- sparse L1 stage (R184) -/
  | l1s
  /-- dense L1 stage (R185) -/
  | l1d
  /-- dense L2 stage (R203) -/
  | l2
  /-- output stage (R212) -/
  | l3
  /-- the four stages as one command (R214) -/
  | eval
  /-- soft reset of the control state (R154) -/
  | srst
  deriving DecidableEq, Repr

/-- Every command, in the order of the opcode table. -/
def Instr.all : List Instr := [.nop, .init, .ftq, .nnz, .ft, .l1s, .l1d, .l2, .l3, .eval, .srst]

end Sys2Proof
end

