-- ==== Sys2Proof/WellFormed.lean ====
section
/-! DEFINITION. The checks on what reaches the block: a command word (spec/30_encoding.md R100, R102)
and a bus request (spec/20_memory.md R62, R63). A command has no operand (R103), so every term of
`Instr` is well formed; what can be ill formed is the word that names it. -/

namespace Sys2Proof

/-- The field `OP` of a command word, bits 7:0 (R100). -/
def WellFormed.op (w : Word) : BitVec 8 := w.extractLsb' 0 8

/-- The field `ZERO`, bits 31:8, must be 0 (R100). -/
def WellFormed.zeroField (w : Word) : Bool := w.extractLsb' 8 24 == 0#24

/-- The opcode is one of the eleven of R102. -/
def WellFormed.opAssigned (w : Word) : Bool :=
  (WellFormed.op w).toNat ≤ 9 || WellFormed.op w == 0x0F#8

/-- A well-formed command word (R100, R102). -/
def WellFormed.commandWord (w : Word) : Bool := WellFormed.zeroField w && WellFormed.opAssigned w

/-- Every command is well formed: it has no operand (R103). -/
def WellFormed.instr : Instr → Bool
  | .nop | .init | .ftq | .nnz | .ft | .l1s | .l1d | .l2 | .l3 | .eval | .srst => true

/-- `req_size = 3` is reserved (R61). -/
def WellFormed.requestSize (r : Machine.Request) : Bool := r.size != 3#2

/-- Natural alignment (R63). -/
def WellFormed.requestAligned (r : Machine.Request) : Bool := r.addr.toNat % r.bytes == 0

/-- A well-formed transaction (R62, R63). The host may issue any other too (R279): it gets `buserr`. -/
def WellFormed.request (r : Machine.Request) : Bool :=
  WellFormed.requestSize r && WellFormed.requestAligned r

end Sys2Proof
end

