-- ==== Sys2Proof/Decode.lean ====
section
/-! DEFINITION. The decoder of spec/30_encoding.md R101, R102, total on any word and any bytes and
rejecting by name, and after it the encoder. -/

namespace Sys2Proof

/-- Why a word or a string of bytes is no command (R104). -/
inductive DecodeError where
  /-- some bit of 31:8 is set (R100, R104) -/
  | zeroFieldSet
  /-- the opcode is `0x0A .. 0x0E` or `0x10 .. 0xFF` (R104) -/
  | reservedOpcode
  /-- not four bytes: there is one command length, 32 bits (R100, R105) -/
  | wrongLength
  deriving DecidableEq, Repr

/-- The opcode map of R102; `none` is a reserved opcode (R104). -/
def decodeOp (op : BitVec 8) : Option Instr :=
  match op.toNat with
  | 0x00 => some .nop
  | 0x01 => some .init
  | 0x02 => some .ftq
  | 0x03 => some .nnz
  | 0x04 => some .ft
  | 0x05 => some .l1s
  | 0x06 => some .l1d
  | 0x07 => some .l2
  | 0x08 => some .l3
  | 0x09 => some .eval
  | 0x0F => some .srst
  | _ => none

/-- Decoding of a command word (R101). -/
def decode (w : Word) : Except DecodeError Instr :=
  if WellFormed.zeroField w then
    match decodeOp (WellFormed.op w) with
    | some i => .ok i
    | none => .error .reservedOpcode
  else .error .zeroFieldSet

/-- The command word of four bytes, the least significant one first (R64, R100). -/
def wordOfBytes (b0 b1 b2 b3 : Byte) : Word := b3 ++ b2 ++ b1 ++ b0

/-- Decoding of the bytes of a command word as the host space lays them out (R64, R100). -/
def decodeBytes : List Byte → Except DecodeError Instr
  | [b0, b1, b2, b3] => decode (wordOfBytes b0 b1 b2 b3)
  | _ => .error .wrongLength

/-- The bytes of a word, the least significant one first (R64). -/
def bytesOfWord (w : Word) : List Byte :=
  [w.extractLsb' 0 8, w.extractLsb' 8 8, w.extractLsb' 16 8, w.extractLsb' 24 8]

/-- What the decoder reads from a row's bits, numbered as spec/opcode_table.json numbers them (bit 0
the least significant bit of the first word); every bit above `nbits` is 0. -/
def decodeTableWord (nbits w : Nat) : Option Instr :=
  match decodeBytes (bytesOfWord (BitVec.ofNat 32 (w % 2 ^ nbits))) with
  | .ok i => some i
  | .error _ => none

/-- The opcode of a command (R102). -/
def opcode : Instr → BitVec 8
  | .nop  => 0x00#8
  | .init => 0x01#8
  | .ftq  => 0x02#8
  | .nnz  => 0x03#8
  | .ft   => 0x04#8
  | .l1s  => 0x05#8
  | .l1d  => 0x06#8
  | .l2   => 0x07#8
  | .l3   => 0x08#8
  | .eval => 0x09#8
  | .srst => 0x0F#8

/-- The command word of a command (R100): `ZERO` = 0 above the opcode. -/
def encode (i : Instr) : Word := 0#24 ++ opcode i

/-- The low four bits of a command's word, which acceptance puts into `STATUS.CUR` (R36, R238). -/
def curOf (i : Instr) : BitVec 4 := (encode i).extractLsb' 0 4

end Sys2Proof
end

