-- ==== Sys2Proof/Machine/Flags.lean ====
section
/-! DEFINITION. Every change of the `STATUS` flags (spec/10_state.md R36 to R39,
spec/60_exceptions.md R238 to R240) and the word the host reads (R36). -/

namespace Sys2Proof.Machine

/-- The code of an error (R230). -/
def ErrorKind.code : ErrorKind → BitVec 4
  | .illcmd => 1#4
  | .noinit => 2#4
  | .stale => 3#4
  | .nan => 4#4
  | .range => 5#4

/-- The 32-bit word of `STATUS` (R36): reserved bits 31:16 and 7:5 are 0. -/
def Status.word (f : Status) : Word :=
  0#16 ++ f.cur ++ f.errcode ++ 0#3 ++ BitVec.ofBool f.nnzFresh ++ BitVec.ofBool f.lutValid ++
    BitVec.ofBool f.err ++ BitVec.ofBool f.done ++ BitVec.ofBool f.busy

/-- Acceptance of a command (R238 step 7). -/
def Status.accepted (f : Status) (cur : BitVec 4) : Status :=
  { f with busy := true, done := false, cur := cur }

/-- Completion without error (R240). -/
def Status.completed (f : Status) : Status := { f with busy := false, done := true }

/-- Error entry (R239). -/
def Status.raised (f : Status) (k : ErrorKind) : Status :=
  { f with err := true, errcode := k.code, done := false, busy := false }

/-- The error flags cleared (R154, R242). -/
def Status.errorCleared (f : Status) : Status := { f with err := false, errcode := 0#4 }

/-- The completion of INIT (R39, R151). -/
def Status.withLutValid (f : Status) : Status := { f with lutValid := true }

/-- `NNZ_FRESH` set or cleared (R38). -/
def Status.withFresh (f : Status) (b : Bool) : Status := { f with nnzFresh := b }

/-- `STATUS` after SRST (R154): everything cleared, then `DONE = 1`, `CUR = 0xF`. -/
def Status.afterSrst : Status := { Status.zero with done := true, cur := 0xF#4 }

end Sys2Proof.Machine
end

