-- ==== Sys2Proof/Machine/Map.lean ====
section
/-! DEFINITION. The map of the host space (spec/20_memory.md R67), its access rights (R68) and the
address of each element (R70). -/

namespace Sys2Proof.Machine

/-- The named ranges of R67. -/
inductive Region where
  | cmd | status | nnzCount | score | errinfo
  | us | them | act | nnz | l1out | l1acc | l2out | l1b | l2b | l3w | l3b | l2w | lut | l1w
  deriving DecidableEq, Repr

/-- Every named range, in the order of R67. -/
def Region.all : List Region :=
  [.cmd, .status, .nnzCount, .score, .errinfo, .us, .them, .act, .nnz, .l1out, .l1acc, .l2out,
   .l1b, .l2b, .l3w, .l3b, .l2w, .lut, .l1w]

/-- The first byte address of a range (R67). -/
def Region.base : Region → Nat
  | .cmd => 0x0000
  | .status => 0x0004
  | .nnzCount => 0x0008
  | .score => 0x000C
  | .errinfo => 0x0010
  | .us => 0x1000
  | .them => 0x2000
  | .act => 0x3000
  | .nnz => 0x3800
  | .l1out => 0x3C00
  | .l1acc => 0x3C40
  | .l2out => 0x3C80
  | .l1b => 0x3D00
  | .l2b => 0x3D80
  | .l3w => 0x3E00
  | .l3b => 0x3E80
  | .l2w => 0x4000
  | .lut => 0x5000
  | .l1w => 0x8000

/-- The number of bytes of a range (R67). -/
def Region.bytes : Region → Nat
  | .cmd | .status | .nnzCount | .score | .errinfo => 4
  | .us | .them => 4096
  | .act => 2048
  | .nnz => 1024
  | .l1out | .l1acc | .l1b => 64
  | .l2out | .l2b | .l3w => 128
  | .l3b => 4
  | .l2w => 2048
  | .lut => 4096
  | .l1w => 32768

/-- The bytes of one element of a range (R67, R70). -/
def Region.elemBytes : Region → Nat
  | .cmd | .status | .nnzCount | .score | .errinfo => 4
  | .us | .them | .nnz | .lut => 2
  | .act | .l1w => 1
  | .l1out | .l1acc | .l2out | .l1b | .l2b | .l3w | .l3b | .l2w => 4

/-- The host byte address of element `i` of a range (R70); for `LUT[m][e]`, `i = 8·m + e`. -/
def Region.elem (r : Region) (i : Nat) : Nat := r.base + r.elemBytes * i

/-- Address `a` lies in the range. -/
def Region.contains (r : Region) (a : Nat) : Bool := r.base ≤ a && a < r.base + r.bytes

/-- The range that holds address `a`; `none` is a reserved address (R67). -/
def regionOf (a : Nat) : Option Region := Region.all.find? (·.contains a)

/-- A control register, `0x0000 .. 0x0013` (R65, R66). -/
def Region.isControl : Region → Bool
  | .cmd | .status | .nnzCount | .score | .errinfo => true
  | .us | .them | .act | .nnz | .l1out | .l1acc | .l2out | .l1b | .l2b | .l3w | .l3b | .l2w
  | .lut | .l1w => false

/-- The host may write here (R67, R68). -/
def Region.writable : Region → Bool
  | .cmd | .us | .them | .act | .l1out | .l2out | .l1b | .l2b | .l3w | .l3b | .l2w | .l1w => true
  | .status | .nnzCount | .score | .errinfo | .nnz | .l1acc | .lut => false

/-- Address `a` lies in a data buffer: a range that is no control register (R67). -/
def isBufferAddr (a : Nat) : Bool :=
  match regionOf a with
  | some r => !r.isControl
  | none => false

end Sys2Proof.Machine
end

