-- ==== Sys2Proof/Machine/Ops.lean ====
section
/-! DEFINITION. The named operations over memory and registers: reading and writing the stored bytes
in little-endian order (spec/20_memory.md R62, R64), free values (U1, U2, U4), error entry and the
return from it (spec/60_exceptions.md R239, R242), acceptance and completion of a command (R238,
R240), hardware reset (R260). -/

namespace Sys2Proof.Machine

/-! ### The stored bytes -/

/-- The stored byte at address `a`; `none` where nothing has been written. -/
def Memory.get : Memory → Nat → Option Byte
  | [], _ => none
  | (b, v) :: m, a => if b = a then some v else Memory.get m a

/-- The cells of consecutive bytes from address `a`. -/
def cellsFrom : Nat → List Byte → List Host.Cell
  | _, [] => []
  | a, v :: vs => (a, v) :: cellsFrom (a + 1) vs

/-- Consecutive bytes stored from address `a` on; every other address keeps its byte. -/
def Memory.put (m : Memory) (a : Nat) (vs : List Byte) : Memory :=
  m.filter (fun c => c.1 < a) ++ cellsFrom a vs ++ m.filter (fun c => a + vs.length ≤ c.1)

/-- The byte at host address `a`: the stored one, or, where nothing has been written since reset, the
free byte of the present epoch (R46, U1; notes/assumptions/1.md). -/
def State.byteAt (s : State) (a : Nat) : Byte :=
  match s.mem.get a with
  | some v => v
  | none => Config.unspecifiedByte s.epoch a

/-- The 16-bit value at address `a`, least significant byte first (R64). -/
def State.read16 (s : State) (a : Nat) : Half := s.byteAt (a + 1) ++ s.byteAt a

/-- The 32-bit value at address `a`, least significant byte first (R64). -/
def State.read32 (s : State) (a : Nat) : Word := wordOfBytes (s.byteAt a) (s.byteAt (a + 1))
  (s.byteAt (a + 2)) (s.byteAt (a + 3))

/-- The bytes of a 16-bit value, the least significant one first (R64). -/
def bytesOfHalf (h : Half) : List Byte := [h.extractLsb' 0 8, h.extractLsb' 8 8]

/-- Bytes stored from address `a` on. -/
def State.writeBytes (s : State) (a : Nat) (vs : List Byte) : State :=
  { s with mem := s.mem.put a vs }

/-- 16-bit values stored from address `a` on, in element order (R64, R70). -/
def State.writeHalves (s : State) (a : Nat) (hs : List Half) : State :=
  s.writeBytes a (hs.flatMap bytesOfHalf)

/-- 32-bit values stored from address `a` on, in element order (R64, R70). -/
def State.writeWords (s : State) (a : Nat) (ws : List Word) : State :=
  s.writeBytes a (ws.flatMap bytesOfWord)

/-! ### Free values -/

/-- Every byte of a buffer becomes unspecified (U2, U4): a free byte of the present draw. -/
def State.forget (s : State) (r : Region) : State :=
  s.writeBytes r.base ((List.range r.bytes).map fun k => Config.unspecifiedByte s.fresh (r.base + k))

/-- The word of four free bytes of the present draw, for a register at address `a` (U2). -/
def State.unspecifiedWord (s : State) (a : Nat) : Word :=
  wordOfBytes (Config.unspecifiedByte s.fresh a) (Config.unspecifiedByte s.fresh (a + 1))
    (Config.unspecifiedByte s.fresh (a + 2)) (Config.unspecifiedByte s.fresh (a + 3))

/-- The next draw of free values. -/
def State.nextDraw (s : State) : State := { s with fresh := s.fresh + 1 }

/-! ### Registers -/

/-- `STATUS` written by the block. -/
def State.setStatus (s : State) (f : Status) : State := { s with status := f }

/-- `ERRINFO` written by the block. -/
def State.setErrinfo (s : State) (w : Word) : State := { s with errinfo := w }

/-- `NNZ_COUNT` written by the block. -/
def State.setCount (s : State) (w : Word) : State := { s with nnzCount := w }

/-- `SCORE` written by the block. -/
def State.setScore (s : State) (w : Word) : State := { s with score := w }

/-- The port's response of this step (R61). -/
def State.respond (s : State) (r : Response) : State := { s with response := some r }

/-- `NNZ_FRESH` set or cleared (R38). -/
def State.setFresh (s : State) (b : Bool) : State := s.setStatus (s.status.withFresh b)

/-! ### Errors -/

/-- Error entry, the block's trap entry (R239). -/
def State.raise (s : State) (k : ErrorKind) (info : Word) : State :=
  (s.setStatus (s.status.raised k)).setErrinfo info

/-- The error flags and their detail cleared: what leaving the error state clears (R40, R154, R242). -/
def State.clearError (s : State) : State := (s.setStatus s.status.errorCleared).setErrinfo 0#32

/-! ### The life cycle of a command -/

/-- Completion without error (R240). -/
def State.complete (s : State) : State := s.setStatus s.status.completed

/-- Acceptance, step 7 of R238. -/
def State.start (s : State) (i : Instr) : State := s.setStatus (s.status.accepted (curOf i))

/-- Acceptance of a command other than SRST, steps 5 to 7 of R238: `pre` is the error its
precondition raises. In the error state the command is refused and nothing changes (R242); the bus
answers `buserr` there. -/
def State.accept (s : State) (i : Instr) (pre : Option ErrorKind) : State :=
  if s.status.err then s
  else match pre with
    | some k => s.raise k (encode i)
    | none => s.start i

/-- Acceptance of SRST, allowed in the error state too (R154, R242). DEDUCED (unsafe): the error
flags are cleared here already, since R37 and R47 say that `BUSY` and `ERR` are never both 1;
notes/assumptions/6.md. -/
def State.acceptSrst (s : State) : State := s.clearError.start .srst

/-- The precondition of NNZ, FT and EVAL (R232). -/
def State.needsTable (s : State) : Option ErrorKind := if s.status.lutValid then none else some .noinit

/-- The precondition of L1S (R233). -/
def State.needsFresh (s : State) : Option ErrorKind := if s.status.nnzFresh then none else some .stale

/-- No precondition. -/
def State.needsNothing (_ : State) : Option ErrorKind := none

/-- The meaning of a command other than SRST in its two phases: with `BUSY = 0` the acceptance (R238),
with `BUSY = 1`, when it is in flight, its completion (R240). DESIGN CHOICE (safe);
notes/assumptions/5.md. -/
def command (i : Instr) (pre : State → Option ErrorKind) (finish : State → State) (s : State) :
    Result :=
  .next (if s.status.busy then finish s else s.accept i (pre s))

/-- The end of a run (R240): the results and `DONE`, or error entry with the destinations that `lose`
makes unspecified (R239, U2). -/
def State.conclude (s : State) (r : Except Failure State) (lose : State → State) : State :=
  match r with
  | .ok t => t.complete
  | .error f => (lose s).raise f.kind f.info

/-! ### Hardware reset -/

/-- `rst_n` goes low (R260): the state of R46, whatever the block is doing, with new unspecified
contents. What the host has yet to do stays. -/
def State.hardwareReset (s : State) : State :=
  { State.reset with inReset := true, schedule := s.schedule, epoch := s.fresh, fresh := s.fresh + 1 }

/-- `rst_n` is high again (R260). -/
def State.releaseReset (s : State) : State := { s with inReset := false }

end Sys2Proof.Machine
end

