-- ==== Sys2Proof/Machine/Operands.lean ====
section
/-! DEFINITION. The operands of the commands: the elements of the fixed buffers (spec/10_state.md R20 to
R34), each at its host address (spec/20_memory.md R70). Commands have no other operand form (R42,
R103). -/

namespace Sys2Proof.Machine

/-- `US[i]`, a signed 16-bit value (R21). -/
def State.us (s : State) (i : Nat) : Int := (s.read16 (Region.us.elem i)).toInt

/-- `THEM[i]` (R22). -/
def State.them (s : State) (i : Nat) : Int := (s.read16 (Region.them.elem i)).toInt

/-- `ACT[i]`, the byte view (R23). -/
def State.act (s : State) (i : Nat) : Byte := s.byteAt (Region.act.elem i)

/-- `ACTW[g]`, the word view of the same storage (R23). -/
def State.actw (s : State) (g : Nat) : Word := s.read32 (Region.act.base + 4 * g)

/-- `NNZ[e]` (R24). -/
def State.nnz (s : State) (e : Nat) : Half := s.read16 (Region.nnz.elem e)

/-- The index list `NNZ[0 .. NNZ_COUNT-1]` as group numbers (R24). -/
def State.nnzList (s : State) : List Nat := (List.range s.nnzCount.toNat).map fun e => (s.nnz e).toNat

/-- `LUT[m][e]` (R34). -/
def State.lut (s : State) (m e : Nat) : Half := s.read16 (Region.lut.elem (8 * m + e))

/-- `L1W[n]` (R29); its value is the byte read as two's complement. -/
def State.l1w (s : State) (n : Nat) : Byte := s.byteAt (Region.l1w.elem n)

/-- `L1B[j]` (R30). -/
def State.l1b (s : State) (j : Nat) : F32 := .unpack (s.read32 (Region.l1b.elem j))

/-- `L1ACC[j]`, the bits of an `i32` (R25). -/
def State.l1acc (s : State) (j : Nat) : Word := s.read32 (Region.l1acc.elem j)

/-- `L1OUT[j]`, the binary32 pattern (R26). -/
def State.l1out (s : State) (j : Nat) : Word := s.read32 (Region.l1out.elem j)

/-- `L2W[n]` (R31). -/
def State.l2w (s : State) (n : Nat) : F32 := .unpack (s.read32 (Region.l2w.elem n))

/-- `L2B[j]` (R32). -/
def State.l2b (s : State) (j : Nat) : F32 := .unpack (s.read32 (Region.l2b.elem j))

/-- `L2OUT[j]`, the binary32 pattern (R27). -/
def State.l2out (s : State) (j : Nat) : Word := s.read32 (Region.l2out.elem j)

/-- `L3W[k]` (R33). -/
def State.l3w (s : State) (k : Nat) : F32 := .unpack (s.read32 (Region.l3w.elem k))

/-- `L3B` (R33). -/
def State.l3b (s : State) : F32 := .unpack (s.read32 Region.l3b.base)

/-- The buffers a command writes (R72). The registers it writes are `NNZ_COUNT` (NNZ, FT, EVAL,
SRST) and `SCORE` (L3, EVAL, SRST). SRST leaves the elements of `NNZ` unspecified (R154). -/
def bufferWrites : Instr → List Region
  | .nop => []
  | .init => [.lut]
  | .ftq => [.act]
  | .nnz => [.nnz]
  | .ft => [.act, .nnz]
  | .l1s => [.l1acc, .l1out]
  | .l1d => [.l1acc, .l1out]
  | .l2 => [.l2out]
  | .l3 => []
  | .eval => [.act, .nnz, .l1acc, .l1out, .l2out]
  | .srst => [.nnz]

/-- Every buffer in a list becomes unspecified, with one draw of free values (R239, U2). -/
def State.forgetAll (s : State) (rs : List Region) : State := (rs.foldl State.forget s).nextDraw

end Sys2Proof.Machine
end

