-- ==== Sys2Proof/Machine/FeatureTransform.lean ====
section
/-! DEFINITION. FTQ, NNZ and FT (spec/42_feature_transform.md R160 to R171). -/

namespace Sys2Proof.Machine

/-- The byte that the quantizer stores for a pair (R161). -/
def ftqByte (a b : Int) : Byte := BitVec.ofInt 8 (ftqPair a b)

/-- The quantizer's output: the bytes from `US`, then those from `THEM`; element `i` of half0 is paired
with element `i` of half1 of the same accumulator (R160). -/
def ftqOutput (s : State) : List Byte :=
  ((List.range Config.half).map fun i => ftqByte (s.us i) (s.us (i + Config.half))) ++
    (List.range Config.half).map fun i => ftqByte (s.them i) (s.them (i + Config.half))

/-- The quantizer stage (R160). -/
def ftqStage (s : State) : State := s.writeBytes Region.act.base (ftqOutput s)

/-- Group `g` is nonzero (R165). -/
def groupNonzero (s : State) (g : Nat) : Bool := s.actw g != 0#32

/-- The 8-bit mask of slice `sl` (R165). -/
def sliceMask (s : State) (sl : Nat) : Nat :=
  ((List.range 8).map fun t => if groupNonzero s (8 * sl + t) then 2 ^ t else 0).sum

/-- `popcount(m)` of an 8-bit mask (R11). -/
def popcount8 (m : Nat) : Nat := (List.range 8).countP m.testBit

/-- The indices emitted for slice `sl`: the table's positions plus the base `8·sl` (R166). Exactly
`popcount` elements of the entry are read. -/
def sliceIndices (s : State) (sl : Nat) : List Half :=
  (List.range (popcount8 (sliceMask s sl))).map fun e =>
    BitVec.ofNat 16 (8 * sl) + s.lut (sliceMask s sl) e

/-- The encoder's output: the slices in ascending order (R166). -/
def encoderOutput (s : State) : List Half := (List.range Config.nslices).flatMap (sliceIndices s)

/-- The encoder stage (R166). The elements of `NNZ` beyond the list become unspecified (U4;
notes/assumptions/8.md). -/
def nnzStage (s : State) : State :=
  ((s.forgetAll [.nnz]).writeHalves Region.nnz.base (encoderOutput s)).setCount
    (BitVec.ofNat 32 (encoderOutput s).length)

/-- The effect of FTQ (R162): the index list is stale afterwards (R38). -/
def finishFtq (s : State) : State := ((ftqStage s).setFresh false).complete

/-- The meaning of FTQ (R162). It needs no table. -/
def execFtq (s : State) : Result := command .ftq State.needsNothing finishFtq s

/-- The effect of NNZ (R167): the index list is fresh afterwards (R38). -/
def finishNnz (s : State) : State := ((nnzStage s).setFresh true).complete

/-- The meaning of NNZ (R167). -/
def execNnz (s : State) : Result := command .nnz State.needsTable finishNnz s

/-- The effect of FT (R169): the quantizer, then the encoder on its output. -/
def finishFt (s : State) : State := ((nnzStage (ftqStage s)).setFresh true).complete

/-- The meaning of FT (R169). -/
def execFt (s : State) : Result := command .ft State.needsTable finishFt s

end Sys2Proof.Machine
end

