-- ==== Sys2Proof/Machine/L1.lean ====
section
/-! DEFINITION. L1S and L1D (spec/43_l1.md R180 to R187). -/

namespace Sys2Proof.Machine

/-- The contribution of group `g` to lane `j` (R180, R181). A group number above 511, which no run
gives, takes the bytes at the addresses the formula names (R70); notes/assumptions/19.md. -/
def contrib (s : State) (g j : Nat) : Int :=
  dot4 (fun k => s.act (4 * g + k)) (fun k => s.l1w (64 * g + 4 * j + k))

/-- The exact sum of lane `j` over a sequence of groups (R182). -/
def l1Sum (s : State) (gs : List Nat) (j : Nat) : Int := (gs.map fun g => contrib s g j).sum

/-- The dequantized pre-activation of lane `j`: one fused multiply-add (R183). -/
def l1Pre (s : State) (gs : List Nat) (j : Nat) : F32 :=
  F32.fma (F32.ofInt (l1Sum s gs j)) (.unpack Config.l1Mul) (s.l1b j)

/-- The L1 stage over a sequence of groups (R183, R184). -/
def l1Stage (s : State) (gs : List Nat) : Except Failure State :=
  match activate 0x100 0 ((List.range Config.l2Size).map (l1Pre s gs)) with
  | .error f => .error f
  | .ok outs =>
    .ok ((s.writeWords Region.l1acc.base
      ((List.range Config.l2Size).map fun j => BitVec.ofInt 32 (l1Sum s gs j))).writeWords
        Region.l1out.base outs)

/-- The effect of L1S (R184): the listed groups only. -/
def finishL1s (s : State) : State :=
  s.conclude (l1Stage s s.nnzList) fun s => s.forgetAll (bufferWrites .l1s)

/-- The meaning of L1S (R184). -/
def execL1s (s : State) : Result := command .l1s State.needsFresh finishL1s s

/-- The effect of L1D (R185): every group, listed or not. -/
def finishL1d (s : State) : State :=
  s.conclude (l1Stage s (List.range Config.ngroups)) fun s => s.forgetAll (bufferWrites .l1d)

/-- The meaning of L1D (R185). It needs neither the list nor the table. -/
def execL1d (s : State) : Result := command .l1d State.needsNothing finishL1d s

end Sys2Proof.Machine
end

