-- ==== Sys2Proof/Machine/L2.lean ====
section
/-! DEFINITION. L2 (spec/44_l2.md R200 to R203). -/

namespace Sys2Proof.Machine

/-- The accumulation of lane `j`: from the bias, one fused multiply-add for each input, in ascending
input order (R200, R201). -/
def l2Pre (s : State) (j : Nat) : F32 :=
  (List.range Config.l2Size).foldl
    (fun acc i => F32.fma (.unpack (s.l1out i)) (s.l2w (32 * i + j)) acc) (s.l2b j)

/-- The L2 stage (R202, R203). -/
def l2Stage (s : State) : Except Failure State :=
  match activate 0x200 0 ((List.range Config.l3Size).map (l2Pre s)) with
  | .error f => .error f
  | .ok outs => .ok (s.writeWords Region.l2out.base outs)

/-- The effect of L2 (R203). -/
def finishL2 (s : State) : State :=
  s.conclude (l2Stage s) fun s => s.forgetAll (bufferWrites .l2)

/-- The meaning of L2 (R203). -/
def execL2 (s : State) : Result := command .l2 State.needsNothing finishL2 s

end Sys2Proof.Machine
end

