-- ==== Sys2Proof/Machine/L3.lean ====
section
/-! DEFINITION. L3 (spec/45_l3_eval.md R210 to R213). -/

namespace Sys2Proof.Machine

/-- The dot product, from `+0.0`, one fused multiply-add for each term, in ascending order (R210). The
values of `L2OUT` are used as they stand: no activation here (R213). -/
def l3Dot (s : State) : F32 :=
  (List.range Config.l3Size).foldl
    (fun acc k => F32.fma (.unpack (s.l2out k)) (s.l3w k) acc) F32.zero

/-- `v2`: the bias added, then the scale, one rounding each (R211). -/
def l3Scaled (s : State) : F32 :=
  F32.mul (F32.add s.l3b (l3Dot s)) (.unpack Config.outputScaleF32)

/-- The detail of an error of the final conversion (R230): `0x300` for a NaN, else the pattern of the
value that would not convert. -/
def l3Detail (k : ErrorKind) (v : F32) : Word :=
  match k with
  | .nan => 0x300#32
  | .range => v.pack
  | .illcmd | .noinit | .stale => 0#32

/-- The output stage (R211, R212). -/
def l3Stage (s : State) : Except Failure State :=
  match (l3Scaled s).i32Trunc with
  | .error k => .error { kind := k, info := l3Detail k (l3Scaled s) }
  | .ok v => .ok (s.setScore (BitVec.ofInt 32 v))

/-- `SCORE` becomes unspecified (R239, U2; notes/assumptions/7.md). -/
def loseScore (s : State) : State := (s.setScore (s.unspecifiedWord Region.score.base)).nextDraw

/-- The effect of L3 (R212). -/
def finishL3 (s : State) : State := s.conclude (l3Stage s) loseScore

/-- The meaning of L3 (R212). -/
def execL3 (s : State) : Result := command .l3 State.needsNothing finishL3 s

end Sys2Proof.Machine
end

