-- ==== Sys2Proof/Machine/Evaluate.lean ====
section
/-! DEFINITION. EVAL (spec/45_l3_eval.md R214 to R216). -/

namespace Sys2Proof.Machine

/-- The four stages in order, each on the results of the one before; the first error in stage order
ends the run (R214, R234). -/
def evalStages (s : State) : Except Failure State :=
  let s1 := nnzStage (ftqStage s)
  match l1Stage s1 s1.nnzList with
  | .error f => .error f
  | .ok s2 =>
    match l2Stage s2 with
    | .error f => .error f
    | .ok s3 =>
      match l3Stage s3 with
      | .error f => .error f
      | .ok s4 => .ok (s4.setFresh true)

/-- What an error during EVAL leaves unspecified: all seven destinations, `NNZ_COUNT` still within its
range; and `NNZ_FRESH` is cleared (R239, U2; notes/assumptions/7.md). -/
def loseEval (s : State) : State :=
  ((((s.forgetAll (bufferWrites .eval)).setCount
    (BitVec.ofNat 32 ((s.unspecifiedWord Region.nnzCount.base).toNat % 513))).setScore
      (s.unspecifiedWord Region.score.base)).setFresh false)

/-- The effect of EVAL (R214). -/
def finishEval (s : State) : State := s.conclude (evalStages s) loseEval

/-- The meaning of EVAL (R214). -/
def execEval (s : State) : Result := command .eval State.needsTable finishEval s

end Sys2Proof.Machine
end

