-- ==== Sys2Proof/Machine/Housekeeping.lean ====
section
/-! DEFINITION. NOP, INIT and SRST (spec/41_init_lut.md R150 to R155). -/

namespace Sys2Proof.Machine

/-- The meaning of NOP (R150). -/
def execNop (s : State) : Result := command .nop State.needsNothing State.complete s

/-- The index of the lowest set bit of an 8-bit number. -/
def lowestBit (r : Nat) : Nat := ((List.range 8).find? r.testBit).getD 0

/-- The positions of the set bits of `r`, by extracting and clearing the lowest one again and again
(R151); `fuel` bounds the number of extractions. -/
def extractBits : Nat → Nat → List Nat
  | 0, _ => []
  | fuel + 1, r =>
    if r = 0 then [] else lowestBit r :: extractBits fuel (r - 2 ^ lowestBit r)

/-- The sequence of table entry `m` (R151): an 8-bit number has at most eight set bits. -/
def tableEntry (m : Nat) : List Nat := extractBits 8 m

/-- The eight stored elements of table entry `m`: the sequence, then padding 0 (R153). -/
def tableElems (m : Nat) : List Half :=
  (List.range 8).map fun e => BitVec.ofNat 16 ((tableEntry m).getD e 0)

/-- The table's elements in storage order: entry 0 first, element 0 first (R34, R70). -/
def tableContents : List Half := (List.range 256).flatMap tableElems

/-- The effect of INIT (R151). -/
def finishInit (s : State) : State :=
  ((s.writeHalves Region.lut.base tableContents).setStatus s.status.withLutValid).complete

/-- The meaning of INIT (R151). -/
def execInit (s : State) : Result := command .init State.needsNothing finishInit s

/-- The effect of SRST (R154): the control registers return to their reset values, then `DONE = 1` and
`CUR = 0xF`. The buffers keep their contents, but for the elements of `NNZ`, which become unspecified
(R46, U4). -/
def finishSrst (s : State) : State :=
  ((((s.forgetAll (bufferWrites .srst)).setStatus Status.afterSrst).setErrinfo 0#32).setCount
    0#32).setScore 0#32

/-- The meaning of SRST (R154), the only command accepted in the error state (R242). -/
def execSrst (s : State) : Result := .next (if s.status.busy then finishSrst s else s.acceptSrst)

end Sys2Proof.Machine
end

