-- ==== Sys2Proof/Machine/Dispatch.lean ====
section
/-! DEFINITION. One arm for each command of spec/opcode_table.json. -/

namespace Sys2Proof.Machine

def exec (i : Instr) (s : State) : Host.Outcome State Fault Refusal :=
  match i with
  | .nop => Sys2Proof.Machine.execNop s
  | .init => Sys2Proof.Machine.execInit s
  | .ftq => Sys2Proof.Machine.execFtq s
  | .nnz => Sys2Proof.Machine.execNnz s
  | .ft => Sys2Proof.Machine.execFt s
  | .l1s => Sys2Proof.Machine.execL1s s
  | .l1d => Sys2Proof.Machine.execL1d s
  | .l2 => Sys2Proof.Machine.execL2 s
  | .l3 => Sys2Proof.Machine.execL3 s
  | .eval => Sys2Proof.Machine.execEval s
  | .srst => Sys2Proof.Machine.execSrst s

end Sys2Proof.Machine
end

