-- ==== Sys2Proof/Machine/Bus.lean ====
section
/-! DEFINITION. The host port (spec/20_memory.md R62 to R69): the causes of `buserr`, reads, writes, and
the write to `CMD` that issues a command (spec/60_exceptions.md R238). -/

namespace Sys2Proof.Machine

/-- Some byte of the access is at a reserved address (R66 (3)). -/
def Request.hitsReserved (r : Request) : Bool :=
  (List.range r.bytes).any fun k => (regionOf (r.addr.toNat + k)).isNone

/-- The access is to a control register (R66 (4)). -/
def Request.hitsControl (r : Request) : Bool :=
  match regionOf r.addr.toNat with
  | some g => g.isControl
  | none => false

/-- The host may not write where the access goes (R66 (5), R68). -/
def Request.hitsReadOnly (r : Request) : Bool :=
  match regionOf r.addr.toNat with
  | some g => !g.writable
  | none => false

/-- A 4-byte read of `STATUS`, the one access allowed during a run (R69). -/
def Request.readsStatus (r : Request) : Bool :=
  !r.write && r.addr.toNat == Region.status.base && r.size == 2#2

/-- A write of a word other than SRST's to `CMD` (R66 (7), R242). -/
def Request.issuesOther (r : Request) : Bool :=
  r.write && r.addr.toNat == Region.cmd.base && r.wdata != encode .srst

/-- The transaction is refused: one of the seven causes of R66 holds. -/
def busError (s : State) (r : Request) : Bool :=
  !WellFormed.requestSize r || !WellFormed.requestAligned r || r.hitsReserved ||
    (r.hitsControl && r.size != 2#2) || (r.write && r.hitsReadOnly) ||
    (s.status.busy && !r.readsStatus) || (s.status.err && r.issuesOther)

/-- The word of a control register as the host reads it (R35, R36, R68). -/
def State.controlWord (s : State) : Region → Word
  | .cmd => 0#32
  | .status => s.status.word
  | .nnzCount => s.nnzCount
  | .score => s.score
  | .errinfo => s.errinfo
  | .us | .them | .act | .nnz | .l1out | .l1acc | .l2out | .l1b | .l2b | .l3w | .l3b | .l2w
  | .lut | .l1w => 0#32

/-- A buffer byte as the host reads it: the stored one; of `LUT` while `LUT_VALID = 0`, an unspecified
value (R68, U5; notes/assumptions/9.md). -/
def State.hostByte (s : State) (a : Nat) : Byte :=
  if Region.lut.contains a && !s.status.lutValid then Config.unspecifiedByte s.fresh a else s.byteAt a

/-- `n` bytes from address `a` as a zero-extended word, least significant byte first (R61, R64, R71). -/
def State.hostBytes (s : State) (a n : Nat) : Word :=
  wordOfBytes (s.hostByte a) (if 2 ≤ n then s.hostByte (a + 1) else 0#8)
    (if 4 ≤ n then s.hostByte (a + 2) else 0#8) (if 4 ≤ n then s.hostByte (a + 3) else 0#8)

/-- The value of a read that the bus allows (R62). -/
def State.readValue (s : State) (r : Request) : Word :=
  match regionOf r.addr.toNat with
  | some g => if g.isControl then s.controlWord g else s.hostBytes r.addr.toNat r.bytes
  | none => 0#32

/-- A buffer write that the bus allows: the low bytes of the data (R62, R64); one that hits `ACT` clears
`NNZ_FRESH` (R38). -/
def State.writeBuffer (s : State) (r : Request) : State :=
  let t := s.writeBytes r.addr.toNat ((bytesOfWord r.wdata).take r.bytes)
  if Region.act.contains r.addr.toNat then t.setFresh false else t

/-- A word is written to `CMD` (R238 steps 4 to 7): an illegal one raises `E_ILLCMD` (R231), a command
runs its acceptance. -/
def issue (w : Word) (s : State) : Result :=
  match decode w with
  | .ok i => exec i s
  | .error _ => .next (s.raise .illcmd w)

/-- One transaction (R62). A refused one changes nothing (R62, R66). -/
def transact (r : Request) (s : State) : Result :=
  if busError s r then .next (s.respond .buserr)
  else if r.write then
    if r.addr.toNat = Region.cmd.base then issue r.wdata (s.respond (.ok 0#32))
    else .next ((s.writeBuffer r).respond (.ok 0#32))
  else .next (s.respond (.ok (s.readValue r)))

/-- The port's output signals (R61, R237, R260). -/
structure Outputs where
  reqReady  : Bool
  respValid : Bool
  respRdata : Word
  respErr   : Bool
  busy      : Bool
  done      : Bool
  err       : Bool
  deriving DecidableEq, Repr

/-- The outputs of a state: `busy`, `done`, `err` are copies of the `STATUS` bits (R237); no request is
taken while `rst_n` is low (R260). DESIGN CHOICE (unsafe for a claim about that level): with `rst_n` high
`req_ready` is 1 in every state, also with no request (notes/assumptions/20.md). -/
def State.outputs (s : State) : Outputs :=
  { reqReady := !s.inReset
    respValid := s.response.isSome
    respRdata := match s.response with
      | some r => r.rdata
      | none => 0#32
    respErr := match s.response with
      | some r => r.err
      | none => false
    busy := s.status.busy
    done := s.status.done
    err := s.status.err }

end Sys2Proof.Machine
end

