-- ==== Sys2Proof/Machine/Sequencer.lean ====
section
/-! DEFINITION. The sequencer's step (spec/00_scope.md R16, spec/60_exceptions.md R240) and the effect of
each move of the two agents. -/

namespace Sys2Proof.Machine

/-- The command in flight: the latched `CUR` read as a command word (R36, R41). -/
def State.inFlight (s : State) : Except DecodeError Instr := decode (s.status.cur.setWidth 32)

/-- The sequencer completes the command in flight; while there is none it has no step (R16, R276). -/
def sequencer (s : State) : Result :=
  if s.status.busy then
    match s.inFlight with
    | .ok i => exec i s
    | .error _ => .fault .noCommandInFlight
  else .next s

/-- The effect of a move. While `rst_n` is low a request is not taken and gets no response (R260). -/
def perform (m : Move) (s : State) : Result :=
  match m with
  | .host r => if s.inReset then .next s else transact r s
  | .complete => sequencer s
  | .assertReset => .next s.hardwareReset
  | .releaseReset => .next s.releaseReset

/-- The port between two responses: `resp_valid = 0` (R61). -/
def State.quiet (s : State) : State := { s with response := none }

/-- The state with the first move taken off the schedule. -/
def State.dequeue (s : State) : State := { s with schedule := s.schedule.tail }

/-- The request that writes a word to `CMD` (R100, R238). -/
def cmdWrite (w : Word) : Request :=
  { write := true, addr := BitVec.ofNat 16 Region.cmd.base, size := 2#2, wdata := w }

/-- The block brought to where it takes a command: out of reset, none in flight, no error recorded
(R150). -/
def State.ready (s : State) : State :=
  { s with status := { s.status.errorCleared with busy := false }, errinfo := 0#32, inReset := false }

end Sys2Proof.Machine
end

