-- ==== Sys2Proof/Machine/Step.lean ====
section
/-! DEFINITION. One step of the machine: the next move of the schedule; with none left, the sequencer
completes what is in flight, so that every accepted command completes (spec/70_reset_and_hazards.md
R276). -/

namespace Sys2Proof.Machine

/-- One step. DESIGN CHOICE (safe): notes/assumptions/2.md. -/
def step (s : State) : Host.Outcome State Fault Refusal :=
  match s.schedule with
  | [] => sequencer s.quiet
  | m :: _ => perform m s.quiet.dequeue

/-- The state in which the host's next move writes the command word to `CMD`, with the block ready to
take it: the very next step runs the command's acceptance, and the completion is a step of the
sequencer (R240); notes/assumptions/4.md. -/
def State.withFetchWord (s : State) (nbits w : Nat) : State :=
  { s.ready with schedule := .host (cmdWrite (BitVec.ofNat 32 (w % 2 ^ nbits))) :: s.schedule }

end Sys2Proof.Machine
end

