-- ==== Sys2Proof/Machine/Script.lean ====
section
/-! DEFINITION. The host-script notation (spec/30_encoding.md R107, R108): each line is a list of moves. -/

namespace Sys2Proof.Machine

/-- The bare mnemonic of a command, upper case (R107). -/
def mnemonic : Instr → String
  | .nop => "NOP"
  | .init => "INIT"
  | .ftq => "FTQ"
  | .nnz => "NNZ"
  | .ft => "FT"
  | .l1s => "L1S"
  | .l1d => "L1D"
  | .l2 => "L2"
  | .l3 => "L3"
  | .eval => "EVAL"
  | .srst => "SRST"

/-- The command that a mnemonic names (R107). -/
def assemble (t : String) : Option Instr := Instr.all.find? fun i => mnemonic i == t

/-- A request at a 16-bit address with the given size code. -/
def request (write : Bool) (size : BitVec 2) (a : Nat) (v : Word) : Request :=
  { write := write, addr := BitVec.ofNat 16 a, size := size, wdata := v }

/-- `WR8` (R107) -/
def wr8 (a : Nat) (v : Byte) : Move := .host (request true 0#2 a (v.setWidth 32))
/-- `WR16` (R107) -/
def wr16 (a : Nat) (v : Half) : Move := .host (request true 1#2 a (v.setWidth 32))
/-- `WR32` (R107) -/
def wr32 (a : Nat) (v : Word) : Move := .host (request true 2#2 a v)
/-- `RD8` (R107) -/
def rd8 (a : Nat) : Move := .host (request false 0#2 a 0#32)
/-- `RD16` (R107) -/
def rd16 (a : Nat) : Move := .host (request false 1#2 a 0#32)
/-- `RD32` (R107) -/
def rd32 (a : Nat) : Move := .host (request false 2#2 a 0#32)

/-- A command as the host issues it (R107): `WR32 0x0000, <word>`. -/
def issueMove (i : Instr) : Move := wr32 Region.cmd.base (encode i)

/-- `WAIT` (R108), where `polls` reads of `STATUS` come before the completion: the number is not the
host's to choose (R276), so a claim about `WAIT` is one about every `polls`; notes/assumptions/17.md. -/
def wait (polls : Nat) : List Move :=
  List.replicate polls (rd32 Region.status.base) ++ [.complete, rd32 Region.status.base]

/-- `RUN <MNEMONIC>` (R108). -/
def run (i : Instr) (polls : Nat) : List Move := issueMove i :: wait polls

/-- `FILL8` (R108): every byte of a byte buffer, index ascending. -/
def fill8 (r : Region) (v : Byte) : List Move := (List.range r.bytes).map fun k => wr8 (r.base + k) v

/-- `FILL16` (R108). -/
def fill16 (r : Region) (v : Half) : List Move :=
  (List.range (r.bytes / 2)).map fun k => wr16 (r.base + 2 * k) v

/-- `FILL32` (R108). -/
def fill32 (r : Region) (v : Word) : List Move :=
  (List.range (r.bytes / 4)).map fun k => wr32 (r.base + 4 * k) v

/-- `LOAD` of a byte buffer (R108). -/
def load8 (r : Region) (vs : List Byte) : List Move :=
  vs.zipIdx.map fun p => wr8 (r.base + p.2) p.1

/-- `LOAD` of a 16-bit buffer (R108). -/
def load16 (r : Region) (vs : List Half) : List Move :=
  vs.zipIdx.map fun p => wr16 (r.base + 2 * p.2) p.1

/-- `LOAD` of a 32-bit buffer (R108). -/
def load32 (r : Region) (vs : List Word) : List Move :=
  vs.zipIdx.map fun p => wr32 (r.base + 4 * p.2) p.1

/-- `EXPECT` (R108): the response of the read just made is `v`. -/
def expect (s : State) (v : Word) : Prop := s.response = some (.ok v)

/-- The state when a run of a command is over, whose completion follows its acceptance with no move
of the host between (`RUN`, R108): the acceptance alone where it starts nothing. -/
def runCommand (i : Instr) (s : State) : Result :=
  match exec i s with
  | .next t => if t.status.busy then exec i t else .next t
  | .fault r => .fault r
  | .refused r => .refused r

end Sys2Proof.Machine
end

