-- ==== Sys2Proof/Safety.lean ====
section
/-! DEFINITION. The control situations (spec/10_state.md R37), the end of a run
(spec/70_reset_and_hazards.md R278), the machine's invariants (R47, R48), and the frames and the notion
of a correctly rounded value that claims use. -/

namespace Sys2Proof.Machine

/-- *idle* (R37). -/
abbrev State.idle (s : State) : Prop := s.status.busy = false ∧ s.status.err = false

/-- *running* (R37). -/
abbrev State.running (s : State) : Prop :=
  s.status.busy = true ∧ s.status.done = false ∧ s.status.err = false

/-- *failed* (R37). -/
abbrev State.failed (s : State) : Prop :=
  s.status.busy = false ∧ s.status.done = false ∧ s.status.err = true ∧ s.status.errcode ≠ 0#4

/-- A run that ended successfully (R278). The error state never counts (U8). -/
abbrev State.succeeded (s : State) : Prop :=
  s.status.busy = false ∧ s.status.err = false ∧ s.status.done = true

/-- Command `i` is in flight: accepted, not completed (R14, R36). -/
abbrev State.runs (s : State) (i : Instr) : Prop :=
  s.status.busy = true ∧ s.status.err = false ∧ s.status.cur = curOf i

/-- The set-bit positions of an 8-bit number in ascending order (R152). -/
def setBits (m : Nat) : List Nat := (List.range 8).filter m.testBit

/-- The nonzero groups in ascending order (R168). -/
def nonzeroGroups (s : State) : List Nat := (List.range Config.ngroups).filter (groupNonzero s)

/-- The invariant of the control registers (R36, R37, R40, R47, R260). -/
structure State.ControlInv (s : State) : Prop where
  code_iff : s.status.errcode ≠ 0#4 ↔ s.status.err = true
  code_le : s.status.errcode.toNat ≤ 5
  not_busy_err : ¬(s.status.busy = true ∧ s.status.err = true)
  busy_not_done : s.status.busy = true → s.status.done = false
  err_not_done : s.status.err = true → s.status.done = false
  info_zero : s.status.err = false → s.errinfo = 0#32
  count_le : s.nnzCount.toNat ≤ Config.ngroups
  in_reset : s.inReset = true → s.status = Status.zero

/-- The command in flight is one of the eleven and its precondition still holds (R238). -/
structure State.FlightInv (s : State) : Prop where
  decodes : s.status.busy = true → ∃ i, s.inFlight = .ok i
  table : s.status.busy = true →
    s.inFlight = .ok .nnz ∨ s.inFlight = .ok .ft ∨ s.inFlight = .ok .eval → s.status.lutValid = true
  list : s.status.busy = true → s.inFlight = .ok .l1s → s.status.nnzFresh = true

/-- While `LUT_VALID = 1` the table holds the set-bit positions, and padding 0 (R152, R153). -/
def State.TableInv (s : State) : Prop :=
  s.status.lutValid = true →
    ∀ m < 256, ∀ e < 8, s.lut m e = BitVec.ofNat 16 ((setBits m).getD e 0)

/-- While `NNZ_FRESH = 1` the index list is the ascending enumeration of the nonzero groups, and the
table is valid (R48). -/
def State.FreshInv (s : State) : Prop :=
  s.status.nnzFresh = true → s.status.lutValid = true ∧ s.nnzList = nonzeroGroups s

/-- The memory is in its canonical form and lists addresses of data buffers only (R67). -/
structure State.MemoryInv (s : State) : Prop where
  wf : Memory.wf s.mem
  buffers : ∀ c ∈ s.mem, isBufferAddr c.1 = true

/-- The invariant of the machine (R37, R47, R48, R152). -/
structure State.Inv (s : State) : Prop where
  control : s.ControlInv
  flight : s.FlightInv
  table : s.TableInv
  list : s.FreshInv
  memory : s.MemoryInv

/-- Every byte outside the named buffers is unchanged. -/
def SameBytesOutside (rs : List Region) (s t : State) : Prop :=
  ∀ a, (∀ r ∈ rs, r.contains a = false) → t.byteAt a = s.byteAt a

/-- The port, the schedule and the contents that nothing has written are unchanged. -/
structure SamePort (s t : State) : Prop where
  response : t.response = s.response
  inReset : t.inReset = s.inReset
  schedule : t.schedule = s.schedule
  epoch : t.epoch = s.epoch

/-- `s` with another value of `STATUS.CUR`, which two ways of running the same stages leave different
(R108). -/
def State.withCur (s : State) (i : Instr) : State :=
  { s with status := { s.status with cur := curOf i } }

/-- `r` is the exact value `x × 2^-298` of sign `neg`, correctly rounded (R127): the infinity from half a
unit above the largest finite value on, else a binary32 value than which none of the sign is nearer, with
an even last bit where another is as near. -/
def F32.CorrectlyRounded (neg : Bool) (x : Nat) (r : F32) : Prop :=
  (r = .inf neg ∧ (2 ^ 25 - 1) * 2 ^ 401 ≤ x) ∨
  (x < (2 ^ 25 - 1) * 2 ^ 401 ∧ ∃ u, r = .fin neg u ∧
    (∃ w, F32.unpack w = .fin neg u) ∧
    ∀ w v, F32.unpack w = .fin neg v →
      ((x : Int) - u * 2 ^ 149).natAbs ≤ ((x : Int) - v * 2 ^ 149).natAbs ∧
      (((x : Int) - u * 2 ^ 149).natAbs = ((x : Int) - v * 2 ^ 149).natAbs → v ≠ u →
        (F32.pack (.fin neg u)).getLsbD 0 = false))

/-- The next move of the schedule is `m`. -/
abbrev State.nextMove (s : State) (m : Move) : Prop := s.schedule.head? = some m

/-- The next step is the sequencer's: a completion is next, or no move is left (R276). -/
abbrev State.sequencerNext (s : State) : Prop := s.schedule = [] ∨ s.schedule.head? = some .complete

/-- The state after a move has been taken off the schedule and before it acts. -/
abbrev State.taken (s : State) : State := s.quiet.dequeue

end Sys2Proof.Machine
end

