-- ==== Sys2Proof/Certificates/Slice0/Obligations.lean ====
section
/-! DEFINITION. The statements for the provers, from the numbered rules of spec/. A statement whose
docstring names no rule as stated rests on sections of the spec or on a choice of the model's. -/

open Sys2Proof Sys2Proof.Machine

/-! ### Decoding (30_encoding.md) -/

/-- The decoding lines of 95_test_vectors.md section 2.9: words written out from the opcode map. -/
def Obligations.DecodeMatchesVectors : Prop :=
  decode 0x00000000#32 = .ok .nop ∧ decode 0x00000001#32 = .ok .init ∧
  decode 0x00000002#32 = .ok .ftq ∧ decode 0x00000003#32 = .ok .nnz ∧
  decode 0x00000005#32 = .ok .l1s ∧ decode 0x00000007#32 = .ok .l2 ∧
  decode 0x00000008#32 = .ok .l3 ∧ decode 0x00000009#32 = .ok .eval ∧
  decode 0x0000000F#32 = .ok .srst ∧
  decode 0x0000000A#32 = .error .reservedOpcode ∧ decode 0x0000000E#32 = .error .reservedOpcode ∧
  decode 0x00000010#32 = .error .reservedOpcode ∧ decode 0x000000FF#32 = .error .reservedOpcode ∧
  decode 0x00000109#32 = .error .zeroFieldSet ∧ decode 0x80000001#32 = .error .zeroFieldSet ∧
  decode 0xFFFFFFFF#32 = .error .zeroFieldSet

/-- R101: a word selects a command exactly when it equals the command's word, and every other word
is illegal. -/
def Obligations.DecodeSelectsExactWord : Prop :=
  (∀ (w : Word) (i : Instr), decode w = .ok i ↔ w = encode i) ∧
  ∀ w : Word, (∀ i, w ≠ encode i) → ∃ e, decode w = .error e

/-! ### Reset (10_state.md section 7, 70_reset_and_hazards.md) -/

/-- The control registers and outputs right after reset (section 7 of 10_state.md). That `req_ready` is 1
then, with no request, is the model's choice (notes/assumptions/20.md). -/
def Obligations.ResetControlState : Prop :=
  State.reset.status.word = 0#32 ∧ State.reset.errinfo = 0#32 ∧ State.reset.nnzCount = 0#32 ∧
  State.reset.score = 0#32 ∧ State.reset.outputs.busy = false ∧ State.reset.outputs.done = false ∧
  State.reset.outputs.err = false ∧ State.reset.outputs.reqReady = true

/-- Reset (section 1 of 70_reset_and_hazards.md) takes effect whatever the block is doing; while `rst_n` is low no request is taken
and none is answered; when it is high again the control registers are 0. A transaction is one step
of the model, so none is ever outstanding (notes/assumptions/12.md); `req_ready` is 1 whenever `rst_n` is
high (notes/assumptions/20.md). -/
def Obligations.HardwareResetFromAnyState : Prop :=
  (∀ s, s.nextMove .assertReset →
    ∃ t, step s = .next t ∧ t.status.word = 0#32 ∧ t.errinfo = 0#32 ∧ t.nnzCount = 0#32 ∧
      t.score = 0#32 ∧ t.inReset = true ∧ t.outputs.reqReady = false ∧ t.response = none ∧
      t.schedule = s.schedule.tail) ∧
  (∀ s r, s.inReset = true → s.nextMove (.host r) → step s = .next s.taken) ∧
  ∀ s, s.inReset = true → s.nextMove .releaseReset →
    ∃ t, step s = .next t ∧ t.outputs.reqReady = true ∧ t.status = s.status ∧ t.errinfo = s.errinfo ∧
      t.nnzCount = s.nnzCount ∧ t.score = s.score ∧ ∀ a, t.byteAt a = s.byteAt a

/-! ### A step (00_scope.md R16, 60_exceptions.md section 3) -/

/-- A write of a command's word to `CMD`, which the port allows, runs the decoded command, after the
response has been put on the port. -/
def Obligations.CommandWriteRunsDecoded : Prop :=
  ∀ (s : State) (w : Word) (i : Instr), s.nextMove (.host (cmdWrite w)) → s.inReset = false →
    s.status.busy = false → (s.status.err = false ∨ i = .srst) → decode w = .ok i →
    step s = exec i (s.taken.respond (.ok 0#32))

/-- The sequencer's step runs the command in flight; without one it changes nothing but the port. -/
def Obligations.SequencerStepRunsCommandInFlight : Prop :=
  (∀ (s : State) (i : Instr), s.sequencerNext → s.runs i → step s = exec i s.taken) ∧
  ∀ s : State, s.sequencerNext → s.status.busy = false → step s = .next s.taken

/-- An accepted command completes (section 3 of 60_exceptions.md) in one step, with `DONE` or in the error entry. -/
def Obligations.CompletionEndsRun : Prop :=
  ∀ (s : State) (i : Instr), s.sequencerNext → s.runs i →
    ∃ t, step s = .next t ∧ t.status.busy = false ∧
      ((t.status.done = true ∧ t.status.err = false) ∨
        (t.status.done = false ∧ t.status.err = true ∧
          (t.status.errcode = 4#4 ∨ t.status.errcode = 5#4)))

/-- R238, R231, R232, R233: acceptance and the order of its checks, for a write of any word to `CMD`.
What SRST clears at its acceptance in the error state is the model's reading (notes/assumptions/6.md) and
is left to `SrstAcceptedInErrorState`. -/
def Obligations.AcceptanceOrder : Prop :=
  ∀ (s : State) (w : Word), s.nextMove (.host (cmdWrite w)) → s.inReset = false →
    if s.status.busy = true then
      step s = .next { s.taken with response := some { rdata := 0#32, err := true } }
    else if s.status.err = true ∧ w ≠ 0x0000000F#32 then
      step s = .next { s.taken with response := some { rdata := 0#32, err := true } }
    else if ¬(w.toNat ≤ 9 ∨ w = 0x0000000F#32) then
      step s = .next { s.taken with
        response := some { rdata := 0#32, err := false }
        status := { s.status with err := true, errcode := 1#4, done := false, busy := false }
        errinfo := w }
    else if (w = encode .nnz ∨ w = encode .ft ∨ w = encode .eval) ∧ s.status.lutValid = false then
      step s = .next { s.taken with
        response := some { rdata := 0#32, err := false }
        status := { s.status with err := true, errcode := 2#4, done := false, busy := false }
        errinfo := w }
    else if w = encode .l1s ∧ s.status.nnzFresh = false then
      step s = .next { s.taken with
        response := some { rdata := 0#32, err := false }
        status := { s.status with err := true, errcode := 3#4, done := false, busy := false }
        errinfo := w }
    else if s.status.err = false ∧ w ≠ 0x0000000F#32 then
      step s = .next { s.taken with
        response := some { rdata := 0#32, err := false }
        status := { s.status with busy := true, done := false, cur := w.extractLsb' 0 4 } }
    else
      ∃ t, step s = .next t ∧ t.response = some { rdata := 0#32, err := false } ∧
        t.status.busy = true ∧ t.status.done = false ∧ t.status.cur = w.extractLsb' 0 4 ∧
        ∀ a, t.byteAt a = s.byteAt a

/-- Every command completes its acceptance where its precondition holds: it is in flight afterwards
and nothing else has changed (sections 3 of 60_exceptions.md and 1 of 41_init_lut.md). -/
def Obligations.AcceptedCommandIsInFlight : Prop :=
  ∀ (s : State) (i : Instr), s.idle →
    (i = .nnz ∨ i = .ft ∨ i = .eval → s.status.lutValid = true) →
    (i = .l1s → s.status.nnzFresh = true) → i ≠ .srst →
    exec i s = .next { s with status := { s.status with busy := true, done := false, cur := curOf i } }

/-- The error state (section 3 of 60_exceptions.md): while `ERR = 1` every `CMD` write but SRST's is refused with no change, and reads of buffers
and writes to read/write buffers still succeed. -/
def Obligations.ErrorStateAcceptsOnlySrst : Prop :=
  ∀ s : State, s.failed → s.inReset = false →
    (∀ w : Word, w ≠ encode .srst → s.nextMove (.host (cmdWrite w)) →
      step s = .next { s.taken with response := some { rdata := 0#32, err := true } }) ∧
    (∀ (r : Request) (g : Region), r.write = false → s.nextMove (.host r) → WellFormed.request r = true →
      regionOf r.addr.toNat = some g → g.isControl = false →
      ∃ v, step s = .next { s.taken with response := some { rdata := v, err := false } }) ∧
    (∀ (r : Request) (g : Region), r.write = true → s.nextMove (.host r) → WellFormed.request r = true →
      regionOf r.addr.toNat = some g → g.isControl = false → g.writable = true →
      ∃ t, step s = .next t ∧ t.response = some { rdata := 0#32, err := false } ∧
        ∀ k < r.bytes, t.byteAt (r.addr.toNat + k) = r.wdata.extractLsb' (8 * k) 8) ∧
    (s.nextMove (.host (cmdWrite (encode .srst))) →
      ∃ t, step s = .next t ∧ t.response = some { rdata := 0#32, err := false } ∧
        t.status.busy = true ∧ t.status.cur = 0xF#4)

/-- What the acceptance of SRST clears in the error state: the model's reading of R37, R47 and R238
(DEDUCED, notes/assumptions/6.md). -/
def Obligations.SrstAcceptedInErrorState : Prop :=
  ∀ s : State, s.status.busy = false →
    exec .srst s = .next { s with
      status := { s.status with err := false, errcode := 0#4, busy := true, done := false, cur := 0xF#4 }
      errinfo := 0#32 }

/-- Only SRST's command word and hardware reset leave the error state (10_state.md R36, 60_exceptions.md
section 3). -/
def Obligations.ErrorLeftOnlyBySrstOrReset : Prop :=
  ∀ s t : State, step s = .next t → s.status.busy = false → s.status.err = true →
    t.status.err = false →
    s.nextMove .assertReset ∨ s.nextMove (.host (cmdWrite (encode .srst)))

/-! ### The port (20_memory.md) -/

/-- R66: a transaction is refused exactly when one of the seven causes holds, over the reserved and
read-only ranges of the map, and a refused one changes nothing. -/
def Obligations.BusErrorExactlyWhen : Prop :=
  ∀ (s : State) (r : Request), s.nextMove (.host r) → s.inReset = false →
    let a := r.addr.toNat
    let n := 2 ^ r.size.toNat
    let reserved : Nat → Prop := fun b =>
      (0x0014 ≤ b ∧ b ≤ 0x0FFF) ∨ (0x3D40 ≤ b ∧ b ≤ 0x3D7F) ∨ (0x3E84 ≤ b ∧ b ≤ 0x3FFF) ∨
        (0x4800 ≤ b ∧ b ≤ 0x4FFF) ∨ (0x6000 ≤ b ∧ b ≤ 0x7FFF)
    let readOnly : Prop :=
      (0x0004 ≤ a ∧ a ≤ 0x0013) ∨ (0x3800 ≤ a ∧ a ≤ 0x3BFF) ∨ (0x3C40 ≤ a ∧ a ≤ 0x3C7F) ∨
        (0x5000 ≤ a ∧ a ≤ 0x5FFF)
    let cause : Prop :=
      r.size = 3#2 ∨ a % n ≠ 0 ∨ (∃ k < n, reserved (a + k)) ∨ (a ≤ 0x0013 ∧ n ≠ 4) ∨
        (r.write = true ∧ readOnly) ∨
        (s.status.busy = true ∧ ¬(r.write = false ∧ a = 0x0004 ∧ n = 4)) ∨
        (r.write = true ∧ a = 0x0000 ∧ s.status.err = true ∧ r.wdata ≠ 0x0000000F#32)
    (cause → step s = .next { s.taken with response := some { rdata := 0#32, err := true } }) ∧
    (¬cause → ∃ t v, step s = .next t ∧ t.response = some { rdata := v, err := false })

/-- R69: during a run only a 4-byte read of `STATUS` succeeds; every other transaction is refused and
changes nothing. -/
def Obligations.RunLocksPort : Prop :=
  ∀ (s : State) (r : Request), s.nextMove (.host r) → s.inReset = false → s.status.busy = true →
    if r.write = false ∧ r.addr = 0x0004#16 ∧ r.size = 2#2 then
      step s = .next { s.taken with response := some { rdata := s.status.word, err := false } }
    else step s = .next { s.taken with response := some { rdata := 0#32, err := true } }

/-- Reads (sections 2, 3 and 4 of 20_memory.md): a control register gives its word and `CMD` gives 0; a
buffer gives its stored bytes, the first in the low byte, zero-extended; no read changes any state but
the port. The value is said of `LUT` while it is valid, and of the elements of `NNZ` below `NNZ_COUNT`:
elsewhere the spec leaves it unspecified (U4, U5). -/
def Obligations.ReadsReturnRegistersAndBytes : Prop :=
  ∀ (s : State) (r : Request), s.nextMove (.host r) → s.inReset = false → r.write = false →
    busError s r = false →
    ∃ v, step s = .next { s.taken with response := some { rdata := v, err := false } } ∧
      (r.addr = 0x0000#16 → v = 0#32) ∧ (r.addr = 0x0004#16 → v = s.status.word) ∧
      (r.addr = 0x0008#16 → v = s.nnzCount) ∧ (r.addr = 0x000C#16 → v = s.score) ∧
      (r.addr = 0x0010#16 → v = s.errinfo) ∧
      ((0x5000 ≤ r.addr.toNat ∧ r.addr.toNat ≤ 0x5FFF → s.status.lutValid = true) →
        (0x3800 ≤ r.addr.toNat ∧ r.addr.toNat ≤ 0x3BFF →
          r.addr.toNat + 2 ^ r.size.toNat ≤ 0x3800 + 2 * s.nnzCount.toNat) →
        0x1000 ≤ r.addr.toNat → ∀ k < 4, v.extractLsb' (8 * k) 8 =
          if k < 2 ^ r.size.toNat then s.byteAt (r.addr.toNat + k) else 0#8)

/-- A write to a buffer, which the port allows, stores the low bytes of the data, the lowest first,
changes no other byte and no register, and clears `NNZ_FRESH` exactly when it hits `ACT` (sections 2
and 3 of 20_memory.md, 10_state.md R38). -/
def Obligations.BufferWriteEffect : Prop :=
  ∀ (s : State) (r : Request), s.nextMove (.host r) → s.inReset = false → r.write = true →
    busError s r = false → r.addr ≠ 0x0000#16 →
    ∃ t, step s = .next t ∧ t.response = some { rdata := 0#32, err := false } ∧
      (∀ k < 2 ^ r.size.toNat, t.byteAt (r.addr.toNat + k) = r.wdata.extractLsb' (8 * k) 8) ∧
      (∀ a, a < r.addr.toNat ∨ r.addr.toNat + 2 ^ r.size.toNat ≤ a → t.byteAt a = s.byteAt a) ∧
      t.status = { s.status with
        nnzFresh := s.status.nnzFresh && !(0x3000 ≤ r.addr.toNat && r.addr.toNat ≤ 0x37FF) } ∧
      t.errinfo = s.errinfo ∧ t.nnzCount = s.nnzCount ∧ t.score = s.score ∧ t.inReset = false ∧
      t.schedule = s.schedule.tail

/-- What has been written to a buffer is read back: a read of the same address and size after a
successful write gives the low `8·n` bits of the data (sections 2 and 3 of 20_memory.md). -/
def Obligations.WriteThenReadBack : Prop :=
  ∀ (s : State) (a : BitVec 16) (size : BitVec 2) (v : Word),
    s.schedule = [.host ⟨true, a, size, v⟩, .host ⟨false, a, size, 0#32⟩] → s.inReset = false →
    busError s ⟨true, a, size, v⟩ = false → a ≠ 0x0000#16 →
    ∃ t u, step s = .next t ∧ step t = .next u ∧
      u.response = some
        { rdata := BitVec.ofNat 32 (v.toNat % 2 ^ (8 * 2 ^ size.toNat)), err := false }

/-- The layout of the `STATUS` word (section 5 of 10_state.md): each field at its bits, the reserved
bits 0. -/
def Obligations.StatusWordLayout : Prop :=
  ∀ f : Status,
    f.word.getLsbD 0 = f.busy ∧ f.word.getLsbD 1 = f.done ∧ f.word.getLsbD 2 = f.err ∧
    f.word.getLsbD 3 = f.lutValid ∧ f.word.getLsbD 4 = f.nnzFresh ∧
    f.word.extractLsb' 5 3 = 0#3 ∧ f.word.extractLsb' 8 4 = f.errcode ∧
    f.word.extractLsb' 12 4 = f.cur ∧ f.word.extractLsb' 16 16 = 0#16

/-! ### Flags and frames over all commands -/

/-- R38: exactly the named events set and clear `NNZ_FRESH`, and L1S is accepted only while it is 1. -/
def Obligations.FreshFlagEvents : Prop :=
  (∀ s t : State, step s = .next t →
    let sets : Prop := s.sequencerNext ∧ s.status.busy = true ∧ t.status.done = true ∧
      (s.inFlight = .ok .nnz ∨ s.inFlight = .ok .ft ∨ s.inFlight = .ok .eval)
    let clears : Prop := s.nextMove .assertReset ∨
      (s.sequencerNext ∧ s.status.busy = true ∧
        (s.inFlight = .ok .srst ∨ s.inFlight = .ok .ftq ∨
          (s.inFlight = .ok .eval ∧ t.status.done = false))) ∨
      ∃ r, s.nextMove (.host r) ∧ s.inReset = false ∧ busError s r = false ∧ r.write = true ∧
        0x3000 ≤ r.addr.toNat ∧ r.addr.toNat ≤ 0x37FF
    (t.status.nnzFresh = true ↔ sets ∨ (s.status.nnzFresh = true ∧ ¬clears))) ∧
  ∀ s t : State, s.status.busy = false → exec .l1s s = .next t → t.status.busy = true →
    s.status.nnzFresh = true

/-- `LUT_VALID` becomes 1 at the completion of INIT only and 0 at SRST and reset only (10_state.md
section 5). -/
def Obligations.LutValidEvents : Prop :=
  ∀ s t : State, step s = .next t →
    (t.status.lutValid = true ↔
      (s.sequencerNext ∧ s.status.busy = true ∧ s.inFlight = .ok .init) ∨
      (s.status.lutValid = true ∧ ¬s.nextMove .assertReset ∧
        ¬(s.sequencerNext ∧ s.status.busy = true ∧ s.inFlight = .ok .srst)))

/-- The accumulators, weights and biases are changed by successful host writes and by reset only: no
command writes them (sections 2 and 3 of 10_state.md). -/
def Obligations.InputsChangeOnlyByHost : Prop :=
  ∀ (s t : State) (r : Region) (a : Nat), step s = .next t →
    r ∈ [Region.us, .them, .l1w, .l1b, .l2w, .l2b, .l3w, .l3b] → r.contains a = true →
    t.byteAt a ≠ s.byteAt a →
    s.nextMove .assertReset ∨
      ∃ q, s.nextMove (.host q) ∧ q.write = true ∧ busError s q = false ∧
        q.addr.toNat ≤ a ∧ a < q.addr.toNat + 2 ^ q.size.toNat

/-- The frame of every command (the table of section 5 of 20_memory.md): every byte outside the buffers
that the table gives the command, and every register it does not give it, is unchanged. -/
def Obligations.CommandFrame : Prop :=
  ∀ (i : Instr) (s t : State), exec i s = .next t →
    (∀ a, (∀ r ∈ bufferWrites i, r.contains a = false) → t.byteAt a = s.byteAt a) ∧
    t.response = s.response ∧ t.inReset = s.inReset ∧ t.schedule = s.schedule ∧ t.epoch = s.epoch ∧
    (i ≠ .nnz ∧ i ≠ .ft ∧ i ≠ .eval ∧ i ≠ .srst → t.nnzCount = s.nnzCount) ∧
    (i ≠ .l3 ∧ i ≠ .eval ∧ i ≠ .srst → t.score = s.score) ∧
    (i ≠ .srst ∧ t.status.err = false → t.errinfo = s.errinfo) ∧
    (i ≠ .init ∧ i ≠ .srst → t.status.lutValid = s.status.lutValid) ∧
    (i ≠ .ftq ∧ i ≠ .nnz ∧ i ≠ .ft ∧ i ≠ .eval ∧ i ≠ .srst →
      t.status.nnzFresh = s.status.nnzFresh)

/-! ### Housekeeping (41_init_lut.md) -/

/-- R150: NOP is accepted from every idle state; in flight it completes, and no buffer and no register
other than `STATUS` changes. -/
def Obligations.NopCompletes : Prop :=
  (∀ s : State, s.idle → exec .nop s = .next { s with
    status := { s.status with busy := true, done := false, cur := 0x0#4 } }) ∧
  ∀ s : State, s.runs .nop →
    exec .nop s = .next { s with status := { s.status with busy := false, done := true, cur := 0x0#4 } }

/-- R151: INIT is accepted from every idle state; in flight it completes with the table of ascending
set-bit positions, padding 0, and changes nothing else but the flags. -/
def Obligations.InitCompletes : Prop :=
  (∀ s : State, s.idle → exec .init s = .next { s with
    status := { s.status with busy := true, done := false, cur := 0x1#4 } }) ∧
  ∀ s : State, s.runs .init →
    ∃ t, exec .init s = .next t ∧
      (∀ m < 256, ∀ e < 8, t.lut m e =
        BitVec.ofNat 16 (((List.range 8).filter fun p => Nat.testBit m p).getD e 0)) ∧
      t.status = { s.status with lutValid := true, busy := false, done := true, cur := 0x1#4 } ∧
      SameBytesOutside [.lut] s t ∧ SamePort s t ∧ t.errinfo = s.errinfo ∧
      t.nnzCount = s.nnzCount ∧ t.score = s.score

/-- INIT with a valid table changes nothing but `DONE` and `CUR` (section 2 of 41_init_lut.md). The
premise is the invariant of `InvariantKeptByStep`. -/
def Obligations.InitIdempotent : Prop :=
  ∀ s : State, s.TableInv → s.status.lutValid = true → s.idle →
    ∃ t, runCommand .init s = .next t ∧ (∀ a, t.byteAt a = s.byteAt a) ∧
      t.status = { s.status with done := true, cur := 0x1#4 } ∧ SamePort s t ∧
      t.errinfo = s.errinfo ∧ t.nnzCount = s.nnzCount ∧ t.score = s.score

/-- R154: SRST, accepted from every state with `BUSY = 0`, returns the control registers to their reset
values, with `STATUS = 0x0000F002`, and keeps every buffer but the elements of `NNZ`; while `BUSY = 1` it
is refused. -/
def Obligations.SrstCompletes : Prop :=
  (∀ s : State, s.nextMove (.host (cmdWrite 0x0000000F#32)) → s.inReset = false → s.status.busy = true →
    step s = .next { s.taken with response := some { rdata := 0#32, err := true } }) ∧
  (∀ s : State, s.runs .srst →
    ∃ t, exec .srst s = .next t ∧ t.status.word = 0x0000F002#32 ∧ t.errinfo = 0#32 ∧
      t.nnzCount = 0#32 ∧ t.score = 0#32 ∧ SameBytesOutside [.nnz] s t ∧ SamePort s t) ∧
  ∀ s : State, s.status.busy = false →
    ∃ t, runCommand .srst s = .next t ∧ t.status.word = 0x0000F002#32 ∧ t.errinfo = 0#32 ∧
      t.nnzCount = 0#32 ∧ t.score = 0#32 ∧ SameBytesOutside [.nnz] s t ∧ SamePort s t

/-! ### Feature transform (42_feature_transform.md) -/

/-- R160, R162: FTQ is accepted from every idle state, with or without a table; in flight it completes;
element `i` of half0 meets element `i` of half1 of the same accumulator; the list is stale afterwards,
and nothing else changes. -/
def Obligations.FtqCompletes : Prop :=
  (∀ s : State, s.idle → exec .ftq s = .next { s with
    status := { s.status with busy := true, done := false, cur := 0x2#4 } }) ∧
  ∀ s : State, s.runs .ftq →
    ∃ t, exec .ftq s = .next t ∧
      (∀ i < 1024, t.act i = BitVec.ofInt 8 (ftqPair (s.us i) (s.us (i + 1024))) ∧
        t.act (1024 + i) = BitVec.ofInt 8 (ftqPair (s.them i) (s.them (i + 1024)))) ∧
      t.status = { s.status with nnzFresh := false, busy := false, done := true, cur := 0x2#4 } ∧
      SameBytesOutside [.act] s t ∧ SamePort s t ∧ t.errinfo = s.errinfo ∧
      t.nnzCount = s.nnzCount ∧ t.score = s.score

/-- The closed form of the element function and its range (section 1 of 42_feature_transform.md). -/
def Obligations.FtqPairClosedForm : Prop :=
  ∀ a b : Int,
    let a0 : Int := if a < 0 then 0 else if 255 < a then 255 else a
    let b1 : Int := if 255 < b then 255 else b
    ftqPair a b = (if 0 < b1 then a0 * b1 / 1024 else 0) ∧ 0 ≤ ftqPair a b ∧ ftqPair a b ≤ 63

/-- R166, R167: NNZ is accepted from an idle state with a valid table, and raises `E_NOINIT` without one;
in flight it completes with the indices that the slices' masks select from the table, in slice order, and
their number; the list is fresh afterwards. -/
def Obligations.NnzCompletes : Prop :=
  (∀ s : State, s.idle → s.status.lutValid = true → exec .nnz s = .next { s with
    status := { s.status with busy := true, done := false, cur := 0x3#4 } }) ∧
  (∀ s : State, s.idle → s.status.lutValid = false → exec .nnz s = .next { s with
    status := { s.status with err := true, errcode := 2#4, done := false }
    errinfo := 0x00000003#32 }) ∧
  ∀ s : State, s.runs .nnz →
    ∃ t, exec .nnz s = .next t ∧
      (let mask : Nat → Nat := fun sl =>
        ((List.range 8).map fun k => if s.actw (8 * sl + k) ≠ 0#32 then 2 ^ k else 0).sum
      t.nnzList = (List.range 64).flatMap fun sl =>
        (List.range ((List.range 8).countP fun p => Nat.testBit (mask sl) p)).map fun e =>
          (8 * sl + (s.lut (mask sl) e).toNat) % 65536) ∧
      t.nnzCount.toNat = t.nnzList.length ∧
      t.status = { s.status with nnzFresh := true, busy := false, done := true, cur := 0x3#4 } ∧
      SameBytesOutside [.nnz] s t ∧ SamePort s t ∧ t.errinfo = s.errinfo ∧ t.score = s.score

/-- With a valid table the list is the ascending enumeration of the nonzero groups, at most 512 of them
(section 2 of 42_feature_transform.md). The table's contents are the invariant of
`InvariantKeptByStep`. -/
def Obligations.NnzListsNonzeroGroups : Prop :=
  ∀ s : State, s.runs .nnz → s.TableInv → s.status.lutValid = true →
    ∃ t, exec .nnz s = .next t ∧
      t.nnzList = (List.range 512).filter (fun g => s.actw g ≠ 0#32) ∧
      t.nnzCount.toNat = ((List.range 512).filter fun g => s.actw g ≠ 0#32).length ∧
      t.nnzList.Pairwise (· < ·)

/-- FT in flight completes: the quantizer, then the encoder on its output (section 3 of
42_feature_transform.md). -/
def Obligations.FtCompletes : Prop :=
  ∀ s : State, s.runs .ft → s.TableInv → s.status.lutValid = true →
    ∃ t, exec .ft s = .next t ∧
      (∀ i < 1024, t.act i = BitVec.ofInt 8 (ftqPair (s.us i) (s.us (i + 1024))) ∧
        t.act (1024 + i) = BitVec.ofInt 8 (ftqPair (s.them i) (s.them (i + 1024)))) ∧
      t.nnzList = (List.range 512).filter (fun g => t.actw g ≠ 0#32) ∧
      t.status = { s.status with nnzFresh := true, busy := false, done := true, cur := 0x4#4 } ∧
      SameBytesOutside [.act, .nnz] s t ∧ SamePort s t ∧ t.errinfo = s.errinfo ∧ t.score = s.score

/-- FT has the effect of FTQ then NNZ on everything but `STATUS.CUR` (section 3 of
42_feature_transform.md, section 5 of 30_encoding.md). That the elements of `NNZ` beyond the list agree too
is the model's choice (notes/assumptions/8.md). -/
def Obligations.FtIsFtqThenNnz : Prop :=
  ∀ s : State, s.idle → s.status.lutValid = true →
    ∃ t u v, runCommand .ft s = .next t ∧ runCommand .ftq s = .next u ∧
      runCommand .nnz u = .next v ∧ t.succeeded ∧ v.withCur .ft = t

/-! ### L1 (43_l1.md, 40_numerics.md) -/

/-- R183: L1S in flight completes over the listed groups where no bias is a NaN. -/
def Obligations.L1sCompletes : Prop :=
  ∀ s : State, s.runs .l1s → (∀ j < 16, (s.l1b j).isNaN = false) →
    ∃ t, exec .l1s s = .next t ∧
      (∀ j < 16,
        let acc : Int := (s.nnzList.map fun g => ((List.range 4).map fun k =>
          ((s.act (4 * g + k)).toNat : Int) * (s.l1w (64 * g + 4 * j + k)).toInt).sum).sum
        t.l1acc j = BitVec.ofInt 32 acc ∧
        ∃ r, (F32.fma (F32.ofInt acc) (.unpack 0x39810182#32) (s.l1b j)).csq = some r ∧
          t.l1out j = r.pack) ∧
      t.status = { s.status with busy := false, done := true, cur := 0x5#4 } ∧
      SameBytesOutside [.l1acc, .l1out] s t ∧ SamePort s t ∧ t.errinfo = s.errinfo ∧
      t.nnzCount = s.nnzCount ∧ t.score = s.score

/-- R183: L1D in flight completes over all 512 groups where no bias is a NaN. -/
def Obligations.L1dCompletes : Prop :=
  ∀ s : State, s.runs .l1d → (∀ j < 16, (s.l1b j).isNaN = false) →
    ∃ t, exec .l1d s = .next t ∧
      (∀ j < 16,
        let acc : Int := ((List.range 512).map fun g => ((List.range 4).map fun k =>
          ((s.act (4 * g + k)).toNat : Int) * (s.l1w (64 * g + 4 * j + k)).toInt).sum).sum
        t.l1acc j = BitVec.ofInt 32 acc ∧ (t.l1acc j).toInt = acc ∧
        ∃ r, (F32.fma (F32.ofInt acc) (.unpack 0x39810182#32) (s.l1b j)).csq = some r ∧
          t.l1out j = r.pack) ∧
      t.status = { s.status with busy := false, done := true, cur := 0x6#4 } ∧
      SameBytesOutside [.l1acc, .l1out] s t ∧ SamePort s t ∧ t.errinfo = s.errinfo ∧
      t.nnzCount = s.nnzCount ∧ t.score = s.score

/-- A NaN bias ends L1S and L1D in `E_NAN`, with the lowest such lane in `ERRINFO`; only the
destinations are lost (section 3 of 43_l1.md, section 1 of 60_exceptions.md). -/
def Obligations.L1NanBiasRaises : Prop :=
  ∀ (s : State) (i : Instr) (j : Nat), (i = .l1s ∨ i = .l1d) → s.runs i → j < 16 →
    (s.l1b j).isNaN = true → (∀ k < j, (s.l1b k).isNaN = false) →
    ∃ t, exec i s = .next t ∧
      t.status = { s.status with err := true, errcode := 4#4, done := false, busy := false } ∧
      t.errinfo = BitVec.ofNat 32 (0x100 + j) ∧ SameBytesOutside [.l1acc, .l1out] s t ∧
      SamePort s t ∧ t.nnzCount = s.nnzCount ∧ t.score = s.score

/-- The 32-bit accumulation over at most 512 groups is exact, within its bounds (section 1 of
40_numerics.md). -/
def Obligations.L1SumFitsWord : Prop :=
  ∀ (s : State) (gs : List Nat) (j : Nat), gs.length ≤ 512 →
    -66846720 ≤ l1Sum s gs j ∧ l1Sum s gs j ≤ 66324480 ∧
      (BitVec.ofInt 32 (l1Sum s gs j)).toInt = l1Sum s gs j

/-- Sparse equals dense (section 3 of 43_l1.md): from a state with a fresh list L1S and L1D raise the same
error for the same lane or none, and end alike in everything but `STATUS.CUR`; after an error the sums and
outputs are left out, whose values the spec leaves unspecified (U2). The premise is the invariant of
`InvariantKeptByStep`. -/
def Obligations.SparseEqualsDense : Prop :=
  ∀ s : State, s.Inv → s.idle → s.status.nnzFresh = true →
    ∃ t u, runCommand .l1s s = .next t ∧ runCommand .l1d s = .next u ∧
      (u.withCur .l1s).status = t.status ∧ u.errinfo = t.errinfo ∧ u.nnzCount = t.nnzCount ∧
      u.score = t.score ∧ SameBytesOutside [.l1acc, .l1out] t u ∧ SamePort t u ∧
      (t.status.err = false → u.withCur .l1s = t)

/-! ### L2 and L3 (44_l2.md, 45_l3_eval.md) -/

/-- R201, R202: L2 in flight completes where no lane is a NaN: from the bias, ascending inputs, one
fused multiply-add each, then the activation. -/
def Obligations.L2Completes : Prop :=
  ∀ s : State, s.runs .l2 →
    let pre : Nat → F32 := fun j => (List.range 16).foldl
      (fun acc i => F32.fma (.unpack (s.l1out i)) (s.l2w (32 * i + j)) acc) (s.l2b j)
    (∀ j < 32, (pre j).isNaN = false) →
    ∃ t, exec .l2 s = .next t ∧
      (∀ j < 32, ∃ r, (pre j).csq = some r ∧ t.l2out j = r.pack) ∧
      t.status = { s.status with busy := false, done := true, cur := 0x7#4 } ∧
      SameBytesOutside [.l2out] s t ∧ SamePort s t ∧ t.errinfo = s.errinfo ∧
      t.nnzCount = s.nnzCount ∧ t.score = s.score

/-- A NaN lane ends L2 in `E_NAN`, the lowest such lane in `ERRINFO` (44_l2.md, section 1 of
60_exceptions.md). -/
def Obligations.L2NanLaneRaises : Prop :=
  ∀ (s : State) (j : Nat), s.runs .l2 → j < 32 →
    let pre : Nat → F32 := fun j => (List.range 16).foldl
      (fun acc i => F32.fma (.unpack (s.l1out i)) (s.l2w (32 * i + j)) acc) (s.l2b j)
    (pre j).isNaN = true → (∀ k < j, (pre k).isNaN = false) →
    ∃ t, exec .l2 s = .next t ∧
      t.status = { s.status with err := true, errcode := 4#4, done := false, busy := false } ∧
      t.errinfo = BitVec.ofNat 32 (0x200 + j) ∧ SameBytesOutside [.l2out] s t ∧ SamePort s t ∧
      t.nnzCount = s.nnzCount ∧ t.score = s.score

/-- R210, R211: L3 in flight completes where the scaled value converts: the dot product in ascending
order, the bias, the scale 400.0, truncation. -/
def Obligations.L3Completes : Prop :=
  ∀ (s : State) (n : Int), s.runs .l3 →
    let dot : F32 := (List.range 32).foldl
      (fun acc k => F32.fma (.unpack (s.l2out k)) (s.l3w k) acc) (.fin false 0)
    (F32.mul (F32.add s.l3b dot) (.unpack 0x43C80000#32)).i32Trunc = .ok n →
    exec .l3 s = .next { s with
      score := BitVec.ofInt 32 n
      status := { s.status with busy := false, done := true, cur := 0x8#4 } }

/-- L3 in flight ends in `E_NAN` where the scaled value is a NaN and in `E_RANGE`, with its pattern,
where it is infinite or outside `[-2^31, 2^31)` (section 1 of 45_l3_eval.md, section 1 of
60_exceptions.md); every buffer is kept. -/
def Obligations.L3ErrorsRaise : Prop :=
  ∀ s : State, s.runs .l3 →
    let dot : F32 := (List.range 32).foldl
      (fun acc k => F32.fma (.unpack (s.l2out k)) (s.l3w k) acc) (.fin false 0)
    let v2 : F32 := F32.mul (F32.add s.l3b dot) (.unpack 0x43C80000#32)
    (v2 = .nan →
      ∃ t, exec .l3 s = .next t ∧
        t.status = { s.status with err := true, errcode := 4#4, done := false, busy := false } ∧
        t.errinfo = 0x300#32 ∧ (∀ a, t.byteAt a = s.byteAt a) ∧ SamePort s t ∧
        t.nnzCount = s.nnzCount) ∧
    ((∃ neg, v2 = .inf neg) ∨
        (∃ u, v2 = .fin false u ∧ 2 ^ 31 * 2 ^ 149 ≤ u) ∨
        (∃ u, v2 = .fin true u ∧ 2 ^ 31 * 2 ^ 149 < u) →
      ∃ t, exec .l3 s = .next t ∧
        t.status = { s.status with err := true, errcode := 5#4, done := false, busy := false } ∧
        t.errinfo = v2.pack ∧ (∀ a, t.byteAt a = s.byteAt a) ∧ SamePort s t ∧
        t.nnzCount = s.nnzCount)

/-! ### EVAL (45_l3_eval.md) -/

/-- EVAL in flight, where no stage raises an error, completes with every stage's result on the results
of the one before (section 2 of 45_l3_eval.md). -/
def Obligations.EvalCompletes : Prop :=
  ∀ s u : State, s.runs .eval → evalStages s = .ok u →
    ∃ t, exec .eval s = .next t ∧
      (∀ i < 1024, t.act i = BitVec.ofInt 8 (ftqPair (s.us i) (s.us (i + 1024))) ∧
        t.act (1024 + i) = BitVec.ofInt 8 (ftqPair (s.them i) (s.them (i + 1024)))) ∧
      t.nnzList = ((List.range 64).flatMap (sliceIndices t)).map (·.toNat) ∧
      (s.TableInv → s.status.lutValid = true → ∀ j < 16,
        t.l1acc j = BitVec.ofInt 32 (l1Sum t t.nnzList j) ∧
        ∃ r, (l1Pre t t.nnzList j).csq = some r ∧ t.l1out j = r.pack) ∧
      (∀ j < 32, ∃ r, (l2Pre t j).csq = some r ∧ t.l2out j = r.pack) ∧
      (∃ n, (l3Scaled t).i32Trunc = .ok n ∧ t.score = BitVec.ofInt 32 n) ∧
      t.status = { s.status with nnzFresh := true, busy := false, done := true, cur := 0x9#4 } ∧
      SameBytesOutside [.act, .nnz, .l1acc, .l1out, .l2out] s t ∧ SamePort s t ∧
      t.errinfo = s.errinfo

/-- EVAL in flight, where a stage raises an error, ends in that error with `NNZ_FRESH = 0`; the buffers
it only reads are kept, and `NNZ_COUNT` stays within its range (section 2 of 45_l3_eval.md, section 3 of
60_exceptions.md). -/
def Obligations.EvalErrorEntry : Prop :=
  ∀ (s : State) (f : Failure), s.runs .eval → evalStages s = .error f →
    ∃ t, exec .eval s = .next t ∧
      t.status = { s.status with
        nnzFresh := false, err := true, errcode := f.kind.code, done := false, busy := false } ∧
      t.errinfo = f.info ∧ t.nnzCount.toNat ≤ 512 ∧
      SameBytesOutside [.act, .nnz, .l1acc, .l1out, .l2out] s t ∧ SamePort s t

/-- EVAL has the effect of FT, L1S, L2, L3 in sequence: with no error, on everything but `STATUS.CUR`;
with one, it reports the error that the sequence reports (section 2 of 45_l3_eval.md, section 5 of
30_encoding.md). That the elements of `NNZ` beyond the list agree too is the model's choice
(notes/assumptions/8.md). -/
def Obligations.EvalIsStagesInSequence : Prop :=
  ∀ s : State, s.idle → s.status.lutValid = true →
    ∃ t a b c d, runCommand .eval s = .next t ∧ runCommand .ft s = .next a ∧
      runCommand .l1s a = .next b ∧ runCommand .l2 b = .next c ∧ runCommand .l3 c = .next d ∧
      d.status.err = t.status.err ∧ d.status.errcode = t.status.errcode ∧ d.errinfo = t.errinfo ∧
      (t.status.err = false → d.withCur .eval = t)

/-- EVAL is a function of the inputs it reads: two states that agree on the accumulators, the table, the
weights and the biases end alike in every destination (section 2 of 45_l3_eval.md, the table of section 5
of 20_memory.md). The elements of `NNZ` beyond the list, and the destinations after an error, agree because
the two states agree on the model's draw of free values: the model's choice (notes/assumptions/8.md and
7.md). The table's contents are the invariant of `InvariantKeptByStep`. -/
def Obligations.EvalDependsOnInputsOnly : Prop :=
  ∀ s s' : State, s.runs .eval → s'.runs .eval → s.TableInv → s.status.lutValid = true →
    s'.status.lutValid = true → s'.fresh = s.fresh →
    (∀ r ∈ [Region.us, .them, .lut, .l1w, .l1b, .l2w, .l2b, .l3w, .l3b], ∀ a, r.contains a = true →
      s'.byteAt a = s.byteAt a) →
    ∃ t t', exec .eval s = .next t ∧ exec .eval s' = .next t' ∧ t'.score = t.score ∧
      t'.nnzCount = t.nnzCount ∧ t'.status.err = t.status.err ∧
      t'.status.errcode = (if t.status.err then t.status.errcode else s'.status.errcode) ∧
      (t.status.err = true → t'.errinfo = t.errinfo) ∧
      ∀ r ∈ [Region.act, .nnz, .l1acc, .l1out, .l2out], ∀ a, r.contains a = true →
        t'.byteAt a = t.byteAt a

/-- A NaN can come only from a NaN or an infinity in a float buffer (section 1 of 60_exceptions.md): with
finite weights and biases EVAL ends successfully or in `E_RANGE`. -/
def Obligations.FiniteWeightsNeverNan : Prop :=
  ∀ s : State, s.runs .eval →
    (∀ j < 16, ∃ n u, s.l1b j = .fin n u) → (∀ k < 512, ∃ n u, s.l2w k = .fin n u) →
    (∀ j < 32, ∃ n u, s.l2b j = .fin n u) → (∀ k < 32, ∃ n u, s.l3w k = .fin n u) →
    (∃ n u, s.l3b = .fin n u) →
    ∃ t, exec .eval s = .next t ∧ (t.succeeded ∨ (t.failed ∧ t.status.errcode = 5#4))

/-- The bias-only path (section 2 of 45_l3_eval.md): for all-zero accumulators the activations and the
list are empty, the sums are 0 and the L1 outputs are the activated biases. -/
def Obligations.BiasOnlyPath : Prop :=
  ∀ s u : State, s.runs .eval → evalStages s = .ok u →
    (∀ i < 2048, s.us i = 0 ∧ s.them i = 0) →
    ∃ t, exec .eval s = .next t ∧ (∀ i < 2048, t.act i = 0#8) ∧ t.nnzCount = 0#32 ∧
      ∀ j < 16, t.l1acc j = 0#32 ∧ ∃ r, (s.l1b j).csq = some r ∧ t.l1out j = r.pack

/-- The end-to-end scenario of the source (S6, vector E1 of 95_test_vectors.md): with every accumulator
element 255, every weight 1 and every bias 0, EVAL gives the score 12800. The table's contents are the
invariant of `InvariantKeptByStep`. -/
def Obligations.UniformWeightsScore : Prop :=
  ∀ s : State, s.runs .eval → s.TableInv → s.status.lutValid = true →
    (∀ i < 2048, s.us i = 255 ∧ s.them i = 255) → (∀ n < 32768, s.l1w n = 1#8) →
    (∀ k < 512, s.l2w k = .fin false (2 ^ 149)) → (∀ k < 32, s.l3w k = .fin false (2 ^ 149)) →
    (∀ j < 16, s.l1b j = .fin false 0) → (∀ j < 32, s.l2b j = .fin false 0) →
    s.l3b = .fin false 0 →
    ∃ t, exec .eval s = .next t ∧ t.succeeded ∧ t.score = 12800#32 ∧
      (∀ i < 2048, t.act i = 63#8) ∧ t.nnzCount = 512#32 ∧
      (∀ j < 16, t.l1acc j = 129024#32 ∧ t.l1out j = 0x3F800000#32) ∧
      ∀ j < 32, t.l2out j = 0x3F800000#32

/-! ### Numeric primitives (40_numerics.md) -/

/-- The rounding is to nearest, ties to even, with overflow to infinity (section 2 of 40_numerics.md):
of the binary32 values of the sign, none is nearer to `x × 2^-298`, and on a tie the last bit is 0. -/
def Obligations.RoundsToNearestEven : Prop :=
  ∀ (neg : Bool) (x : Nat), F32.CorrectlyRounded neg x (F32.round neg x)

/-- Sum, product and fused multiply-add of finite values are each one rounding of the exact result
(section 2 of 40_numerics.md); the sign of an exact zero is IEEE 754's (PRESUMED,
notes/assumptions/16.md). -/
def Obligations.ArithmeticRoundsOnce : Prop :=
  (∀ (s t : Bool) (x y : Nat),
    let e : Int := (signed s x + signed t y) * 2 ^ 149
    (e ≠ 0 → F32.CorrectlyRounded (decide (e < 0)) e.natAbs (F32.add (.fin s x) (.fin t y))) ∧
    (e = 0 → F32.add (.fin s x) (.fin t y) = .fin (s && t) 0)) ∧
  (∀ (s t : Bool) (x y : Nat),
    F32.CorrectlyRounded (s != t) (x * y) (F32.mul (.fin s x) (.fin t y))) ∧
  ∀ (s t n : Bool) (x y z : Nat),
    let e : Int := signed s x * signed t y + signed n z * 2 ^ 149
    (e ≠ 0 →
      F32.CorrectlyRounded (decide (e < 0)) e.natAbs (F32.fma (.fin s x) (.fin t y) (.fin n z))) ∧
    (e = 0 → F32.fma (.fin s x) (.fin t y) (.fin n z) = .fin ((s != t) && n) 0)

/-- The NaN and infinity cases of sum, product and fused multiply-add (section 2 of 40_numerics.md, from
IEEE 754: notes/assumptions/16.md): a NaN comes exactly from a NaN operand, from `∞ − ∞` and from `0 × ∞`;
any other infinite operand gives the infinity of the right sign. -/
def Obligations.ArithmeticSpecialValues : Prop :=
  let infiniteProduct : F32 → F32 → Bool → Prop := fun a b p =>
    (∃ q, a = .inf q ∧ b = .inf (q != p)) ∨
    (∃ q u, u ≠ 0 ∧ a = .inf q ∧ b = .fin (q != p) u) ∨
    ∃ q u, u ≠ 0 ∧ a = .fin (q != p) u ∧ b = .inf q
  let zeroTimesInf : F32 → F32 → Prop := fun a b =>
    ∃ q p, (a = .fin q 0 ∧ b = .inf p) ∨ (a = .inf p ∧ b = .fin q 0)
  (∀ a b : F32, F32.add a b = .nan ↔ a = .nan ∨ b = .nan ∨ ∃ q, a = .inf q ∧ b = .inf !q) ∧
  (∀ a b : F32, F32.mul a b = .nan ↔ a = .nan ∨ b = .nan ∨ zeroTimesInf a b) ∧
  (∀ a b c : F32, F32.fma a b c = .nan ↔
    a = .nan ∨ b = .nan ∨ c = .nan ∨ zeroTimesInf a b ∨ ∃ q, infiniteProduct a b q ∧ c = .inf !q) ∧
  (∀ (b : F32) (q : Bool), (b = .inf q ∨ ∃ s u, b = .fin s u) →
    F32.add (.inf q) b = .inf q ∧ F32.add b (.inf q) = .inf q) ∧
  (∀ (a b : F32) (q : Bool), infiniteProduct a b q → F32.mul a b = .inf q) ∧
  (∀ (a b c : F32) (q : Bool), infiniteProduct a b q → (c = .inf q ∨ ∃ s u, c = .fin s u) →
    F32.fma a b c = .inf q) ∧
  ∀ (s t : Bool) (x y : Nat) (q : Bool), F32.fma (.fin s x) (.fin t y) (.inf q) = .inf q

/-- The integer-to-float conversion is exact up to `2^24`, and `+0.0` at 0 (section 2 of
40_numerics.md). -/
def Obligations.IntToFloatExact : Prop :=
  ∀ n : Int, n.natAbs ≤ 2 ^ 24 → F32.ofInt n = .fin (decide (n < 0)) (n.natAbs * 2 ^ 149)

/-- The float-to-integer conversion raises an error exactly on a NaN and outside `[-2^31, 2^31)`, and
answers every other value with its integer part, toward zero (section 2 of 40_numerics.md). -/
def Obligations.TruncatesTowardZero : Prop :=
  (∀ v : F32, v.i32Trunc = .error .nan ↔ v = .nan) ∧
  (∀ v : F32, v.i32Trunc = .error .range ↔
    (∃ neg, v = .inf neg) ∨ (∃ u, v = .fin false u ∧ 2 ^ 31 * 2 ^ 149 ≤ u) ∨
      (∃ u, v = .fin true u ∧ 2 ^ 31 * 2 ^ 149 < u)) ∧
  ∀ (neg : Bool) (u : Nat), (neg = false → u < 2 ^ 31 * 2 ^ 149) → (neg = true → u ≤ 2 ^ 31 * 2 ^ 149) →
    ∃ n : Int, (F32.fin neg u).i32Trunc = .ok n ∧
      -(2 ^ 31) ≤ n ∧ n < 2 ^ 31 ∧ n.natAbs * 2 ^ 149 ≤ u ∧ u < (n.natAbs + 1) * 2 ^ 149 ∧
      (neg = true → n ≤ 0) ∧ (neg = false → 0 ≤ n)

/-- The clip-square (section 2 of 40_numerics.md): an error on a NaN only; `+0.0` below 0 and for both
zeros, `1.0` above 1, the product of the value with itself, rounded once, in between; the result is from
`+0.0` to `1.0`. -/
def Obligations.ClipSquareRange : Prop :=
  (∀ v : F32, v.csq = none ↔ v = .nan) ∧
  (F32.inf true).csq = some (.fin false 0) ∧ (F32.inf false).csq = some (.fin false (2 ^ 149)) ∧
  (∀ u, (F32.fin true u).csq = some (.fin false 0)) ∧
  (∀ u > 2 ^ 149, (F32.fin false u).csq = some (.fin false (2 ^ 149))) ∧
  (∀ u ≤ 2 ^ 149, ∃ r, (F32.fin false u).csq = some r ∧ F32.CorrectlyRounded false (u * u) r) ∧
  ∀ v r : F32, v.csq = some r → ∃ u, r = .fin false u ∧ u ≤ 2 ^ 149

/-- Every pattern but a NaN is the pattern of its value (section 2 of 40_numerics.md). -/
def Obligations.FloatPatternRoundTrip : Prop :=
  ∀ w : Word, (F32.unpack w).isNaN = false → (F32.unpack w).pack = w

/-! ### Invariants -/

/-- The invariant holds right after reset. -/
def Obligations.InvariantAtReset : Prop := State.reset.Inv

/-- Every step keeps the invariant (sections 5 and 8 of 10_state.md): the control situations, the count's
range, the table's contents while `LUT_VALID = 1`, the list's contents while `NNZ_FRESH = 1`, and the
memory's canonical form. -/
def Obligations.InvariantKeptByStep : Prop :=
  ∀ s t : State, s.Inv → step s = .next t → t.Inv

/-- From a state that meets the invariant the machine never stops: every step answers a next state. -/
def Obligations.StepNeverStops : Prop :=
  ∀ s : State, s.Inv → ∃ t, step s = .next t
end

