-- ==== Sys2Proof/Laws/State.lean ====
section
/-! SUPPORT. One lemma per field and update of the state: each is true by `rfl`, so that no proof
unfolds a record update. -/

namespace Sys2Proof.Machine

/-! ### setStatus -/

@[simp] theorem State.setStatus_status (s : State) (f : Status) : (s.setStatus f).status = f := rfl
@[simp] theorem State.setStatus_errinfo (s : State) (f : Status) : (s.setStatus f).errinfo = s.errinfo := rfl
@[simp] theorem State.setStatus_nnzCount (s : State) (f : Status) : (s.setStatus f).nnzCount = s.nnzCount := rfl
@[simp] theorem State.setStatus_score (s : State) (f : Status) : (s.setStatus f).score = s.score := rfl
@[simp] theorem State.setStatus_mem (s : State) (f : Status) : (s.setStatus f).mem = s.mem := rfl
@[simp] theorem State.setStatus_response (s : State) (f : Status) : (s.setStatus f).response = s.response := rfl
@[simp] theorem State.setStatus_inReset (s : State) (f : Status) : (s.setStatus f).inReset = s.inReset := rfl
@[simp] theorem State.setStatus_schedule (s : State) (f : Status) : (s.setStatus f).schedule = s.schedule := rfl
@[simp] theorem State.setStatus_epoch (s : State) (f : Status) : (s.setStatus f).epoch = s.epoch := rfl
@[simp] theorem State.setStatus_fresh (s : State) (f : Status) : (s.setStatus f).fresh = s.fresh := rfl

/-! ### setErrinfo -/

@[simp] theorem State.setErrinfo_status (s : State) (w : Word) : (s.setErrinfo w).status = s.status := rfl
@[simp] theorem State.setErrinfo_errinfo (s : State) (w : Word) : (s.setErrinfo w).errinfo = w := rfl
@[simp] theorem State.setErrinfo_nnzCount (s : State) (w : Word) : (s.setErrinfo w).nnzCount = s.nnzCount := rfl
@[simp] theorem State.setErrinfo_score (s : State) (w : Word) : (s.setErrinfo w).score = s.score := rfl
@[simp] theorem State.setErrinfo_mem (s : State) (w : Word) : (s.setErrinfo w).mem = s.mem := rfl
@[simp] theorem State.setErrinfo_response (s : State) (w : Word) : (s.setErrinfo w).response = s.response := rfl
@[simp] theorem State.setErrinfo_inReset (s : State) (w : Word) : (s.setErrinfo w).inReset = s.inReset := rfl
@[simp] theorem State.setErrinfo_schedule (s : State) (w : Word) : (s.setErrinfo w).schedule = s.schedule := rfl
@[simp] theorem State.setErrinfo_epoch (s : State) (w : Word) : (s.setErrinfo w).epoch = s.epoch := rfl
@[simp] theorem State.setErrinfo_fresh (s : State) (w : Word) : (s.setErrinfo w).fresh = s.fresh := rfl

/-! ### setCount -/

@[simp] theorem State.setCount_status (s : State) (w : Word) : (s.setCount w).status = s.status := rfl
@[simp] theorem State.setCount_errinfo (s : State) (w : Word) : (s.setCount w).errinfo = s.errinfo := rfl
@[simp] theorem State.setCount_nnzCount (s : State) (w : Word) : (s.setCount w).nnzCount = w := rfl
@[simp] theorem State.setCount_score (s : State) (w : Word) : (s.setCount w).score = s.score := rfl
@[simp] theorem State.setCount_mem (s : State) (w : Word) : (s.setCount w).mem = s.mem := rfl
@[simp] theorem State.setCount_response (s : State) (w : Word) : (s.setCount w).response = s.response := rfl
@[simp] theorem State.setCount_inReset (s : State) (w : Word) : (s.setCount w).inReset = s.inReset := rfl
@[simp] theorem State.setCount_schedule (s : State) (w : Word) : (s.setCount w).schedule = s.schedule := rfl
@[simp] theorem State.setCount_epoch (s : State) (w : Word) : (s.setCount w).epoch = s.epoch := rfl
@[simp] theorem State.setCount_fresh (s : State) (w : Word) : (s.setCount w).fresh = s.fresh := rfl

/-! ### setScore -/

@[simp] theorem State.setScore_status (s : State) (w : Word) : (s.setScore w).status = s.status := rfl
@[simp] theorem State.setScore_errinfo (s : State) (w : Word) : (s.setScore w).errinfo = s.errinfo := rfl
@[simp] theorem State.setScore_nnzCount (s : State) (w : Word) : (s.setScore w).nnzCount = s.nnzCount := rfl
@[simp] theorem State.setScore_score (s : State) (w : Word) : (s.setScore w).score = w := rfl
@[simp] theorem State.setScore_mem (s : State) (w : Word) : (s.setScore w).mem = s.mem := rfl
@[simp] theorem State.setScore_response (s : State) (w : Word) : (s.setScore w).response = s.response := rfl
@[simp] theorem State.setScore_inReset (s : State) (w : Word) : (s.setScore w).inReset = s.inReset := rfl
@[simp] theorem State.setScore_schedule (s : State) (w : Word) : (s.setScore w).schedule = s.schedule := rfl
@[simp] theorem State.setScore_epoch (s : State) (w : Word) : (s.setScore w).epoch = s.epoch := rfl
@[simp] theorem State.setScore_fresh (s : State) (w : Word) : (s.setScore w).fresh = s.fresh := rfl

/-! ### respond -/

@[simp] theorem State.respond_status (s : State) (r : Response) : (s.respond r).status = s.status := rfl
@[simp] theorem State.respond_errinfo (s : State) (r : Response) : (s.respond r).errinfo = s.errinfo := rfl
@[simp] theorem State.respond_nnzCount (s : State) (r : Response) : (s.respond r).nnzCount = s.nnzCount := rfl
@[simp] theorem State.respond_score (s : State) (r : Response) : (s.respond r).score = s.score := rfl
@[simp] theorem State.respond_mem (s : State) (r : Response) : (s.respond r).mem = s.mem := rfl
@[simp] theorem State.respond_response (s : State) (r : Response) : (s.respond r).response = some r := rfl
@[simp] theorem State.respond_inReset (s : State) (r : Response) : (s.respond r).inReset = s.inReset := rfl
@[simp] theorem State.respond_schedule (s : State) (r : Response) : (s.respond r).schedule = s.schedule := rfl
@[simp] theorem State.respond_epoch (s : State) (r : Response) : (s.respond r).epoch = s.epoch := rfl
@[simp] theorem State.respond_fresh (s : State) (r : Response) : (s.respond r).fresh = s.fresh := rfl

/-! ### writeBytes -/

@[simp] theorem State.writeBytes_status (s : State) (a : Nat) (vs : List Byte) : (s.writeBytes a vs).status = s.status := rfl
@[simp] theorem State.writeBytes_errinfo (s : State) (a : Nat) (vs : List Byte) : (s.writeBytes a vs).errinfo = s.errinfo := rfl
@[simp] theorem State.writeBytes_nnzCount (s : State) (a : Nat) (vs : List Byte) : (s.writeBytes a vs).nnzCount = s.nnzCount := rfl
@[simp] theorem State.writeBytes_score (s : State) (a : Nat) (vs : List Byte) : (s.writeBytes a vs).score = s.score := rfl
@[simp] theorem State.writeBytes_mem (s : State) (a : Nat) (vs : List Byte) : (s.writeBytes a vs).mem = s.mem.put a vs := rfl
@[simp] theorem State.writeBytes_response (s : State) (a : Nat) (vs : List Byte) : (s.writeBytes a vs).response = s.response := rfl
@[simp] theorem State.writeBytes_inReset (s : State) (a : Nat) (vs : List Byte) : (s.writeBytes a vs).inReset = s.inReset := rfl
@[simp] theorem State.writeBytes_schedule (s : State) (a : Nat) (vs : List Byte) : (s.writeBytes a vs).schedule = s.schedule := rfl
@[simp] theorem State.writeBytes_epoch (s : State) (a : Nat) (vs : List Byte) : (s.writeBytes a vs).epoch = s.epoch := rfl
@[simp] theorem State.writeBytes_fresh (s : State) (a : Nat) (vs : List Byte) : (s.writeBytes a vs).fresh = s.fresh := rfl

/-! ### nextDraw -/

@[simp] theorem State.nextDraw_status (s : State) : (s.nextDraw).status = s.status := rfl
@[simp] theorem State.nextDraw_errinfo (s : State) : (s.nextDraw).errinfo = s.errinfo := rfl
@[simp] theorem State.nextDraw_nnzCount (s : State) : (s.nextDraw).nnzCount = s.nnzCount := rfl
@[simp] theorem State.nextDraw_score (s : State) : (s.nextDraw).score = s.score := rfl
@[simp] theorem State.nextDraw_mem (s : State) : (s.nextDraw).mem = s.mem := rfl
@[simp] theorem State.nextDraw_response (s : State) : (s.nextDraw).response = s.response := rfl
@[simp] theorem State.nextDraw_inReset (s : State) : (s.nextDraw).inReset = s.inReset := rfl
@[simp] theorem State.nextDraw_schedule (s : State) : (s.nextDraw).schedule = s.schedule := rfl
@[simp] theorem State.nextDraw_epoch (s : State) : (s.nextDraw).epoch = s.epoch := rfl
@[simp] theorem State.nextDraw_fresh (s : State) : (s.nextDraw).fresh = s.fresh + 1 := rfl

/-! ### quiet -/

@[simp] theorem State.quiet_status (s : State) : (s.quiet).status = s.status := rfl
@[simp] theorem State.quiet_errinfo (s : State) : (s.quiet).errinfo = s.errinfo := rfl
@[simp] theorem State.quiet_nnzCount (s : State) : (s.quiet).nnzCount = s.nnzCount := rfl
@[simp] theorem State.quiet_score (s : State) : (s.quiet).score = s.score := rfl
@[simp] theorem State.quiet_mem (s : State) : (s.quiet).mem = s.mem := rfl
@[simp] theorem State.quiet_response (s : State) : (s.quiet).response = none := rfl
@[simp] theorem State.quiet_inReset (s : State) : (s.quiet).inReset = s.inReset := rfl
@[simp] theorem State.quiet_schedule (s : State) : (s.quiet).schedule = s.schedule := rfl
@[simp] theorem State.quiet_epoch (s : State) : (s.quiet).epoch = s.epoch := rfl
@[simp] theorem State.quiet_fresh (s : State) : (s.quiet).fresh = s.fresh := rfl

/-! ### dequeue -/

@[simp] theorem State.dequeue_status (s : State) : (s.dequeue).status = s.status := rfl
@[simp] theorem State.dequeue_errinfo (s : State) : (s.dequeue).errinfo = s.errinfo := rfl
@[simp] theorem State.dequeue_nnzCount (s : State) : (s.dequeue).nnzCount = s.nnzCount := rfl
@[simp] theorem State.dequeue_score (s : State) : (s.dequeue).score = s.score := rfl
@[simp] theorem State.dequeue_mem (s : State) : (s.dequeue).mem = s.mem := rfl
@[simp] theorem State.dequeue_response (s : State) : (s.dequeue).response = s.response := rfl
@[simp] theorem State.dequeue_inReset (s : State) : (s.dequeue).inReset = s.inReset := rfl
@[simp] theorem State.dequeue_schedule (s : State) : (s.dequeue).schedule = s.schedule.tail := rfl
@[simp] theorem State.dequeue_epoch (s : State) : (s.dequeue).epoch = s.epoch := rfl
@[simp] theorem State.dequeue_fresh (s : State) : (s.dequeue).fresh = s.fresh := rfl

/-! ### releaseReset -/

@[simp] theorem State.releaseReset_status (s : State) : (s.releaseReset).status = s.status := rfl
@[simp] theorem State.releaseReset_errinfo (s : State) : (s.releaseReset).errinfo = s.errinfo := rfl
@[simp] theorem State.releaseReset_nnzCount (s : State) : (s.releaseReset).nnzCount = s.nnzCount := rfl
@[simp] theorem State.releaseReset_score (s : State) : (s.releaseReset).score = s.score := rfl
@[simp] theorem State.releaseReset_mem (s : State) : (s.releaseReset).mem = s.mem := rfl
@[simp] theorem State.releaseReset_response (s : State) : (s.releaseReset).response = s.response := rfl
@[simp] theorem State.releaseReset_inReset (s : State) : (s.releaseReset).inReset = false := rfl
@[simp] theorem State.releaseReset_schedule (s : State) : (s.releaseReset).schedule = s.schedule := rfl
@[simp] theorem State.releaseReset_epoch (s : State) : (s.releaseReset).epoch = s.epoch := rfl
@[simp] theorem State.releaseReset_fresh (s : State) : (s.releaseReset).fresh = s.fresh := rfl

/-! ### writeHalves -/

@[simp] theorem State.writeHalves_status (s : State) (a : Nat) (hs : List Half) : (s.writeHalves a hs).status = s.status := rfl
@[simp] theorem State.writeHalves_errinfo (s : State) (a : Nat) (hs : List Half) : (s.writeHalves a hs).errinfo = s.errinfo := rfl
@[simp] theorem State.writeHalves_nnzCount (s : State) (a : Nat) (hs : List Half) : (s.writeHalves a hs).nnzCount = s.nnzCount := rfl
@[simp] theorem State.writeHalves_score (s : State) (a : Nat) (hs : List Half) : (s.writeHalves a hs).score = s.score := rfl
@[simp] theorem State.writeHalves_response (s : State) (a : Nat) (hs : List Half) : (s.writeHalves a hs).response = s.response := rfl
@[simp] theorem State.writeHalves_inReset (s : State) (a : Nat) (hs : List Half) : (s.writeHalves a hs).inReset = s.inReset := rfl
@[simp] theorem State.writeHalves_schedule (s : State) (a : Nat) (hs : List Half) : (s.writeHalves a hs).schedule = s.schedule := rfl
@[simp] theorem State.writeHalves_epoch (s : State) (a : Nat) (hs : List Half) : (s.writeHalves a hs).epoch = s.epoch := rfl
@[simp] theorem State.writeHalves_fresh (s : State) (a : Nat) (hs : List Half) : (s.writeHalves a hs).fresh = s.fresh := rfl

/-! ### writeWords -/

@[simp] theorem State.writeWords_status (s : State) (a : Nat) (ws : List Word) : (s.writeWords a ws).status = s.status := rfl
@[simp] theorem State.writeWords_errinfo (s : State) (a : Nat) (ws : List Word) : (s.writeWords a ws).errinfo = s.errinfo := rfl
@[simp] theorem State.writeWords_nnzCount (s : State) (a : Nat) (ws : List Word) : (s.writeWords a ws).nnzCount = s.nnzCount := rfl
@[simp] theorem State.writeWords_score (s : State) (a : Nat) (ws : List Word) : (s.writeWords a ws).score = s.score := rfl
@[simp] theorem State.writeWords_response (s : State) (a : Nat) (ws : List Word) : (s.writeWords a ws).response = s.response := rfl
@[simp] theorem State.writeWords_inReset (s : State) (a : Nat) (ws : List Word) : (s.writeWords a ws).inReset = s.inReset := rfl
@[simp] theorem State.writeWords_schedule (s : State) (a : Nat) (ws : List Word) : (s.writeWords a ws).schedule = s.schedule := rfl
@[simp] theorem State.writeWords_epoch (s : State) (a : Nat) (ws : List Word) : (s.writeWords a ws).epoch = s.epoch := rfl
@[simp] theorem State.writeWords_fresh (s : State) (a : Nat) (ws : List Word) : (s.writeWords a ws).fresh = s.fresh := rfl

/-! ### forget -/

@[simp] theorem State.forget_status (s : State) (r : Region) : (s.forget r).status = s.status := rfl
@[simp] theorem State.forget_errinfo (s : State) (r : Region) : (s.forget r).errinfo = s.errinfo := rfl
@[simp] theorem State.forget_nnzCount (s : State) (r : Region) : (s.forget r).nnzCount = s.nnzCount := rfl
@[simp] theorem State.forget_score (s : State) (r : Region) : (s.forget r).score = s.score := rfl
@[simp] theorem State.forget_response (s : State) (r : Region) : (s.forget r).response = s.response := rfl
@[simp] theorem State.forget_inReset (s : State) (r : Region) : (s.forget r).inReset = s.inReset := rfl
@[simp] theorem State.forget_schedule (s : State) (r : Region) : (s.forget r).schedule = s.schedule := rfl
@[simp] theorem State.forget_epoch (s : State) (r : Region) : (s.forget r).epoch = s.epoch := rfl
@[simp] theorem State.forget_fresh (s : State) (r : Region) : (s.forget r).fresh = s.fresh := rfl

/-! ### raise -/

@[simp] theorem State.raise_status (s : State) (k : ErrorKind) (w : Word) : (s.raise k w).status = s.status.raised k := rfl
@[simp] theorem State.raise_errinfo (s : State) (k : ErrorKind) (w : Word) : (s.raise k w).errinfo = w := rfl
@[simp] theorem State.raise_nnzCount (s : State) (k : ErrorKind) (w : Word) : (s.raise k w).nnzCount = s.nnzCount := rfl
@[simp] theorem State.raise_score (s : State) (k : ErrorKind) (w : Word) : (s.raise k w).score = s.score := rfl
@[simp] theorem State.raise_mem (s : State) (k : ErrorKind) (w : Word) : (s.raise k w).mem = s.mem := rfl
@[simp] theorem State.raise_response (s : State) (k : ErrorKind) (w : Word) : (s.raise k w).response = s.response := rfl
@[simp] theorem State.raise_inReset (s : State) (k : ErrorKind) (w : Word) : (s.raise k w).inReset = s.inReset := rfl
@[simp] theorem State.raise_schedule (s : State) (k : ErrorKind) (w : Word) : (s.raise k w).schedule = s.schedule := rfl
@[simp] theorem State.raise_epoch (s : State) (k : ErrorKind) (w : Word) : (s.raise k w).epoch = s.epoch := rfl
@[simp] theorem State.raise_fresh (s : State) (k : ErrorKind) (w : Word) : (s.raise k w).fresh = s.fresh := rfl

/-! ### clearError -/

@[simp] theorem State.clearError_status (s : State) : (s.clearError).status = s.status.errorCleared := rfl
@[simp] theorem State.clearError_errinfo (s : State) : (s.clearError).errinfo = 0#32 := rfl
@[simp] theorem State.clearError_nnzCount (s : State) : (s.clearError).nnzCount = s.nnzCount := rfl
@[simp] theorem State.clearError_score (s : State) : (s.clearError).score = s.score := rfl
@[simp] theorem State.clearError_mem (s : State) : (s.clearError).mem = s.mem := rfl
@[simp] theorem State.clearError_response (s : State) : (s.clearError).response = s.response := rfl
@[simp] theorem State.clearError_inReset (s : State) : (s.clearError).inReset = s.inReset := rfl
@[simp] theorem State.clearError_schedule (s : State) : (s.clearError).schedule = s.schedule := rfl
@[simp] theorem State.clearError_epoch (s : State) : (s.clearError).epoch = s.epoch := rfl
@[simp] theorem State.clearError_fresh (s : State) : (s.clearError).fresh = s.fresh := rfl

/-! ### complete -/

@[simp] theorem State.complete_status (s : State) : (s.complete).status = s.status.completed := rfl
@[simp] theorem State.complete_errinfo (s : State) : (s.complete).errinfo = s.errinfo := rfl
@[simp] theorem State.complete_nnzCount (s : State) : (s.complete).nnzCount = s.nnzCount := rfl
@[simp] theorem State.complete_score (s : State) : (s.complete).score = s.score := rfl
@[simp] theorem State.complete_mem (s : State) : (s.complete).mem = s.mem := rfl
@[simp] theorem State.complete_response (s : State) : (s.complete).response = s.response := rfl
@[simp] theorem State.complete_inReset (s : State) : (s.complete).inReset = s.inReset := rfl
@[simp] theorem State.complete_schedule (s : State) : (s.complete).schedule = s.schedule := rfl
@[simp] theorem State.complete_epoch (s : State) : (s.complete).epoch = s.epoch := rfl
@[simp] theorem State.complete_fresh (s : State) : (s.complete).fresh = s.fresh := rfl

/-! ### start -/

@[simp] theorem State.start_status (s : State) (i : Instr) : (s.start i).status = s.status.accepted (curOf i) := rfl
@[simp] theorem State.start_errinfo (s : State) (i : Instr) : (s.start i).errinfo = s.errinfo := rfl
@[simp] theorem State.start_nnzCount (s : State) (i : Instr) : (s.start i).nnzCount = s.nnzCount := rfl
@[simp] theorem State.start_score (s : State) (i : Instr) : (s.start i).score = s.score := rfl
@[simp] theorem State.start_mem (s : State) (i : Instr) : (s.start i).mem = s.mem := rfl
@[simp] theorem State.start_response (s : State) (i : Instr) : (s.start i).response = s.response := rfl
@[simp] theorem State.start_inReset (s : State) (i : Instr) : (s.start i).inReset = s.inReset := rfl
@[simp] theorem State.start_schedule (s : State) (i : Instr) : (s.start i).schedule = s.schedule := rfl
@[simp] theorem State.start_epoch (s : State) (i : Instr) : (s.start i).epoch = s.epoch := rfl
@[simp] theorem State.start_fresh (s : State) (i : Instr) : (s.start i).fresh = s.fresh := rfl

/-! ### setFresh -/

@[simp] theorem State.setFresh_status (s : State) (b : Bool) : (s.setFresh b).status = s.status.withFresh b := rfl
@[simp] theorem State.setFresh_errinfo (s : State) (b : Bool) : (s.setFresh b).errinfo = s.errinfo := rfl
@[simp] theorem State.setFresh_nnzCount (s : State) (b : Bool) : (s.setFresh b).nnzCount = s.nnzCount := rfl
@[simp] theorem State.setFresh_score (s : State) (b : Bool) : (s.setFresh b).score = s.score := rfl
@[simp] theorem State.setFresh_mem (s : State) (b : Bool) : (s.setFresh b).mem = s.mem := rfl
@[simp] theorem State.setFresh_response (s : State) (b : Bool) : (s.setFresh b).response = s.response := rfl
@[simp] theorem State.setFresh_inReset (s : State) (b : Bool) : (s.setFresh b).inReset = s.inReset := rfl
@[simp] theorem State.setFresh_schedule (s : State) (b : Bool) : (s.setFresh b).schedule = s.schedule := rfl
@[simp] theorem State.setFresh_epoch (s : State) (b : Bool) : (s.setFresh b).epoch = s.epoch := rfl
@[simp] theorem State.setFresh_fresh (s : State) (b : Bool) : (s.setFresh b).fresh = s.fresh := rfl

/-! ### Status.accepted -/

@[simp] theorem Status.accepted_busy (f : Status) (c : BitVec 4) : (f.accepted c).busy = true := rfl
@[simp] theorem Status.accepted_done (f : Status) (c : BitVec 4) : (f.accepted c).done = false := rfl
@[simp] theorem Status.accepted_err (f : Status) (c : BitVec 4) : (f.accepted c).err = f.err := rfl
@[simp] theorem Status.accepted_lutValid (f : Status) (c : BitVec 4) : (f.accepted c).lutValid = f.lutValid := rfl
@[simp] theorem Status.accepted_nnzFresh (f : Status) (c : BitVec 4) : (f.accepted c).nnzFresh = f.nnzFresh := rfl
@[simp] theorem Status.accepted_errcode (f : Status) (c : BitVec 4) : (f.accepted c).errcode = f.errcode := rfl
@[simp] theorem Status.accepted_cur (f : Status) (c : BitVec 4) : (f.accepted c).cur = c := rfl

/-! ### Status.completed -/

@[simp] theorem Status.completed_busy (f : Status) : (f.completed).busy = false := rfl
@[simp] theorem Status.completed_done (f : Status) : (f.completed).done = true := rfl
@[simp] theorem Status.completed_err (f : Status) : (f.completed).err = f.err := rfl
@[simp] theorem Status.completed_lutValid (f : Status) : (f.completed).lutValid = f.lutValid := rfl
@[simp] theorem Status.completed_nnzFresh (f : Status) : (f.completed).nnzFresh = f.nnzFresh := rfl
@[simp] theorem Status.completed_errcode (f : Status) : (f.completed).errcode = f.errcode := rfl
@[simp] theorem Status.completed_cur (f : Status) : (f.completed).cur = f.cur := rfl

/-! ### Status.raised -/

@[simp] theorem Status.raised_busy (f : Status) (k : ErrorKind) : (f.raised k).busy = false := rfl
@[simp] theorem Status.raised_done (f : Status) (k : ErrorKind) : (f.raised k).done = false := rfl
@[simp] theorem Status.raised_err (f : Status) (k : ErrorKind) : (f.raised k).err = true := rfl
@[simp] theorem Status.raised_lutValid (f : Status) (k : ErrorKind) : (f.raised k).lutValid = f.lutValid := rfl
@[simp] theorem Status.raised_nnzFresh (f : Status) (k : ErrorKind) : (f.raised k).nnzFresh = f.nnzFresh := rfl
@[simp] theorem Status.raised_errcode (f : Status) (k : ErrorKind) : (f.raised k).errcode = k.code := rfl
@[simp] theorem Status.raised_cur (f : Status) (k : ErrorKind) : (f.raised k).cur = f.cur := rfl

/-! ### Status.errorCleared -/

@[simp] theorem Status.errorCleared_busy (f : Status) : (f.errorCleared).busy = f.busy := rfl
@[simp] theorem Status.errorCleared_done (f : Status) : (f.errorCleared).done = f.done := rfl
@[simp] theorem Status.errorCleared_err (f : Status) : (f.errorCleared).err = false := rfl
@[simp] theorem Status.errorCleared_lutValid (f : Status) : (f.errorCleared).lutValid = f.lutValid := rfl
@[simp] theorem Status.errorCleared_nnzFresh (f : Status) : (f.errorCleared).nnzFresh = f.nnzFresh := rfl
@[simp] theorem Status.errorCleared_errcode (f : Status) : (f.errorCleared).errcode = 0#4 := rfl
@[simp] theorem Status.errorCleared_cur (f : Status) : (f.errorCleared).cur = f.cur := rfl

/-! ### Status.withLutValid -/

@[simp] theorem Status.withLutValid_busy (f : Status) : (f.withLutValid).busy = f.busy := rfl
@[simp] theorem Status.withLutValid_done (f : Status) : (f.withLutValid).done = f.done := rfl
@[simp] theorem Status.withLutValid_err (f : Status) : (f.withLutValid).err = f.err := rfl
@[simp] theorem Status.withLutValid_lutValid (f : Status) : (f.withLutValid).lutValid = true := rfl
@[simp] theorem Status.withLutValid_nnzFresh (f : Status) : (f.withLutValid).nnzFresh = f.nnzFresh := rfl
@[simp] theorem Status.withLutValid_errcode (f : Status) : (f.withLutValid).errcode = f.errcode := rfl
@[simp] theorem Status.withLutValid_cur (f : Status) : (f.withLutValid).cur = f.cur := rfl

/-! ### Status.withFresh -/

@[simp] theorem Status.withFresh_busy (f : Status) (b : Bool) : (f.withFresh b).busy = f.busy := rfl
@[simp] theorem Status.withFresh_done (f : Status) (b : Bool) : (f.withFresh b).done = f.done := rfl
@[simp] theorem Status.withFresh_err (f : Status) (b : Bool) : (f.withFresh b).err = f.err := rfl
@[simp] theorem Status.withFresh_lutValid (f : Status) (b : Bool) : (f.withFresh b).lutValid = f.lutValid := rfl
@[simp] theorem Status.withFresh_nnzFresh (f : Status) (b : Bool) : (f.withFresh b).nnzFresh = b := rfl
@[simp] theorem Status.withFresh_errcode (f : Status) (b : Bool) : (f.withFresh b).errcode = f.errcode := rfl
@[simp] theorem Status.withFresh_cur (f : Status) (b : Bool) : (f.withFresh b).cur = f.cur := rfl

/-! ### Several buffers forgotten -/

theorem foldl_forget_field {α : Type} (f : State → α) (hf : ∀ s r, f (State.forget s r) = f s)
    (rs : List Region) (s : State) : f (rs.foldl State.forget s) = f s := by
  induction rs generalizing s with
  | nil => rfl
  | cons r rs ih => rw [List.foldl_cons, ih, hf]

@[simp] theorem State.forgetAll_status (s : State) (rs : List Region) : (s.forgetAll rs).status = s.status :=
  foldl_forget_field State.status (fun _ _ => rfl) rs s
@[simp] theorem State.forgetAll_errinfo (s : State) (rs : List Region) : (s.forgetAll rs).errinfo = s.errinfo :=
  foldl_forget_field State.errinfo (fun _ _ => rfl) rs s
@[simp] theorem State.forgetAll_nnzCount (s : State) (rs : List Region) : (s.forgetAll rs).nnzCount = s.nnzCount :=
  foldl_forget_field State.nnzCount (fun _ _ => rfl) rs s
@[simp] theorem State.forgetAll_score (s : State) (rs : List Region) : (s.forgetAll rs).score = s.score :=
  foldl_forget_field State.score (fun _ _ => rfl) rs s
@[simp] theorem State.forgetAll_response (s : State) (rs : List Region) : (s.forgetAll rs).response = s.response :=
  foldl_forget_field State.response (fun _ _ => rfl) rs s
@[simp] theorem State.forgetAll_inReset (s : State) (rs : List Region) : (s.forgetAll rs).inReset = s.inReset :=
  foldl_forget_field State.inReset (fun _ _ => rfl) rs s
@[simp] theorem State.forgetAll_schedule (s : State) (rs : List Region) : (s.forgetAll rs).schedule = s.schedule :=
  foldl_forget_field State.schedule (fun _ _ => rfl) rs s
@[simp] theorem State.forgetAll_epoch (s : State) (rs : List Region) : (s.forgetAll rs).epoch = s.epoch :=
  foldl_forget_field State.epoch (fun _ _ => rfl) rs s
@[simp] theorem State.forgetAll_fresh (s : State) (rs : List Region) : (s.forgetAll rs).fresh = s.fresh + 1 :=
  congrArg (· + 1) (foldl_forget_field State.fresh (fun _ _ => rfl) rs s)

end Sys2Proof.Machine
end

