-- ==== Sys2Proof/Laws/Float.lean ====
section
/-! SUPPORT. The laws of the binary32 operations: a NaN operand gives a NaN, and finite operands never
do. -/

namespace Sys2Proof.Machine

@[simp] theorem F32.add_nan (a : F32) : F32.add a .nan = .nan := by cases a <;> rfl
@[simp] theorem F32.nan_add (a : F32) : F32.add .nan a = .nan := by cases a <;> rfl
@[simp] theorem F32.mul_nan (a : F32) : F32.mul a .nan = .nan := by cases a <;> rfl
@[simp] theorem F32.nan_mul (a : F32) : F32.mul .nan a = .nan := by cases a <;> rfl

@[simp] theorem F32.fma_nan (a b : F32) : F32.fma a b .nan = .nan := by
  cases a <;> cases b <;> first | rfl | exact F32.add_nan _

@[simp] theorem F32.nan_fma (b c : F32) : F32.fma .nan b c = .nan := by
  show F32.add (F32.mul .nan b) c = .nan
  simp

@[simp] theorem F32.clip01_nan : F32.clip01 .nan = none := rfl

/-- The clip answers unless its operand is a NaN (R130). -/
theorem F32.clip01_eq_none_iff (v : F32) : v.clip01 = none ↔ v = .nan := by
  cases v with
  | nan => simp
  | inf neg => simp [F32.clip01]
  | fin neg u => simp only [F32.clip01, reduceCtorEq, iff_false]; split <;> simp

/-- Rounding never gives a NaN (R128). -/
theorem F32.isNaN_round (neg : Bool) (x : Nat) : (F32.round neg x).isNaN = false := by
  simp only [F32.round]
  split <;> rfl

theorem F32.isNaN_ofExact (z : Int) (neg : Bool) : (F32.ofExact z neg).isNaN = false := by
  unfold F32.ofExact
  split
  · rfl
  · exact F32.isNaN_round _ _

theorem F32.isNaN_ofInt (n : Int) : (F32.ofInt n).isNaN = false := F32.isNaN_ofExact _ _

/-- A fused multiply-add of finite factors is a NaN only where the addend is (R128, R234). -/
theorem F32.isNaN_fma_fin (s t : Bool) (x y : Nat) (c : F32) :
    (F32.fma (.fin s x) (.fin t y) c).isNaN = c.isNaN := by
  cases c with
  | nan => rfl
  | inf n => rfl
  | fin n z => exact F32.isNaN_ofExact _ _

/-- A finite addend makes a sum a NaN only where the other operand is. -/
theorem F32.isNaN_add_fin (s : Bool) (x : Nat) (b : F32) : (F32.add (.fin s x) b).isNaN = b.isNaN := by
  cases b with
  | nan => rfl
  | inf n => rfl
  | fin n z => exact F32.isNaN_ofExact _ _

end Sys2Proof.Machine
end

