-- ==== Sys2Proof/Laws/Map.lean ====
section
/-! SUPPORT. The map of the host space: the ranges are disjoint, and what lies between them is
reserved. -/

namespace Sys2Proof.Machine

theorem Region.mem_all (r : Region) : r ∈ Region.all := by cases r <;> decide

/-- Two ranges that share an address are the same range (R67). -/
theorem Region.disjoint {r q : Region} {a : Nat} (hr : r.contains a = true) (hq : q.contains a = true) :
    r = q := by
  have key : ∀ r ∈ Region.all, ∀ q ∈ Region.all,
      r = q ∨ r.base + r.bytes ≤ q.base ∨ q.base + q.bytes ≤ r.base := by decide
  simp only [Region.contains, Bool.and_eq_true, decide_eq_true_eq] at hr hq
  rcases key r r.mem_all q q.mem_all with h | h | h
  · exact h
  · omega
  · omega

/-- The range of an address is the one that holds it. -/
theorem regionOf_eq_some_iff {a : Nat} {r : Region} : regionOf a = some r ↔ r.contains a = true := by
  constructor
  · intro h
    rw [regionOf] at h
    simpa using List.find?_some h
  · intro h
    cases hf : regionOf a with
    | none => exact absurd h (by simpa using List.find?_eq_none.1 hf r r.mem_all)
    | some q =>
      rw [regionOf] at hf
      exact congrArg some (Region.disjoint (by simpa using List.find?_some hf) h)

/-- A reserved address lies in no range (R67). -/
theorem regionOf_eq_none_iff {a : Nat} : regionOf a = none ↔ ∀ r : Region, r.contains a = false := by
  refine ⟨fun h r => by simpa using List.find?_eq_none.1 h r r.mem_all, fun h => ?_⟩
  exact List.find?_eq_none.2 fun r _ => by simp [h r]

/-- An address of a data buffer. -/
theorem isBufferAddr_of_contains {a : Nat} {r : Region} (h : r.contains a = true)
    (hc : r.isControl = false) : isBufferAddr a = true := by
  simp [isBufferAddr, regionOf_eq_some_iff.2 h, hc]

end Sys2Proof.Machine
end

