-- ==== Sys2Proof/Laws/Memory.lean ====
section
/-! SUPPORT. The laws of the stored bytes: a read after a write to the same place gives the value
written, a write leaves every other place alone, and every operation keeps the canonical form. -/

namespace Sys2Proof.Machine

/-! ### Lists of cells -/

theorem Memory.get_append (m n : Memory) (a : Nat) :
    Memory.get (m ++ n) a = (m.get a).or (n.get a) := by
  induction m with
  | nil => simp [Memory.get]
  | cons c m ih => simp only [List.cons_append, Memory.get]; split <;> simp [ih]

theorem Memory.get_filter (p : Nat → Bool) (m : Memory) (a : Nat) :
    Memory.get (m.filter fun c => p c.1) a = if p a then m.get a else none := by
  induction m with
  | nil => simp [Memory.get]
  | cons c m ih =>
    by_cases hc : p c.1 <;> by_cases ha : c.1 = a <;> simp_all [Memory.get]

theorem get_cellsFrom (vs : List Byte) (a b : Nat) :
    Memory.get (cellsFrom a vs) b = if a ≤ b then vs[b - a]? else none := by
  induction vs generalizing a with
  | nil => simp [cellsFrom, Memory.get]
  | cons v vs ih =>
    simp only [cellsFrom, Memory.get, ih]
    rcases Nat.lt_trichotomy a b with h | h | h
    · rw [if_neg (by omega), if_pos (by omega), if_pos (by omega), show b - a = (b - (a + 1)) + 1 by omega,
        List.getElem?_cons_succ]
    · subst h; simp
    · rw [if_neg (by omega), if_neg (by omega), if_neg (by omega)]

theorem mem_cellsFrom {vs : List Byte} {a : Nat} {c : Host.Cell} (h : c ∈ cellsFrom a vs) :
    a ≤ c.1 ∧ c.1 < a + vs.length := by
  induction vs generalizing a with
  | nil => simp [cellsFrom] at h
  | cons v vs ih =>
    rcases List.mem_cons.1 h with rfl | h
    · simp
    · have := ih h; simp only [List.length_cons]; omega

theorem pairwise_cellsFrom (vs : List Byte) (a : Nat) :
    (cellsFrom a vs).Pairwise fun p q => p.1 < q.1 := by
  induction vs generalizing a with
  | nil => exact List.Pairwise.nil
  | cons v vs ih =>
    refine List.Pairwise.cons (fun c hc => ?_) (ih _)
    have := mem_cellsFrom hc
    show a < c.1
    omega

/-- Where a written byte is read, and that every other address keeps its byte. -/
theorem Memory.get_put (m : Memory) (a : Nat) (vs : List Byte) (b : Nat) :
    Memory.get (m.put a vs) b = if a ≤ b ∧ b < a + vs.length then vs[b - a]? else m.get b := by
  rw [Memory.put, Memory.get_append, Memory.get_append, get_cellsFrom,
    Memory.get_filter (fun x => decide (x < a)), Memory.get_filter (fun x => decide (a + vs.length ≤ x))]
  rcases Nat.lt_or_ge b a with h | h
  · rw [if_pos (by simpa using h), if_neg (by omega), if_neg (by simp; omega), if_neg (by omega)]
    simp
  · rcases Nat.lt_or_ge b (a + vs.length) with h' | h'
    · rw [if_neg (by simpa using h), if_pos h, if_neg (by simpa using h'), if_pos ⟨h, h'⟩]
      simp
    · rw [if_neg (by simpa using h), if_pos h, if_pos (by simpa using h'), if_neg (by omega),
        List.getElem?_eq_none (by omega)]
      simp

/-- A write keeps the canonical form. -/
theorem Memory.wf_put {m : Memory} (h : Memory.wf m) (a : Nat) (vs : List Byte) :
    Memory.wf (m.put a vs) := by
  unfold Memory.put
  refine List.pairwise_append.2 ⟨List.pairwise_append.2 ⟨h.filter _, pairwise_cellsFrom vs a, ?_⟩,
    h.filter _, ?_⟩
  · intro p hp q hq
    have h1 : p.1 < a := by simpa using (List.mem_filter.1 hp).2
    have h2 := mem_cellsFrom hq
    omega
  · intro p hp q hq
    have h2 : a + vs.length ≤ q.1 := by simpa using (List.mem_filter.1 hq).2
    rcases List.mem_append.1 hp with hp | hp
    · have h1 : p.1 < a := by simpa using (List.mem_filter.1 hp).2
      omega
    · have h1 := mem_cellsFrom hp
      omega

/-- A listed cell after a write is an old one or one of those written. -/
theorem Memory.mem_put {m : Memory} {a : Nat} {vs : List Byte} {c : Host.Cell} (h : c ∈ m.put a vs) :
    c ∈ m ∨ (a ≤ c.1 ∧ c.1 < a + vs.length) := by
  rcases List.mem_append.1 h with h | h
  · rcases List.mem_append.1 h with h | h
    · exact .inl (List.mem_filter.1 h).1
    · exact .inr (mem_cellsFrom h)
  · exact .inl (List.mem_filter.1 h).1

/-! ### Bytes of a state -/

/-- Reading depends on the stored bytes and the epoch only. -/
theorem State.byteAt_congr {s t : State} (hm : t.mem = s.mem) (he : t.epoch = s.epoch) (a : Nat) :
    t.byteAt a = s.byteAt a := by simp only [State.byteAt, hm, he]

theorem State.byteAt_writeBytes (s : State) (a : Nat) (vs : List Byte) (b : Nat) :
    (s.writeBytes a vs).byteAt b =
      if h : a ≤ b ∧ b < a + vs.length then vs[b - a]'(by omega) else s.byteAt b := by
  by_cases h : a ≤ b ∧ b < a + vs.length
  · rw [dif_pos h, State.byteAt, State.writeBytes_mem, Memory.get_put, if_pos h,
      List.getElem?_eq_getElem (by omega)]
  · rw [dif_neg h, State.byteAt, State.writeBytes_mem, Memory.get_put, if_neg h]
    rfl

/-- A byte written is read back. -/
theorem State.byteAt_writeBytes_in (s : State) (a : Nat) (vs : List Byte) (k : Nat)
    (h : k < vs.length) : (s.writeBytes a vs).byteAt (a + k) = vs[k] := by
  rw [State.byteAt_writeBytes, dif_pos ⟨by omega, by omega⟩]
  simp

/-- Every byte outside those written is unchanged. -/
theorem State.byteAt_writeBytes_out (s : State) (a : Nat) (vs : List Byte) (b : Nat)
    (h : b < a ∨ a + vs.length ≤ b) : (s.writeBytes a vs).byteAt b = s.byteAt b := by
  rw [State.byteAt_writeBytes, dif_neg (by omega)]

/-! ### Halves and words -/

@[simp] theorem length_bytesOfHalf (h : Half) : (bytesOfHalf h).length = 2 := rfl
@[simp] theorem length_bytesOfWord (w : Word) : (bytesOfWord w).length = 4 := rfl

@[simp] theorem length_flatMap_bytesOfHalf (hs : List Half) :
    (hs.flatMap bytesOfHalf).length = 2 * hs.length := by
  induction hs with
  | nil => rfl
  | cons h hs ih => simp [List.flatMap_cons, ih]; omega

@[simp] theorem length_flatMap_bytesOfWord (ws : List Word) :
    (ws.flatMap bytesOfWord).length = 4 * ws.length := by
  induction ws with
  | nil => rfl
  | cons w ws ih => simp [List.flatMap_cons, ih]; omega

/-- The bytes of a list of 16-bit values: byte `k` of value `e` stands at `2·e + k`. -/
theorem getElem?_flatMap_half (hs : List Half) (e k : Nat) (hk : k < 2) :
    (hs.flatMap bytesOfHalf)[2 * e + k]? = (hs[e]?).bind fun h => (bytesOfHalf h)[k]? := by
  induction hs generalizing e with
  | nil => simp
  | cons h hs ih =>
    rw [List.flatMap_cons]
    cases e with
    | zero => rw [List.getElem?_append_left (by simpa using hk)]; simp
    | succ e =>
      rw [List.getElem?_append_right (by simp; omega), length_bytesOfHalf,
        show 2 * (e + 1) + k - 2 = 2 * e + k by omega, ih]
      simp

/-- The bytes of a list of words: byte `k` of word `e` stands at `4·e + k`. -/
theorem getElem?_flatMap_word (ws : List Word) (e k : Nat) (hk : k < 4) :
    (ws.flatMap bytesOfWord)[4 * e + k]? = (ws[e]?).bind fun w => (bytesOfWord w)[k]? := by
  induction ws generalizing e with
  | nil => simp
  | cons w ws ih =>
    rw [List.flatMap_cons]
    cases e with
    | zero => rw [List.getElem?_append_left (by simpa using hk)]; simp
    | succ e =>
      rw [List.getElem?_append_right (by simp; omega), length_bytesOfWord,
        show 4 * (e + 1) + k - 4 = 4 * e + k by omega, ih]
      simp

theorem append_bytesOfHalf (h : Half) : h.extractLsb' 8 8 ++ h.extractLsb' 0 8 = h := by
  apply BitVec.eq_of_getLsbD_eq
  intro i hi
  rw [BitVec.getLsbD_append]
  split
  · simp [*]
  · simp only [BitVec.getLsbD_extractLsb']
    rw [show 8 + (i - 8) = i by omega]
    simp; omega

theorem wordOfBytes_bytesOfWord (w : Word) :
    wordOfBytes (w.extractLsb' 0 8) (w.extractLsb' 8 8) (w.extractLsb' 16 8) (w.extractLsb' 24 8) = w := by
  unfold wordOfBytes
  apply BitVec.eq_of_getLsbD_eq
  intro i hi
  simp only [BitVec.getLsbD_append, BitVec.getLsbD_extractLsb']
  rcases Nat.lt_or_ge i 8 with h | h
  · simp [h]
  rcases Nat.lt_or_ge i 16 with h' | h'
  · rw [if_neg (by omega), if_pos (by omega), show 8 + (i - 8) = i by omega]; simp; omega
  rcases Nat.lt_or_ge i 24 with h'' | h''
  · rw [if_neg (by omega), if_neg (by omega), if_pos (by omega),
      show 16 + (i - 8 - 8) = i by omega]; simp; omega
  · rw [if_neg (by omega), if_neg (by omega), if_neg (by omega),
      show 24 + (i - 8 - 8 - 8) = i by omega]; simp; omega

theorem State.byteAt_writeHalves (s : State) (a : Nat) (hs : List Half) (e k : Nat)
    (he : e < hs.length) (hk : k < 2) :
    (s.writeHalves a hs).byteAt (a + (2 * e + k)) = (bytesOfHalf hs[e])[k]'(by simpa using hk) := by
  have hlt : 2 * e + k < (hs.flatMap bytesOfHalf).length := by simp; omega
  rw [State.writeHalves, State.byteAt_writeBytes_in _ _ _ _ hlt, ← Option.some_inj,
    ← List.getElem?_eq_getElem, getElem?_flatMap_half _ _ _ hk, List.getElem?_eq_getElem he]
  simp

theorem State.byteAt_writeWords (s : State) (a : Nat) (ws : List Word) (e k : Nat)
    (he : e < ws.length) (hk : k < 4) :
    (s.writeWords a ws).byteAt (a + (4 * e + k)) = (bytesOfWord ws[e])[k]'(by simpa using hk) := by
  have hlt : 4 * e + k < (ws.flatMap bytesOfWord).length := by simp; omega
  rw [State.writeWords, State.byteAt_writeBytes_in _ _ _ _ hlt, ← Option.some_inj,
    ← List.getElem?_eq_getElem, getElem?_flatMap_word _ _ _ hk, List.getElem?_eq_getElem he]
  simp

/-- A 16-bit element written is read back. -/
theorem State.read16_writeHalves (s : State) (a : Nat) (hs : List Half) (e : Nat)
    (he : e < hs.length) : (s.writeHalves a hs).read16 (a + 2 * e) = hs[e] := by
  have h0 := s.byteAt_writeHalves a hs e 0 he (by omega)
  have h1 := s.byteAt_writeHalves a hs e 1 he (by omega)
  rw [Nat.add_zero] at h0
  rw [State.read16, h0, Nat.add_assoc, h1]
  exact append_bytesOfHalf _

/-- A 32-bit element written is read back. -/
theorem State.read32_writeWords (s : State) (a : Nat) (ws : List Word) (e : Nat)
    (he : e < ws.length) : (s.writeWords a ws).read32 (a + 4 * e) = ws[e] := by
  have h0 := s.byteAt_writeWords a ws e 0 he (by omega)
  have h1 := s.byteAt_writeWords a ws e 1 he (by omega)
  have h2 := s.byteAt_writeWords a ws e 2 he (by omega)
  have h3 := s.byteAt_writeWords a ws e 3 he (by omega)
  rw [Nat.add_zero] at h0
  rw [State.read32, h0, Nat.add_assoc, Nat.add_assoc, Nat.add_assoc, h1, h2, h3]
  exact wordOfBytes_bytesOfWord _

theorem State.byteAt_writeHalves_out (s : State) (a : Nat) (hs : List Half) (b : Nat)
    (h : b < a ∨ a + 2 * hs.length ≤ b) : (s.writeHalves a hs).byteAt b = s.byteAt b :=
  s.byteAt_writeBytes_out a _ b (by rwa [length_flatMap_bytesOfHalf])

theorem State.byteAt_writeWords_out (s : State) (a : Nat) (ws : List Word) (b : Nat)
    (h : b < a ∨ a + 4 * ws.length ≤ b) : (s.writeWords a ws).byteAt b = s.byteAt b :=
  s.byteAt_writeBytes_out a _ b (by rwa [length_flatMap_bytesOfWord])

/-- A 16-bit read depends on its two bytes only. -/
theorem State.read16_congr {s t : State} {a : Nat} (h : ∀ k < 2, t.byteAt (a + k) = s.byteAt (a + k)) :
    t.read16 a = s.read16 a := by
  have h0 := h 0 (by omega)
  rw [Nat.add_zero] at h0
  rw [State.read16, State.read16, h0, h 1 (by omega)]

/-- A 32-bit read depends on its four bytes only. -/
theorem State.read32_congr {s t : State} {a : Nat} (h : ∀ k < 4, t.byteAt (a + k) = s.byteAt (a + k)) :
    t.read32 a = s.read32 a := by
  have h0 := h 0 (by omega)
  rw [Nat.add_zero] at h0
  rw [State.read32, State.read32, h0, h 1 (by omega), h 2 (by omega), h 3 (by omega)]

/-! ### Updates that store nothing -/

@[simp] theorem State.byteAt_setStatus (s : State) (f : Status) (a : Nat) : (s.setStatus f).byteAt a = s.byteAt a := rfl
@[simp] theorem State.byteAt_setErrinfo (s : State) (w : Word) (a : Nat) : (s.setErrinfo w).byteAt a = s.byteAt a := rfl
@[simp] theorem State.byteAt_setCount (s : State) (w : Word) (a : Nat) : (s.setCount w).byteAt a = s.byteAt a := rfl
@[simp] theorem State.byteAt_setScore (s : State) (w : Word) (a : Nat) : (s.setScore w).byteAt a = s.byteAt a := rfl
@[simp] theorem State.byteAt_respond (s : State) (r : Response) (a : Nat) : (s.respond r).byteAt a = s.byteAt a := rfl
@[simp] theorem State.byteAt_nextDraw (s : State) (a : Nat) : s.nextDraw.byteAt a = s.byteAt a := rfl
@[simp] theorem State.byteAt_setFresh (s : State) (b : Bool) (a : Nat) : (s.setFresh b).byteAt a = s.byteAt a := rfl
@[simp] theorem State.byteAt_raise (s : State) (k : ErrorKind) (w : Word) (a : Nat) : (s.raise k w).byteAt a = s.byteAt a := rfl
@[simp] theorem State.byteAt_clearError (s : State) (a : Nat) : s.clearError.byteAt a = s.byteAt a := rfl
@[simp] theorem State.byteAt_complete (s : State) (a : Nat) : s.complete.byteAt a = s.byteAt a := rfl
@[simp] theorem State.byteAt_start (s : State) (i : Instr) (a : Nat) : (s.start i).byteAt a = s.byteAt a := rfl
@[simp] theorem State.byteAt_quiet (s : State) (a : Nat) : s.quiet.byteAt a = s.byteAt a := rfl
@[simp] theorem State.byteAt_dequeue (s : State) (a : Nat) : s.dequeue.byteAt a = s.byteAt a := rfl
@[simp] theorem State.byteAt_releaseReset (s : State) (a : Nat) : s.releaseReset.byteAt a = s.byteAt a := rfl

@[simp] theorem State.read16_complete (s : State) (a : Nat) : s.complete.read16 a = s.read16 a := rfl
@[simp] theorem State.read32_complete (s : State) (a : Nat) : s.complete.read32 a = s.read32 a := rfl

/-! ### Buffers -/

theorem Region.contains_iff (r : Region) (a : Nat) :
    r.contains a = true ↔ r.base ≤ a ∧ a < r.base + r.bytes := by simp [Region.contains]

/-- Forgetting a buffer leaves every byte outside it alone. -/
theorem State.byteAt_forget_out (s : State) (r : Region) (a : Nat) (h : r.contains a = false) :
    (s.forget r).byteAt a = s.byteAt a := by
  apply State.byteAt_writeBytes_out
  have := mt (Region.contains_iff r a).2 (by simp [h])
  simp only [List.length_map, List.length_range]
  omega

/-- Forgetting buffers leaves every byte outside them alone. -/
theorem State.byteAt_forgetAll_out (s : State) (rs : List Region) (a : Nat)
    (h : ∀ r ∈ rs, r.contains a = false) : (s.forgetAll rs).byteAt a = s.byteAt a := by
  show (rs.foldl State.forget s).byteAt a = s.byteAt a
  induction rs generalizing s with
  | nil => rfl
  | cons r rs ih =>
    rw [List.foldl_cons, ih _ fun r' hr' => h r' (List.mem_cons_of_mem _ hr'),
      State.byteAt_forget_out _ _ _ (h r List.mem_cons_self)]

theorem State.wf_forgetAll {s : State} (h : Memory.wf s.mem) (rs : List Region) :
    Memory.wf (s.forgetAll rs).mem := by
  show Memory.wf (rs.foldl State.forget s).mem
  induction rs generalizing s with
  | nil => exact h
  | cons r rs ih => exact ih (Memory.wf_put h _ _)

/-- The state after reset is in canonical form. -/
theorem Memory.wf_reset : Memory.wf State.reset.mem := List.Pairwise.nil

end Sys2Proof.Machine
end

