-- ==== Sys2Proof/Laws/Ops.lean ====
section
/-! SUPPORT. What each shared operation can do, said once: the two phases of a command, error entry,
the end of a run, the activation of the lanes of a layer. -/

namespace Sys2Proof.Machine

/-! ### The two phases -/

/-- The effect of a command in flight. -/
def finishOf : Instr → State → State
  | .nop => State.complete
  | .init => finishInit
  | .ftq => finishFtq
  | .nnz => finishNnz
  | .ft => finishFt
  | .l1s => finishL1s
  | .l1d => finishL1d
  | .l2 => finishL2
  | .l3 => finishL3
  | .eval => finishEval
  | .srst => finishSrst

/-- The precondition of a command (R43): the flag it reads at acceptance. -/
def preconditionOf : Instr → State → Option ErrorKind
  | .nnz | .ft | .eval => State.needsTable
  | .l1s => State.needsFresh
  | .nop | .init | .ftq | .l1d | .l2 | .l3 | .srst => State.needsNothing

/-- The acceptance of a command. -/
def acceptOf (i : Instr) (s : State) : State :=
  if i = .srst then s.acceptSrst else s.accept i (preconditionOf i s)

theorem exec_of_busy (i : Instr) {s : State} (h : s.status.busy = true) :
    exec i s = .next (finishOf i s) := by
  cases i <;> simp [exec, execNop, execInit, execFtq, execNnz, execFt, execL1s, execL1d, execL2,
    execL3, execEval, execSrst, command, finishOf, h]

theorem exec_of_idle (i : Instr) {s : State} (h : s.status.busy = false) :
    exec i s = .next (acceptOf i s) := by
  cases i <;> simp [exec, execNop, execInit, execFtq, execNnz, execFt, execL1s, execL1d, execL2,
    execL3, execEval, execSrst, command, acceptOf, preconditionOf, h]

/-- A command never stops the machine. -/
theorem exec_next (i : Instr) (s : State) :
    exec i s = .next (if s.status.busy then finishOf i s else acceptOf i s) := by
  cases h : s.status.busy
  · simpa using exec_of_idle i h
  · simpa using exec_of_busy i h

/-! ### Acceptance -/

theorem State.accept_failed {s : State} (i : Instr) (p : Option ErrorKind) (h : s.status.err = true) :
    s.accept i p = s := by simp [State.accept, h]

theorem State.accept_none {s : State} (i : Instr) (h : s.status.err = false) :
    s.accept i none = s.start i := by simp [State.accept, h]

theorem State.accept_some {s : State} (i : Instr) (k : ErrorKind) (h : s.status.err = false) :
    s.accept i (some k) = s.raise k (encode i) := by simp [State.accept, h]

theorem preconditionOf_eq_none_iff (i : Instr) (s : State) :
    preconditionOf i s = none ↔
      (i = .nnz ∨ i = .ft ∨ i = .eval → s.status.lutValid = true) ∧
        (i = .l1s → s.status.nnzFresh = true) := by
  cases i <;> simp [preconditionOf, State.needsTable, State.needsFresh, State.needsNothing]

/-! ### The end of a run -/

@[simp] theorem State.conclude_ok (s t : State) (lose : State → State) :
    s.conclude (.ok t) lose = t.complete := rfl

@[simp] theorem State.conclude_error (s : State) (f : Failure) (lose : State → State) :
    s.conclude (.error f) lose = (lose s).raise f.kind f.info := rfl

/-- The outcomes of a run. -/
theorem State.conclude_cases (s : State) (r : Except Failure State) (lose : State → State) :
    (∃ t, r = .ok t ∧ s.conclude r lose = t.complete) ∨
      ∃ f, r = .error f ∧ s.conclude r lose = (lose s).raise f.kind f.info := by
  cases r with
  | ok t => exact .inl ⟨t, rfl, rfl⟩
  | error f => exact .inr ⟨f, rfl, rfl⟩

/-! ### Free values -/

/-- A listed cell after buffers have become unspecified is an old one or lies in one of them. -/
theorem State.mem_forgetAll {s : State} {rs : List Region} {c : Host.Cell}
    (h : c ∈ (s.forgetAll rs).mem) : c ∈ s.mem ∨ ∃ r ∈ rs, r.contains c.1 = true := by
  have h : c ∈ (rs.foldl State.forget s).mem := h
  induction rs generalizing s with
  | nil => exact .inl h
  | cons r rs ih =>
    rcases ih (s := s.forget r) h h with h | ⟨q, hq, hc⟩
    · rcases Memory.mem_put h with h | ⟨h1, h2⟩
      · exact .inl h
      · refine .inr ⟨r, List.mem_cons_self, (Region.contains_iff r c.1).2 ⟨h1, ?_⟩⟩
        simpa using h2
    · exact .inr ⟨q, List.mem_cons_of_mem _ hq, hc⟩

/-! ### The activation of a layer -/

/-- Where no lane is a NaN, every result is the pattern of the lane's square (R130). -/
theorem activate_eq_ok {code j : Nat} {vs : List F32} {ws : List Word}
    (h : activate code j vs = .ok ws) :
    ws.length = vs.length ∧
      ∀ k (hk : k < vs.length), ∃ r, (vs[k]).csq = some r ∧ ws[k]? = some r.pack := by
  induction vs generalizing j ws with
  | nil => simp [activate] at h; subst h; simp
  | cons v vs ih =>
    simp only [activate] at h
    split at h
    · cases h
    · rename_i r hr
      split at h
      · cases h
      · rename_i us hus
        cases h
        obtain ⟨hl, hk⟩ := ih hus
        refine ⟨by simp [hl], fun k hlt => ?_⟩
        cases k with
        | zero => exact ⟨r, hr, rfl⟩
        | succ k => simpa using hk k (by simpa using hlt)

/-- Where some lane raises an error, it is the lowest one (R234). -/
theorem activate_eq_error {code j : Nat} {vs : List F32} {f : Failure}
    (h : activate code j vs = .error f) :
    ∃ k, ∃ hk : k < vs.length, (vs[k]).csq = none ∧
      (∀ m (hm : m < k), (vs[m]).csq ≠ none) ∧
      f = { kind := .nan, info := BitVec.ofNat 32 (code + (j + k)) } := by
  induction vs generalizing j with
  | nil => simp [activate] at h
  | cons v vs ih =>
    simp only [activate] at h
    split at h
    · rename_i hv
      exact ⟨0, by simp, hv, by simp, by simpa using h.symm⟩
    · rename_i r hr
      split at h
      · rename_i g hg
        cases h
        obtain ⟨k, hk, h1, h2, h3⟩ := ih hg
        refine ⟨k + 1, by simpa using hk, by simpa using h1, ?_, by rw [h3]; congr 2; omega⟩
        intro m hm
        cases m with
        | zero => simp [hr]
        | succ m => simpa using h2 m (by omega)
      · cases h

/-- The activation answers when no lane raises an error. -/
theorem activate_isOk {code j : Nat} {vs : List F32} (h : ∀ v ∈ vs, v.csq ≠ none) :
    ∃ ws, activate code j vs = .ok ws := by
  cases ha : activate code j vs with
  | ok ws => exact ⟨ws, rfl⟩
  | error f =>
    obtain ⟨k, hk, h1, -⟩ := activate_eq_error ha
    exact absurd h1 (h _ (List.getElem_mem hk))

end Sys2Proof.Machine
end

