-- ==== Sys2Proof/Laws/Stages.lean ====
section
/-! SUPPORT. What each stage of a command can do: the elements it writes, the bytes it leaves alone, and
what an answer or an error of it says. -/

namespace Sys2Proof.Machine

/-! ### The table (41_init_lut.md) -/

/-- The extraction of the lowest set bit again and again gives the set-bit positions (R152). -/
theorem tableEntry_eq_setBits : ∀ m < 256, tableEntry m = setBits m := by decide +kernel

theorem length_tableElems (m : Nat) : (tableElems m).length = 8 := by simp [tableElems]

theorem length_tableContents : tableContents.length = 2048 := by decide +kernel

/-- Element `e` of entry `m` stands at `8·m + e` (R34, R70). -/
theorem getElem?_tableContents {m e : Nat} (hm : m < 256) (he : e < 8) :
    tableContents[8 * m + e]? = some (BitVec.ofNat 16 ((setBits m).getD e 0)) := by
  have key : ∀ (ms : List Nat) (m : Nat) (hm : m < ms.length),
      (ms.flatMap tableElems)[8 * m + e]? = (tableElems ms[m])[e]? := by
    intro ms
    induction ms with
    | nil => intro m hm; simp at hm
    | cons x xs ih =>
      intro m hm
      rw [List.flatMap_cons]
      cases m with
      | zero => rw [List.getElem?_append_left (by rw [length_tableElems]; omega)]; simp
      | succ m =>
        rw [List.getElem?_append_right (by rw [length_tableElems]; omega), length_tableElems,
          show 8 * (m + 1) + e - 8 = 8 * m + e by omega, ih m (by simpa using hm)]
        simp
  rw [tableContents, key _ m (by simpa using hm)]
  simp only [List.getElem_range, tableElems, List.getElem?_map, List.getElem?_range he,
    tableEntry_eq_setBits m hm, Option.map_some]

/-! ### The quantizer (42_feature_transform.md) -/

theorem length_ftqOutput (s : State) : (ftqOutput s).length = 2048 := by simp [ftqOutput]

@[simp] theorem ftqStage_status (s : State) : (ftqStage s).status = s.status := rfl
@[simp] theorem ftqStage_errinfo (s : State) : (ftqStage s).errinfo = s.errinfo := rfl
@[simp] theorem ftqStage_nnzCount (s : State) : (ftqStage s).nnzCount = s.nnzCount := rfl
@[simp] theorem ftqStage_score (s : State) : (ftqStage s).score = s.score := rfl
@[simp] theorem ftqStage_response (s : State) : (ftqStage s).response = s.response := rfl
@[simp] theorem ftqStage_inReset (s : State) : (ftqStage s).inReset = s.inReset := rfl
@[simp] theorem ftqStage_schedule (s : State) : (ftqStage s).schedule = s.schedule := rfl
@[simp] theorem ftqStage_epoch (s : State) : (ftqStage s).epoch = s.epoch := rfl
@[simp] theorem ftqStage_fresh (s : State) : (ftqStage s).fresh = s.fresh := rfl

/-- The quantizer writes `ACT` only. -/
theorem ftqStage_byteAt_out (s : State) (a : Nat) (h : Region.act.contains a = false) :
    (ftqStage s).byteAt a = s.byteAt a := by
  apply State.byteAt_writeBytes_out
  have := mt (Region.contains_iff .act a).2 (by simp [h])
  rw [length_ftqOutput]
  simp only [Region.base, Region.bytes] at this ⊢
  omega

/-- The activation bytes from `US` (R160). -/
theorem ftqStage_act_us (s : State) {i : Nat} (hi : i < 1024) :
    (ftqStage s).act i = ftqByte (s.us i) (s.us (i + 1024)) := by
  rw [State.act, Region.elem, Region.elemBytes, Nat.one_mul, ftqStage,
    State.byteAt_writeBytes_in _ _ _ _ (by rw [length_ftqOutput]; omega)]
  simp [ftqOutput, hi]

/-- The activation bytes from `THEM` (R160). -/
theorem ftqStage_act_them (s : State) {i : Nat} (hi : i < 1024) :
    (ftqStage s).act (1024 + i) = ftqByte (s.them i) (s.them (i + 1024)) := by
  rw [State.act, Region.elem, Region.elemBytes, Nat.one_mul, ftqStage,
    State.byteAt_writeBytes_in _ _ _ _ (by rw [length_ftqOutput]; omega)]
  simp [ftqOutput]

/-! ### The encoder -/

theorem popcount8_le (m : Nat) : popcount8 m ≤ 8 := by
  simpa [popcount8] using List.countP_le_length (p := m.testBit) (l := List.range 8)

theorem length_sliceIndices_le (s : State) (sl : Nat) : (sliceIndices s sl).length ≤ 8 := by
  simpa [sliceIndices] using popcount8_le _

/-- The list has at most one index for each group (R167). -/
theorem length_encoderOutput_le (s : State) : (encoderOutput s).length ≤ 512 := by
  have key : ∀ l : List Nat, (l.flatMap (sliceIndices s)).length ≤ 8 * l.length := by
    intro l
    induction l with
    | nil => simp
    | cons x xs ih =>
      have := length_sliceIndices_le s x
      simp only [List.flatMap_cons, List.length_append, List.length_cons]
      omega
  simpa [encoderOutput] using key (List.range Config.nslices)

@[simp] theorem nnzStage_status (s : State) : (nnzStage s).status = s.status := by simp [nnzStage]
@[simp] theorem nnzStage_errinfo (s : State) : (nnzStage s).errinfo = s.errinfo := by simp [nnzStage]
@[simp] theorem nnzStage_nnzCount (s : State) :
    (nnzStage s).nnzCount = BitVec.ofNat 32 (encoderOutput s).length := rfl
@[simp] theorem nnzStage_score (s : State) : (nnzStage s).score = s.score := by simp [nnzStage]
@[simp] theorem nnzStage_response (s : State) : (nnzStage s).response = s.response := by simp [nnzStage]
@[simp] theorem nnzStage_inReset (s : State) : (nnzStage s).inReset = s.inReset := by simp [nnzStage]
@[simp] theorem nnzStage_schedule (s : State) : (nnzStage s).schedule = s.schedule := by simp [nnzStage]
@[simp] theorem nnzStage_epoch (s : State) : (nnzStage s).epoch = s.epoch := by simp [nnzStage]
@[simp] theorem nnzStage_fresh (s : State) : (nnzStage s).fresh = s.fresh + 1 := by simp [nnzStage]

/-- The encoder writes `NNZ` only. -/
theorem nnzStage_byteAt_out (s : State) (a : Nat) (h : Region.nnz.contains a = false) :
    (nnzStage s).byteAt a = s.byteAt a := by
  have hb := mt (Region.contains_iff .nnz a).2 (by simp [h])
  have hl := length_encoderOutput_le s
  rw [nnzStage, State.byteAt_setCount, State.byteAt_writeHalves_out, State.byteAt_forgetAll_out]
  · simpa using h
  · simp only [Region.base, Region.bytes] at hb ⊢
    omega

/-- The index list after the encoder is the encoder's output (R166). -/
theorem nnzStage_nnzList (s : State) : (nnzStage s).nnzList = (encoderOutput s).map (·.toNat) := by
  have hl := length_encoderOutput_le s
  have hn : (nnzStage s).nnzCount.toNat = (encoderOutput s).length := by
    rw [nnzStage_nnzCount, BitVec.toNat_ofNat]
    exact Nat.mod_eq_of_lt (by omega)
  rw [State.nnzList, hn]
  apply List.ext_getElem
  · simp
  · intro e h1 h2
    have he : e < (encoderOutput s).length := by simpa using h1
    simp only [List.getElem_map, List.getElem_range]
    congr 1
    exact State.read16_writeHalves _ _ _ e he

/-- The encoder leaves the activation words alone. -/
theorem nnzStage_actw (s : State) {g : Nat} (hg : g < 512) : (nnzStage s).actw g = s.actw g := by
  refine State.read32_congr fun k hk => nnzStage_byteAt_out s _ ?_
  rw [← Bool.not_eq_true, Region.contains_iff]
  simp only [Region.base, Region.bytes]
  omega

/-! ### The layers -/

/-- L1 answers the sums and the activated lanes (R183, R184). -/
theorem l1Stage_eq_ok {s t : State} {gs : List Nat} (h : l1Stage s gs = .ok t) :
    ∃ outs : List Word, outs.length = 16 ∧
      (∀ j < 16, ∃ r, (l1Pre s gs j).csq = some r ∧ outs[j]? = some r.pack) ∧
      t = (s.writeWords Region.l1acc.base
        ((List.range 16).map fun j => BitVec.ofInt 32 (l1Sum s gs j))).writeWords Region.l1out.base outs := by
  simp only [l1Stage, Config.l2Size_eq] at h
  split at h
  · cases h
  · rename_i outs houts
    obtain ⟨hl, hk⟩ := activate_eq_ok houts
    refine ⟨outs, by simpa using hl, fun j hj => ?_, by simpa using h.symm⟩
    have := hk j (by simpa using hj)
    rwa [List.getElem_map, List.getElem_range] at this

/-- L1 raises `E_NAN` for the lowest NaN lane only (R234). -/
theorem l1Stage_eq_error {s : State} {gs : List Nat} {f : Failure} (h : l1Stage s gs = .error f) :
    ∃ j < 16, (l1Pre s gs j).csq = none ∧ (∀ k < j, (l1Pre s gs k).csq ≠ none) ∧
      f = { kind := .nan, info := BitVec.ofNat 32 (0x100 + j) } := by
  simp only [l1Stage, Config.l2Size_eq] at h
  split at h
  · rename_i g hg
    cases h
    obtain ⟨k, hk, h1, h2, h3⟩ := activate_eq_error hg
    refine ⟨k, by simpa using hk, by simpa using h1, fun m hm => by simpa using h2 m hm, ?_⟩
    simpa using h3
  · cases h

/-- L2 answers the activated lanes (R202, R203). -/
theorem l2Stage_eq_ok {s t : State} (h : l2Stage s = .ok t) :
    ∃ outs : List Word, outs.length = 32 ∧
      (∀ j < 32, ∃ r, (l2Pre s j).csq = some r ∧ outs[j]? = some r.pack) ∧
      t = s.writeWords Region.l2out.base outs := by
  simp only [l2Stage, Config.l3Size_eq] at h
  split at h
  · cases h
  · rename_i outs houts
    obtain ⟨hl, hk⟩ := activate_eq_ok houts
    refine ⟨outs, by simpa using hl, fun j hj => ?_, by simpa using h.symm⟩
    have := hk j (by simpa using hj)
    rwa [List.getElem_map, List.getElem_range] at this

/-- L2 raises `E_NAN` for the lowest NaN lane only (R234). -/
theorem l2Stage_eq_error {s : State} {f : Failure} (h : l2Stage s = .error f) :
    ∃ j < 32, (l2Pre s j).csq = none ∧ (∀ k < j, (l2Pre s k).csq ≠ none) ∧
      f = { kind := .nan, info := BitVec.ofNat 32 (0x200 + j) } := by
  simp only [l2Stage, Config.l3Size_eq] at h
  split at h
  · rename_i g hg
    cases h
    obtain ⟨k, hk, h1, h2, h3⟩ := activate_eq_error hg
    refine ⟨k, by simpa using hk, by simpa using h1, fun m hm => by simpa using h2 m hm, ?_⟩
    simpa using h3
  · cases h

/-- L3 answers the converted score (R212). -/
theorem l3Stage_eq_ok {s t : State} (h : l3Stage s = .ok t) :
    ∃ n, (l3Scaled s).i32Trunc = .ok n ∧ t = s.setScore (BitVec.ofInt 32 n) := by
  simp only [l3Stage] at h
  split at h
  · cases h
  · exact ⟨_, ‹_›, by simpa using h.symm⟩

/-- L3 raises the error of the conversion (R234, R235). -/
theorem l3Stage_eq_error {s : State} {f : Failure} (h : l3Stage s = .error f) :
    (l3Scaled s).i32Trunc = .error f.kind ∧ f.info = l3Detail f.kind (l3Scaled s) := by
  simp only [l3Stage] at h
  split at h
  · cases h; exact ⟨‹_›, rfl⟩
  · cases h

end Sys2Proof.Machine
end

