-- ==== Sys2Proof/Laws/Frames.lean ====
section
/-! SUPPORT. Frames of the stages and of what an error loses: the fields and the bytes each leaves alone,
and that each keeps the memory in canonical form and within the data buffers. -/

namespace Sys2Proof.Machine

/-- An address of one range is in no other. -/
theorem Region.apart {r q : Region} {a : Nat} (h : r.contains a = true) (hne : r ≠ q) :
    q.contains a = false := by
  by_contra hc
  exact hne (Region.disjoint h (by simpa using hc))

/-! ### Bytes -/

/-- L1 writes `L1ACC` and `L1OUT` only. -/
theorem l1Stage_byteAt_out {s t : State} {gs : List Nat} (ht : l1Stage s gs = .ok t) {a : Nat}
    (h1 : Region.l1acc.contains a = false) (h2 : Region.l1out.contains a = false) :
    t.byteAt a = s.byteAt a := by
  obtain ⟨outs, hl, -, rfl⟩ := l1Stage_eq_ok ht
  rw [← Bool.not_eq_true, Region.contains_iff] at h1 h2
  simp only [Region.base, Region.bytes] at h1 h2
  rw [State.byteAt_writeWords_out, State.byteAt_writeWords_out]
  · simp only [List.length_map, List.length_range, Region.base]; omega
  · rw [hl]; simp only [Region.base]; omega

/-- L2 writes `L2OUT` only. -/
theorem l2Stage_byteAt_out {s t : State} (ht : l2Stage s = .ok t) {a : Nat}
    (h : Region.l2out.contains a = false) : t.byteAt a = s.byteAt a := by
  obtain ⟨outs, hl, -, rfl⟩ := l2Stage_eq_ok ht
  rw [← Bool.not_eq_true, Region.contains_iff] at h
  simp only [Region.base, Region.bytes] at h
  rw [State.byteAt_writeWords_out]
  rw [hl]; simp only [Region.base]; omega

/-- A range that is not forgotten keeps its bytes. -/
theorem State.byteAt_forgetAll_of_notMem {s : State} {rs : List Region} {r : Region} (hr : r ∉ rs)
    {a : Nat} (h : r.contains a = true) : (s.forgetAll rs).byteAt a = s.byteAt a :=
  State.byteAt_forgetAll_out _ _ _ fun _ hq => Region.apart h fun e => hr (e ▸ hq)

/-! ### Fields -/

theorem l1Stage_status {s t : State} {gs : List Nat} (h : l1Stage s gs = .ok t) : t.status = s.status := by
  obtain ⟨outs, -, -, rfl⟩ := l1Stage_eq_ok h; rfl
theorem l1Stage_errinfo {s t : State} {gs : List Nat} (h : l1Stage s gs = .ok t) : t.errinfo = s.errinfo := by
  obtain ⟨outs, -, -, rfl⟩ := l1Stage_eq_ok h; rfl
theorem l1Stage_nnzCount {s t : State} {gs : List Nat} (h : l1Stage s gs = .ok t) : t.nnzCount = s.nnzCount := by
  obtain ⟨outs, -, -, rfl⟩ := l1Stage_eq_ok h; rfl
theorem l1Stage_score {s t : State} {gs : List Nat} (h : l1Stage s gs = .ok t) : t.score = s.score := by
  obtain ⟨outs, -, -, rfl⟩ := l1Stage_eq_ok h; rfl
theorem l1Stage_response {s t : State} {gs : List Nat} (h : l1Stage s gs = .ok t) : t.response = s.response := by
  obtain ⟨outs, -, -, rfl⟩ := l1Stage_eq_ok h; rfl
theorem l1Stage_inReset {s t : State} {gs : List Nat} (h : l1Stage s gs = .ok t) : t.inReset = s.inReset := by
  obtain ⟨outs, -, -, rfl⟩ := l1Stage_eq_ok h; rfl
theorem l1Stage_schedule {s t : State} {gs : List Nat} (h : l1Stage s gs = .ok t) : t.schedule = s.schedule := by
  obtain ⟨outs, -, -, rfl⟩ := l1Stage_eq_ok h; rfl
theorem l1Stage_epoch {s t : State} {gs : List Nat} (h : l1Stage s gs = .ok t) : t.epoch = s.epoch := by
  obtain ⟨outs, -, -, rfl⟩ := l1Stage_eq_ok h; rfl
theorem l1Stage_fresh {s t : State} {gs : List Nat} (h : l1Stage s gs = .ok t) : t.fresh = s.fresh := by
  obtain ⟨outs, -, -, rfl⟩ := l1Stage_eq_ok h; rfl

theorem l2Stage_status {s t : State} (h : l2Stage s = .ok t) : t.status = s.status := by
  obtain ⟨outs, -, -, rfl⟩ := l2Stage_eq_ok h; rfl
theorem l2Stage_errinfo {s t : State} (h : l2Stage s = .ok t) : t.errinfo = s.errinfo := by
  obtain ⟨outs, -, -, rfl⟩ := l2Stage_eq_ok h; rfl
theorem l2Stage_nnzCount {s t : State} (h : l2Stage s = .ok t) : t.nnzCount = s.nnzCount := by
  obtain ⟨outs, -, -, rfl⟩ := l2Stage_eq_ok h; rfl
theorem l2Stage_score {s t : State} (h : l2Stage s = .ok t) : t.score = s.score := by
  obtain ⟨outs, -, -, rfl⟩ := l2Stage_eq_ok h; rfl
theorem l2Stage_response {s t : State} (h : l2Stage s = .ok t) : t.response = s.response := by
  obtain ⟨outs, -, -, rfl⟩ := l2Stage_eq_ok h; rfl
theorem l2Stage_inReset {s t : State} (h : l2Stage s = .ok t) : t.inReset = s.inReset := by
  obtain ⟨outs, -, -, rfl⟩ := l2Stage_eq_ok h; rfl
theorem l2Stage_schedule {s t : State} (h : l2Stage s = .ok t) : t.schedule = s.schedule := by
  obtain ⟨outs, -, -, rfl⟩ := l2Stage_eq_ok h; rfl
theorem l2Stage_epoch {s t : State} (h : l2Stage s = .ok t) : t.epoch = s.epoch := by
  obtain ⟨outs, -, -, rfl⟩ := l2Stage_eq_ok h; rfl
theorem l2Stage_fresh {s t : State} (h : l2Stage s = .ok t) : t.fresh = s.fresh := by
  obtain ⟨outs, -, -, rfl⟩ := l2Stage_eq_ok h; rfl

@[simp] theorem loseScore_status (s : State) : (loseScore s).status = s.status := rfl
@[simp] theorem loseScore_errinfo (s : State) : (loseScore s).errinfo = s.errinfo := rfl
@[simp] theorem loseScore_nnzCount (s : State) : (loseScore s).nnzCount = s.nnzCount := rfl
@[simp] theorem loseScore_response (s : State) : (loseScore s).response = s.response := rfl
@[simp] theorem loseScore_inReset (s : State) : (loseScore s).inReset = s.inReset := rfl
@[simp] theorem loseScore_schedule (s : State) : (loseScore s).schedule = s.schedule := rfl
@[simp] theorem loseScore_epoch (s : State) : (loseScore s).epoch = s.epoch := rfl
@[simp] theorem loseScore_fresh (s : State) : (loseScore s).fresh = s.fresh + 1 := rfl
@[simp] theorem loseScore_byteAt (s : State) (a : Nat) : (loseScore s).byteAt a = s.byteAt a := rfl

@[simp] theorem loseEval_status (s : State) : (loseEval s).status = s.status.withFresh false := by
  simp [loseEval, State.setFresh]
@[simp] theorem loseEval_errinfo (s : State) : (loseEval s).errinfo = s.errinfo := by
  simp [loseEval, State.setFresh]
@[simp] theorem loseEval_response (s : State) : (loseEval s).response = s.response := by
  simp [loseEval, State.setFresh]
@[simp] theorem loseEval_inReset (s : State) : (loseEval s).inReset = s.inReset := by
  simp [loseEval, State.setFresh]
@[simp] theorem loseEval_schedule (s : State) : (loseEval s).schedule = s.schedule := by
  simp [loseEval, State.setFresh]
@[simp] theorem loseEval_epoch (s : State) : (loseEval s).epoch = s.epoch := by
  simp [loseEval, State.setFresh]
@[simp] theorem loseEval_fresh (s : State) : (loseEval s).fresh = s.fresh + 1 := by
  simp [loseEval, State.setFresh]

/-- An error of EVAL leaves the count within its range (U2). -/
theorem loseEval_nnzCount_le (s : State) : (loseEval s).nnzCount.toNat ≤ 512 := by
  show (BitVec.ofNat 32 _).toNat ≤ 512
  rw [BitVec.toNat_ofNat]
  omega

theorem loseEval_byteAt_out (s : State) (a : Nat)
    (h : ∀ r ∈ bufferWrites .eval, r.contains a = false) : (loseEval s).byteAt a = s.byteAt a :=
  State.byteAt_forgetAll_out s _ a h

/-! ### The memory's invariant -/

theorem State.MemoryInv.congr {s t : State} (h : s.MemoryInv) (hm : t.mem = s.mem) : t.MemoryInv :=
  ⟨by rw [hm]; exact h.wf, by rw [hm]; exact h.buffers⟩

/-- A write within a data buffer keeps the memory's invariant. -/
theorem State.MemoryInv.put {s t : State} (h : s.MemoryInv) {r : Region} (hc : r.isControl = false)
    {a : Nat} {vs : List Byte} (ht : t.mem = s.mem.put a vs) (ha : r.base ≤ a)
    (hb : a + vs.length ≤ r.base + r.bytes) : t.MemoryInv := by
  refine ⟨by rw [ht]; exact Memory.wf_put h.wf _ _, fun c hcm => ?_⟩
  rw [ht] at hcm
  rcases Memory.mem_put hcm with hh | hh
  · exact h.buffers c hh
  · exact isBufferAddr_of_contains ((Region.contains_iff r _).2 (by omega)) hc

theorem State.MemoryInv.forgetAll {s : State} (h : s.MemoryInv) {rs : List Region}
    (hc : ∀ r ∈ rs, r.isControl = false) : (s.forgetAll rs).MemoryInv := by
  refine ⟨State.wf_forgetAll h.wf _, fun c hcm => ?_⟩
  rcases State.mem_forgetAll hcm with hh | ⟨r, hr, hh⟩
  · exact h.buffers c hh
  · exact isBufferAddr_of_contains hh (hc r hr)

theorem State.MemoryInv.ftqStage {s : State} (h : s.MemoryInv) : (ftqStage s).MemoryInv :=
  h.put (r := .act) rfl (vs := ftqOutput s) rfl (by decide) (by rw [length_ftqOutput]; decide)

theorem State.MemoryInv.nnzStage {s : State} (h : s.MemoryInv) : (nnzStage s).MemoryInv := by
  refine (h.forgetAll (rs := [.nnz]) (by decide)).put (r := .nnz) rfl (a := Region.nnz.base) rfl
    (by decide) ?_
  have := length_encoderOutput_le s
  rw [length_flatMap_bytesOfHalf]
  simp only [Region.base, Region.bytes]
  omega

theorem State.MemoryInv.l1Stage {s t : State} {gs : List Nat} (h : s.MemoryInv)
    (ht : l1Stage s gs = .ok t) : t.MemoryInv := by
  obtain ⟨outs, hl, -, rfl⟩ := l1Stage_eq_ok ht
  have h1 : (s.writeWords Region.l1acc.base
      ((List.range 16).map fun j => BitVec.ofInt 32 (l1Sum s gs j))).MemoryInv :=
    h.put (r := .l1acc) rfl (a := Region.l1acc.base) rfl (by decide) (by
      rw [length_flatMap_bytesOfWord]; simp [Region.bytes])
  exact h1.put (r := .l1out) rfl (a := Region.l1out.base) rfl (by decide) (by
    rw [length_flatMap_bytesOfWord, hl]; simp [Region.bytes])

theorem State.MemoryInv.l2Stage {s t : State} (h : s.MemoryInv) (ht : l2Stage s = .ok t) :
    t.MemoryInv := by
  obtain ⟨outs, hl, -, rfl⟩ := l2Stage_eq_ok ht
  exact h.put (r := .l2out) rfl (a := Region.l2out.base) rfl (by decide) (by
    rw [length_flatMap_bytesOfWord, hl]; simp [Region.bytes])

end Sys2Proof.Machine
end

