-- ==== Sys2Proof/Laws/Step.lean ====
section
/-! SUPPORT. Everything a step can do: the step is the first move's effect on the state with that move
taken off the schedule. -/

namespace Sys2Proof.Machine

theorem step_nil {s : State} (h : s.schedule = []) : step s = sequencer s.taken := by
  have : s.taken = s.quiet := by
    simp only [State.taken, State.dequeue, State.quiet]
    congr 1
    simp [h]
  rw [step, h, this]

theorem step_of_nextMove {s : State} {m : Move} (h : s.nextMove m) : step s = perform m s.taken := by
  unfold State.nextMove at h
  unfold step
  split
  · rename_i h'; simp [h'] at h
  · rename_i m' ms h'
    rw [h'] at h
    cases h
    rfl

/-- A completion that is next, and an empty schedule, both give the sequencer its step (R16, R276). -/
theorem step_of_sequencerNext {s : State} (h : s.sequencerNext) : step s = sequencer s.taken := by
  rcases h with h | h
  · exact step_nil h
  · exact step_of_nextMove h

/-- The four kinds of step. -/
theorem step_cases (s : State) :
    (s.sequencerNext ∧ step s = sequencer s.taken) ∨
    (∃ r, s.nextMove (.host r) ∧ step s = if s.inReset then .next s.taken else transact r s.taken) ∨
    (s.nextMove .assertReset ∧ step s = .next s.taken.hardwareReset) ∨
    (s.nextMove .releaseReset ∧ step s = .next s.taken.releaseReset) := by
  rcases hs : s.schedule with _ | ⟨m, ms⟩
  · exact .inl ⟨.inl hs, step_nil hs⟩
  · have hm : s.nextMove m := by simp [State.nextMove, hs]
    have h := step_of_nextMove hm
    cases m with
    | host r => exact .inr (.inl ⟨r, hm, h⟩)
    | complete => exact .inl ⟨.inr hm, h⟩
    | assertReset => exact .inr (.inr (.inl ⟨hm, h⟩))
    | releaseReset => exact .inr (.inr (.inr ⟨hm, h⟩))

/-- The sequencer's step: nothing while no command is in flight, else the command's effect. -/
theorem sequencer_cases {s t : State} (h : sequencer s = .next t) :
    (s.status.busy = false ∧ t = s) ∨
      ∃ i, s.status.busy = true ∧ s.inFlight = .ok i ∧ t = finishOf i s := by
  unfold sequencer at h
  split at h
  · rename_i hb
    split at h
    · rename_i i hi
      rw [exec_of_busy i hb] at h
      exact .inr ⟨i, hb, hi, by simpa using h.symm⟩
    · simp at h
  · rename_i hb
    exact .inl ⟨by simpa using hb, by simpa using h.symm⟩

/-- A command word written by the host: what it can lead to (R238 steps 4 to 7). -/
theorem issue_next (w : Word) {s : State} (hb : s.status.busy = false) :
    issue w s = .next (match decode w with
      | .ok i => acceptOf i s
      | .error _ => s.raise .illcmd w) := by
  unfold issue
  cases decode w with
  | ok i => exact exec_of_idle i hb
  | error e => rfl

/-- Everything a transaction can do (R62). -/
theorem transact_cases (r : Request) (s : State) :
    (busError s r = true ∧ transact r s = .next (s.respond .buserr)) ∨
    (busError s r = false ∧ r.write = false ∧
      transact r s = .next (s.respond (.ok (s.readValue r)))) ∨
    (busError s r = false ∧ r.write = true ∧ r.addr.toNat = Region.cmd.base ∧
      transact r s = issue r.wdata (s.respond (.ok 0#32))) ∨
    (busError s r = false ∧ r.write = true ∧ r.addr.toNat ≠ Region.cmd.base ∧
      transact r s = .next ((s.writeBuffer r).respond (.ok 0#32))) := by
  unfold transact
  cases hb : busError s r
  · cases hw : r.write
    · simp
    · by_cases ha : r.addr.toNat = Region.cmd.base <;> simp [ha]
  · simp

/-- While a command is in flight the bus refuses everything but a read of `STATUS` (R69). -/
theorem busError_of_busy {s : State} {r : Request} (hb : s.status.busy = true)
    (hr : r.readsStatus = false) : busError s r = true := by simp [busError, hb, hr]

end Sys2Proof.Machine
end

