-- ==== Sys2Proof/Laws/PerInstr.lean ====
section
/-! SUPPORT. Statements about every command, one lemma for each: the four bits that acceptance latches
into `STATUS.CUR` name the command (R36, R238). -/

namespace Sys2Proof.Laws.Latch

/-- The latched bits, read as a command word, decode to the command, which is well formed. -/
def Statement (i : Instr) : Prop :=
  decode ((curOf i).setWidth 32) = .ok i ∧ WellFormed.commandWord (encode i) = true

theorem nop : Statement .nop := ⟨rfl, rfl⟩
theorem init : Statement .init := ⟨rfl, rfl⟩
theorem ftq : Statement .ftq := ⟨rfl, rfl⟩
theorem nnz : Statement .nnz := ⟨rfl, rfl⟩
theorem ft : Statement .ft := ⟨rfl, rfl⟩
theorem l1s : Statement .l1s := ⟨rfl, rfl⟩
theorem l1d : Statement .l1d := ⟨rfl, rfl⟩
theorem l2 : Statement .l2 := ⟨rfl, rfl⟩
theorem l3 : Statement .l3 := ⟨rfl, rfl⟩
theorem eval : Statement .eval := ⟨rfl, rfl⟩
theorem srst : Statement .srst := ⟨rfl, rfl⟩

end Sys2Proof.Laws.Latch

namespace Sys2Proof.Machine

/-- The command whose bits are latched is the one in flight. -/
theorem State.inFlight_of_cur {s : State} {i : Instr} (h : s.status.cur = curOf i) :
    s.inFlight = .ok i := by
  rw [State.inFlight, h]
  cases i
  · exact Sys2Proof.Laws.Latch.nop.1
  · exact Sys2Proof.Laws.Latch.init.1
  · exact Sys2Proof.Laws.Latch.ftq.1
  · exact Sys2Proof.Laws.Latch.nnz.1
  · exact Sys2Proof.Laws.Latch.ft.1
  · exact Sys2Proof.Laws.Latch.l1s.1
  · exact Sys2Proof.Laws.Latch.l1d.1
  · exact Sys2Proof.Laws.Latch.l2.1
  · exact Sys2Proof.Laws.Latch.l3.1
  · exact Sys2Proof.Laws.Latch.eval.1
  · exact Sys2Proof.Laws.Latch.srst.1

/-- The bits latched by acceptance keep the command in flight. -/
theorem State.inFlight_start (s : State) (i : Instr) : (s.start i).inFlight = .ok i :=
  State.inFlight_of_cur rfl

/-- A command in flight, as the sequencer's step runs it. -/
theorem sequencer_of_runs {s : State} {i : Instr} (h : s.runs i) :
    sequencer s = .next (finishOf i s) := by
  rw [sequencer, if_pos h.1, State.inFlight_of_cur h.2.2]
  exact exec_of_busy i h.1

end Sys2Proof.Machine
end

