-- ==== Sys2Proof/Tests/Slice0.lean ====
section
/-! SUPPORT. Tests: ill-formed terms that the checks refuse, command words written out from the
encoding, the spec's numeric vectors (95_test_vectors.md), one small step for each command, and for
every obligation with hypotheses a concrete case that meets them. -/

namespace Sys2Proof.Tests

open Sys2Proof.Machine

/-! ### WellFormed: an ill-formed term for each check -/

theorem test_zero_field_refused :
    WellFormed.zeroField 0x00000109#32 = false ∧ WellFormed.commandWord 0x00000109#32 = false := by decide
theorem test_unassigned_opcode_refused :
    WellFormed.opAssigned 0x0000000A#32 = false ∧ WellFormed.commandWord 0x0000000A#32 = false := by decide
theorem test_reserved_size_refused : WellFormed.request ⟨false, 0x1000#16, 3#2, 0#32⟩ = false := by decide
theorem test_misaligned_refused :
    WellFormed.requestAligned ⟨false, 0x1002#16, 2#2, 0#32⟩ = false ∧
      WellFormed.request ⟨true, 0x1001#16, 1#2, 0#32⟩ = false := by decide
theorem test_wellformed_accepted :
    WellFormed.commandWord 0x00000009#32 = true ∧ WellFormed.request ⟨true, 0x1001#16, 0#2, 0#32⟩ = true := by
  decide

/-! ### Decode: words written out from R102 -/

theorem test_decode_nop : decodeBytes [0x00#8, 0#8, 0#8, 0#8] = .ok .nop := by rfl
theorem test_decode_init : decodeBytes [0x01#8, 0#8, 0#8, 0#8] = .ok .init := by rfl
theorem test_decode_ftq : decodeBytes [0x02#8, 0#8, 0#8, 0#8] = .ok .ftq := by rfl
theorem test_decode_nnz : decodeBytes [0x03#8, 0#8, 0#8, 0#8] = .ok .nnz := by rfl
theorem test_decode_ft : decodeBytes [0x04#8, 0#8, 0#8, 0#8] = .ok .ft := by rfl
theorem test_decode_l1s : decodeBytes [0x05#8, 0#8, 0#8, 0#8] = .ok .l1s := by rfl
theorem test_decode_l1d : decodeBytes [0x06#8, 0#8, 0#8, 0#8] = .ok .l1d := by rfl
theorem test_decode_l2 : decodeBytes [0x07#8, 0#8, 0#8, 0#8] = .ok .l2 := by rfl
theorem test_decode_l3 : decodeBytes [0x08#8, 0#8, 0#8, 0#8] = .ok .l3 := by rfl
theorem test_decode_eval : decodeBytes [0x09#8, 0#8, 0#8, 0#8] = .ok .eval := by rfl
theorem test_decode_srst : decodeBytes [0x0F#8, 0#8, 0#8, 0#8] = .ok .srst := by rfl
theorem test_decode_refuses_big_endian : decodeBytes [0#8, 0#8, 0#8, 0x01#8] = .error .zeroFieldSet := by rfl
theorem test_decode_refuses_length : decodeBytes [0x01#8] = .error .wrongLength := by rfl
theorem test_decode_table_word : decodeTableWord 32 0x0F = some .srst ∧ decodeTableWord 8 0x02 = some .ftq ∧
    decodeTableWord 32 0x10 = none := by decide

/-! ### Numeric vectors (95_test_vectors.md sections 2.2, 2.4, 2.5) -/

theorem test_ftq_pair :
    ftqPair 255 255 = 63 ∧ ftqPair 32767 (-32768) = 0 ∧ ftqPair (-32768) 32767 = 0 ∧
    ftqPair 10 300 = 2 ∧ ftqPair 31 33 = 0 ∧ ftqPair 32 32 = 1 ∧ ftqPair 181 181 = 31 := by decide
theorem test_mulhi16 :
    mulhi16 16320 255 = 63 ∧ mulhi16 16320 (-32768) = -8160 ∧ mulhi16 64 (-1) = -1 ∧
    mulhi16 64 1023 = 0 := by decide
theorem test_dot4 :
    dot4 (fun k => ([63#8, 9#8, 25#8, 0#8]).getD k 0#8)
      (fun k => ([0x81#8, 0x86#8, 0x8B#8, 0x90#8]).getD k 0#8) = -12024 := by decide
theorem test_i32_to_float :
    (F32.ofInt (-1)).pack = 0xBF800000#32 ∧ (F32.ofInt 16777217).pack = 0x4B800000#32 ∧
    (F32.ofInt 16777219).pack = 0x4B800002#32 ∧ (F32.ofInt (-66846720)).pack = 0xCC7F0000#32 ∧
    (F32.ofInt 2147483647).pack = 0x4F000000#32 := by decide +kernel
theorem test_clip_square :
    (F32.unpack 0x80000000#32).csq.map F32.pack = some 0x00000000#32 ∧
    (F32.unpack 0x3F000000#32).csq.map F32.pack = some 0x3E800000#32 ∧
    (F32.unpack 0x3DCCCCCD#32).csq.map F32.pack = some 0x3C23D70B#32 ∧
    (F32.unpack 0x1E3CE508#32).csq.map F32.pack = some 0x000116C2#32 ∧
    (F32.unpack 0xC0000000#32).csq.map F32.pack = some 0x00000000#32 ∧
    (F32.unpack 0x7F800000#32).csq.map F32.pack = some 0x3F800000#32 ∧
    (F32.unpack 0xFFC00001#32).csq = none := by decide +kernel
theorem test_truncation :
    (F32.unpack 0xBFFAE148#32).i32Trunc.toOption = some (-1) ∧
    (F32.unpack 0x4EFFFFFF#32).i32Trunc.toOption = some 2147483520 ∧
    (F32.unpack 0xCF000000#32).i32Trunc.toOption = some (-2147483648) := by decide +kernel
theorem test_truncation_errors :
    (F32.unpack 0x4F000000#32).i32Trunc.toOption = none ∧
    (F32.unpack 0xCF000001#32).i32Trunc.toOption = none := by decide +kernel
/-- Vector L1-V3: the multiply and the add round once, together. -/
theorem test_dequantization_is_fused :
    (F32.fma (F32.ofInt 57) (.unpack Config.l1Mul) (.unpack 0x3E99999A#32)).pack = 0x3EA0C7EF#32 ∧
    (F32.add (F32.mul (F32.ofInt 57) (.unpack Config.l1Mul)) (.unpack 0x3E99999A#32)).pack = 0x3EA0C7F0#32 := by
  decide +kernel
/-- `L1_MUL` is the binary32 value nearest 16/65025 (R132): the error is below half a unit `2^-35`. -/
theorem test_l1_mul_nearest :
    F32.unpack Config.l1Mul = .fin false (4227265 * 2 ^ 115) ∧
      2 * (4227265 * 65025 - 16 * 2 ^ 34 : Int).natAbs < 65025 := by decide +kernel
/-- The table of section 2.1, entry `0xB2`. -/
theorem test_table_entry : tableEntry 0xB2 = [1, 4, 5, 7] ∧ tableEntry 0 = [] := by decide
theorem test_bases_ascend : Region.all.Pairwise fun r q => r.base + r.bytes ≤ q.base := by decide

/-! ### Small states -/

/-- The cells of `0x1000 .. 0xFFFF`: `f` gives the byte of each address. -/
@[irreducible] def cellsOf (f : Nat → Byte) : Memory :=
  cellsFrom 0x1000 ((List.range 61440).map fun k => f (0x1000 + k))

/-- The state after reset with given bytes in the buffers. -/
def filled (f : Nat → Byte) : State := { State.reset with mem := cellsOf f }

/-- The same state with command `i` in flight. -/
def flying (i : Instr) (s : State) : State :=
  { s with status := { s.status with busy := true, done := false, cur := curOf i } }

/-- The same state with `LUT_VALID = 1`. -/
def valid (s : State) : State := { s with status := { s.status with lutValid := true } }

/-- The same state with the given moves to come. -/
def coming (ms : List Move) (s : State) : State := { s with schedule := ms }

/-- The state after an error at acceptance. -/
def failing : State := State.reset.raise .illcmd 0x0000000A#32

/-- Some bytes in one place. -/
def holding (r : Region) (vs : List Byte) : State := { State.reset with mem := cellsFrom r.base vs }

/-- 32-bit values in one place. -/
def holdingWords (r : Region) (ws : List Word) : State := holding r (ws.flatMap bytesOfWord)

/-! ### One small step for each command -/

theorem test_nop : exec .nop (flying .nop State.reset) =
    .next { State.reset with status := { Status.zero with done := true } } := by rfl
/-- Spot check of section 2.1: `LUT[0xB2][2] = 5`. -/
theorem test_init : (finishInit State.reset).lut 0xB2 2 = 5#16 ∧
    (finishInit State.reset).status.lutValid = true := by decide +kernel
/-- Section 2.2, placement: `US[0] = 255`, `US[1024] = 255`. -/
theorem test_ftq : (ftqStage ((State.reset.writeHalves 0x1000 [255#16]).writeHalves 0x1800 [255#16])).act 0
    = 63#8 := by decide +kernel
/-- Section 2.3: `ACT[5]`, `ACT[18]`, `ACT[23]`, `ACT[28]` nonzero give 1, 4, 5, 7. -/
theorem test_nnz :
    sliceIndices ((State.reset.writeBytes 0x3000 ((List.range 32).map fun k =>
      if k = 5 ∨ k = 18 ∨ k = 23 ∨ k = 28 then 1#8 else 0#8)).writeHalves (0x5000 + 16 * 0xB2)
        [1#16, 4#16, 5#16, 7#16, 0#16, 0#16, 0#16, 0#16]) 0 = [1#16, 4#16, 5#16, 7#16] := by decide +kernel
/-- The precondition of FT. -/
theorem test_ft_noinit : exec .ft State.reset = .next (State.reset.raise .noinit 0x00000004#32) := by rfl
/-- The precondition of L1S. -/
theorem test_l1s_stale : exec .l1s State.reset = .next (State.reset.raise .stale 0x00000005#32) := by rfl
/-- Vector L1-V1, lane 0: group 2 holds 10, 0, 255, 63. -/
theorem test_l1_sum :
    l1Sum ((State.reset.writeBytes 0x3008 [10#8, 0#8, 255#8, 63#8]).writeBytes 0x8080
      [0xE0#8, 0xE1#8, 0xE2#8, 0xE3#8]) [2] 0 = -9797 := by decide +kernel
/-- Vector L2-V4, lanes 0 and 1: the order of accumulation. -/
theorem test_l2_order :
    let s := (List.range 16).foldl (fun s i => s.writeWords (0x4000 + 128 * i)
        (([[0x3F000000#32, 0x33000000#32], [0x33000000#32, 0x33000000#32],
          [0x33000000#32, 0x3F000000#32]]).getD i [0#32, 0#32]))
      ((holdingWords .l1out ([0x3F800000#32, 0x3F800000#32, 0x3F800000#32] ++
        List.replicate 13 0#32)).writeWords 0x3D80 [0#32, 0#32])
    (l2Pre s 0).pack = 0x3F000000#32 ∧ (l2Pre s 1).pack = 0x3F000001#32 := by decide +kernel
/-- Section 2.7: `L3B = -0.0049` truncates toward zero. -/
theorem test_l3 :
    (finishL3 (((State.reset.writeWords 0x3C80 (List.replicate 32 0#32)).writeWords 0x3E00
      (List.replicate 32 0#32)).writeWords 0x3E80 [0xBBA0902E#32])).score = 0xFFFFFFFF#32 := by
  decide +kernel
theorem test_eval_noinit : exec .eval State.reset = .next (State.reset.raise .noinit 0x00000009#32) := by rfl
theorem test_srst : (finishSrst (flying .srst failing)).status.word = 0x0000F002#32 := by rfl
/-- Section 2.9: an illegal command word, the first step after reset. -/
theorem test_step_illegal :
    step (State.reset.withFetchWord 32 0x0000010A) =
      .next ((State.reset.respond (.ok 0#32)).raise .illcmd 0x0000010A#32) := by rfl
/-- `withFetchWord` runs the command. -/
theorem test_step_fetch :
    step (State.reset.withFetchWord 32 2) = exec .ftq (State.reset.respond (.ok 0#32)) ∧
      (State.reset.respond (.ok 0#32)).start .ftq =
        { State.reset with status := { Status.zero with busy := true, cur := 2#4 }
                           response := some (.ok 0#32) } := ⟨rfl, rfl⟩

/-! ### States for the witnesses -/

theorem byteAt_filled (f : Nat → Byte) {a : Nat} (h : 0x1000 ≤ a) (h' : a < 0x10000) :
    (filled f).byteAt a = f a := by
  have hg : (cellsOf f).get a = some (f a) := by
    unfold cellsOf
    rw [get_cellsFrom, if_pos h, List.getElem?_map, List.getElem?_range (by omega), Option.map_some]
    exact congrArg some (congrArg f (by omega))
  rw [State.byteAt, show (filled f).mem = cellsOf f from rfl, hg]

/-- The bytes of the table at its addresses, 0 elsewhere. -/
def tableByte (a : Nat) : Byte := (tableContents.flatMap bytesOfHalf).getD (a - 0x5000) 0#8

/-- `f` outside `LUT`, the table inside. -/
def withTable (f : Nat → Byte) (a : Nat) : Byte := if Region.lut.contains a then tableByte a else f a

theorem tableByte_at {m e k : Nat} (hm : m < 256) (he : e < 8) (hk : k < 2) :
    some (tableByte (Region.lut.elem (8 * m + e) + k)) =
      (bytesOfHalf (BitVec.ofNat 16 ((setBits m).getD e 0)))[k]? := by
  have h := getElem?_flatMap_half tableContents (8 * m + e) k hk
  rw [getElem?_tableContents hm he, Option.bind_some] at h
  rw [← h, tableByte, show Region.lut.elem (8 * m + e) + k - 0x5000 = 2 * (8 * m + e) + k from by
    simp only [Region.elem, Region.base, Region.elemBytes]; omega, List.getD_eq_getElem?_getD]
  have hlt : 2 * (8 * m + e) + k < (tableContents.flatMap bytesOfHalf).length := by
    rw [length_flatMap_bytesOfHalf, length_tableContents]; omega
  rw [List.getElem?_eq_getElem hlt, Option.getD_some]

/-- A state whose `LUT` bytes are the table's meets the table's invariant. -/
theorem tableInv_of_bytes {s : State} (h : ∀ a, Region.lut.contains a = true → s.byteAt a = tableByte a) :
    s.TableInv := by
  intro _ m hm e he
  have hc : ∀ k < 2, Region.lut.contains (Region.lut.elem (8 * m + e) + k) = true := by
    intro k hk
    rw [Region.contains_iff]
    simp only [Region.elem, Region.base, Region.elemBytes, Region.bytes]
    omega
  have h0 : s.byteAt (Region.lut.elem (8 * m + e)) = _ :=
    (h _ (hc 0 (by omega))).trans (Option.some.inj (tableByte_at hm he (k := 0) (by omega)))
  have h1 : s.byteAt (Region.lut.elem (8 * m + e) + 1) = _ :=
    (h _ (hc 1 (by omega))).trans (Option.some.inj (tableByte_at hm he (k := 1) (by omega)))
  rw [State.lut, State.read16, h0, h1]
  exact append_bytesOfHalf _

theorem byteAt_withTable (f : Nat → Byte) {a : Nat} (h : Region.lut.contains a = true) :
    (filled (withTable f)).byteAt a = tableByte a := by
  have := (Region.contains_iff .lut a).1 h
  simp only [Region.base, Region.bytes] at this
  rw [byteAt_filled _ (by omega) (by omega), withTable, if_pos h]

theorem tableInv_withTable (f : Nat → Byte) : (filled (withTable f)).TableInv :=
  tableInv_of_bytes fun _ => byteAt_withTable f

/-- `TableInv` of a state with `LUT_VALID = 1` and any command in flight. -/
theorem tableInv_flying (f : Nat → Byte) (i : Instr) :
    (flying i (valid (filled (withTable f)))).TableInv :=
  tableInv_of_bytes fun _ => byteAt_withTable f

/-- Every buffer byte 0, with the exception of ranges in which nothing is known. -/
def ZeroOutside (rs : List Region) (s : State) : Prop :=
  ∀ a, 0x1000 ≤ a → a < 0x10000 → (∀ r ∈ rs, r.contains a = false) → s.byteAt a = 0#8

theorem read32_zero {rs : List Region} {s : State} (h : ZeroOutside rs s) {a : Nat} (h1 : 0x1000 ≤ a)
    (h2 : a + 3 < 0x10000) (h3 : ∀ r ∈ rs, a + 3 < r.base ∨ r.base + r.bytes ≤ a) : s.read32 a = 0#32 := by
  have e : ∀ b, a ≤ b → b ≤ a + 3 → s.byteAt b = 0#8 := by
    intro b hb hb'
    refine h b (by omega) (by omega) fun r hr => ?_
    have := h3 r hr
    rw [← Bool.not_eq_true, Region.contains_iff]
    omega
  rw [State.read32, e a (by omega) (by omega), e (a + 1) (by omega) (by omega),
    e (a + 2) (by omega) (by omega), e (a + 3) (by omega) (by omega)]
  rfl

/-- A 32-bit element is 0 unless its range is one of those excepted. -/
theorem elem_zero {rs : List Region} {s : State} (h : ZeroOutside rs s) {q : Region} {i : Nat}
    (hc : q.isControl = false) (h4 : q.elemBytes = 4) (hi : 4 * i + 4 ≤ q.bytes) (hq : q ∉ rs) :
    s.read32 (q.elem i) = 0#32 := by
  have key : ∀ q ∈ Region.all, q.isControl = false → 0x1000 ≤ q.base ∧ q.base + q.bytes ≤ 0x10000 := by
    decide
  have apart : ∀ r ∈ Region.all, ∀ q ∈ Region.all,
      r = q ∨ r.base + r.bytes ≤ q.base ∨ q.base + q.bytes ≤ r.base := by decide
  have hb := key q q.mem_all hc
  rw [Region.elem, h4]
  refine read32_zero h (by omega) (by omega) fun r hr => ?_
  rcases apart r r.mem_all q q.mem_all with h | h | h
  · exact absurd (h ▸ hr) hq
  · omega
  · omega

theorem zeroOutside_writeBytes {rs : List Region} {s : State} (h : ZeroOutside rs s) (a : Nat)
    (vs : List Byte) (hv : ∀ v ∈ vs, v = 0#8) : ZeroOutside rs (s.writeBytes a vs) := by
  intro b h1 h2 h3
  rw [State.byteAt_writeBytes]
  split
  · exact hv _ (List.getElem_mem _)
  · exact h b h1 h2 h3

theorem map_range_eq_replicate {α : Type} (n : Nat) (f : Nat → α) (x : α) (h : ∀ j < n, f j = x) :
    (List.range n).map f = List.replicate n x := by
  refine List.ext_getElem (by simp) fun k h1 h2 => ?_
  simpa using h k (by simpa using h1)

/-- Products of zeros leave an accumulator alone that a product of zeros leaves alone. -/
theorem fold_zero {a : Nat → Word} {w : Nat → F32} {x : F32} (hx : F32.fma F32.zero F32.zero x = x)
    (l : List Nat) (ha : ∀ i ∈ l, a i = 0#32) (hw : ∀ i ∈ l, w i = F32.zero) :
    l.foldl (fun acc i => F32.fma (.unpack (a i)) (w i) acc) x = x := by
  induction l with
  | nil => rfl
  | cons i l ih =>
    rw [List.foldl_cons, ha i List.mem_cons_self, hw i List.mem_cons_self,
      show F32.unpack 0#32 = F32.zero from rfl, hx]
    exact ih (fun k hk => ha k (List.mem_cons_of_mem _ hk)) fun k hk => hw k (List.mem_cons_of_mem _ hk)

theorem fma_zero_zero : F32.fma F32.zero F32.zero F32.zero = F32.zero := by decide +kernel

theorem ftqStage_zero {rs : List Region} {s : State} (h : ZeroOutside rs s) (hu : .us ∉ rs)
    (ht : .them ∉ rs) : ZeroOutside rs (ftqStage s) := by
  have e : ∀ (q : Region) (a : Nat), q ∉ rs → q.isControl = false → q.base ≤ a → a + 1 < q.base + q.bytes →
      s.read16 a = 0#16 := by
    intro q a hq hc h1 h2
    have key : ∀ q ∈ Region.all, q.isControl = false → 0x1000 ≤ q.base ∧ q.base + q.bytes ≤ 0x10000 := by
      decide
    have hb := key q q.mem_all hc
    have e' : ∀ b, a ≤ b → b ≤ a + 1 → s.byteAt b = 0#8 := by
      intro b h3 h4
      refine h b (by omega) (by omega) fun r hr => ?_
      by_contra hne
      have hne : r.contains b = true := by simpa using hne
      have := Region.disjoint hne ((Region.contains_iff q b).2 ⟨by omega, by omega⟩)
      exact hq (this ▸ hr)
    rw [State.read16, e' a (by omega) (by omega), e' (a + 1) (by omega) (by omega)]
    rfl
  refine zeroOutside_writeBytes h _ _ fun v hv => ?_
  have hus : ∀ i < 2048, s.us i = 0 := by
    intro i hi
    rw [State.us, e .us _ hu rfl (by simp only [Region.elem, Region.base, Region.elemBytes]; omega)
      (by simp only [Region.elem, Region.base, Region.elemBytes, Region.bytes]; omega)]
    rfl
  have hth : ∀ i < 2048, s.them i = 0 := by
    intro i hi
    rw [State.them, e .them _ ht rfl (by simp only [Region.elem, Region.base, Region.elemBytes]; omega)
      (by simp only [Region.elem, Region.base, Region.elemBytes, Region.bytes]; omega)]
    rfl
  simp only [ftqOutput, Config.half_eq, List.mem_append, List.mem_map, List.mem_range] at hv
  rcases hv with ⟨i, hi, rfl⟩ | ⟨i, hi, rfl⟩
  · rw [hus i (by omega), hus (i + 1024) (by omega)]; rfl
  · rw [hth i (by omega), hth (i + 1024) (by omega)]; rfl

/-- Zero activations give the empty list. -/
theorem nnzStage_zero {rs : List Region} {s : State} (h : ZeroOutside rs s) (hn : .nnz ∈ rs)
    (ha : .act ∉ rs) : ZeroOutside rs (nnzStage s) ∧ (nnzStage s).nnzList = [] := by
  have hz : ∀ g < 512, groupNonzero s g = false := by
    intro g hg
    have : s.actw g = 0#32 := by
      refine read32_zero h (by simp only [Region.base]; omega) (by simp only [Region.base]; omega) fun r hr => ?_
      have hne : r ≠ .act := fun e => ha (e ▸ hr)
      cases r <;> simp only [Region.base, Region.bytes] <;> first | omega | exact absurd rfl hne
    rw [groupNonzero, this]
    rfl
  have he : encoderOutput s = [] := by
    refine List.flatMap_eq_nil_iff.2 fun sl hsl => ?_
    have hsl : sl < 64 := by simpa using hsl
    have hm : sliceMask s sl = 0 := by
      rw [sliceMask, map_range_eq_replicate 8 _ 0 fun k hk => by rw [hz _ (by omega)]; rfl]
      rfl
    rw [sliceIndices, hm]
    rfl
  refine ⟨fun a h1 h2 h3 => ?_, by rw [nnzStage_nnzList, he]; rfl⟩
  rw [nnzStage_byteAt_out s a (h3 _ hn)]
  exact h a h1 h2 h3

theorem l1Stage_zero {rs : List Region} {s : State} (h : ZeroOutside rs s) (hb : .l1b ∉ rs) :
    ∃ t, l1Stage s [] = .ok t ∧ ZeroOutside rs t := by
  have hp : ∀ j < 16, l1Pre s [] j = F32.zero := by
    intro j hj
    rw [l1Pre, State.l1b, elem_zero h rfl rfl (by simp only [Region.bytes]; omega) hb]
    show F32.fma (F32.ofInt 0) _ _ = _
    decide +kernel
  have z1 := zeroOutside_writeBytes h Region.l1acc.base
    (((List.range 16).map fun j => BitVec.ofInt 32 (l1Sum s [] j)).flatMap bytesOfWord)
    (by rw [map_range_eq_replicate 16 (fun j => BitVec.ofInt 32 (l1Sum s [] j)) 0#32 fun j _ => rfl]
        decide)
  have z2 := zeroOutside_writeBytes z1 Region.l1out.base ((List.replicate 16 0#32).flatMap bytesOfWord)
    (by decide)
  have e : activate 0x100 0 (List.replicate 16 F32.zero) = .ok (List.replicate 16 0#32) := by
    decide +kernel
  refine ⟨_, ?_, z2⟩
  rw [l1Stage, Config.l2Size_eq, map_range_eq_replicate 16 _ F32.zero hp, e]
  rfl

/-- Over zero inputs and weights a lane of L2 keeps its bias where a zero product does. -/
theorem l2Pre_of_zero {rs : List Region} {s : State} (h : ZeroOutside rs s) (ho : .l1out ∉ rs)
    (hw : .l2w ∉ rs) {j : Nat} (hj : j < 32) (hx : F32.fma F32.zero F32.zero (s.l2b j) = s.l2b j) :
    l2Pre s j = s.l2b j := by
  refine fold_zero hx _ (fun i hi => ?_) fun i hi => ?_
  · have hi : i < 16 := by simpa using hi
    exact elem_zero h rfl rfl (by simp only [Region.bytes]; omega) ho
  · have hi : i < 16 := by simpa using hi
    show F32.unpack (s.read32 _) = _
    rw [elem_zero h rfl rfl (by simp only [Region.bytes]; omega) hw]
    rfl

theorem l2b_zero {rs : List Region} {s : State} (h : ZeroOutside rs s) (hb : .l2b ∉ rs) {j : Nat}
    (hj : j < 32) : s.l2b j = F32.zero := by
  rw [State.l2b, elem_zero h rfl rfl (by simp only [Region.bytes]; omega) hb]
  rfl

theorem l2Stage_zero {rs : List Region} {s : State} (h : ZeroOutside rs s) (ho : .l1out ∉ rs)
    (hw : .l2w ∉ rs) (hb : .l2b ∉ rs) : ∃ t, l2Stage s = .ok t ∧ ZeroOutside rs t := by
  have hp : ∀ j < 32, l2Pre s j = F32.zero := by
    intro j hj
    have := l2b_zero h hb hj
    rw [l2Pre_of_zero h ho hw hj (by rw [this]; exact fma_zero_zero), this]
  have z := zeroOutside_writeBytes h Region.l2out.base ((List.replicate 32 0#32).flatMap bytesOfWord)
    (by decide)
  have e : activate 0x200 0 (List.replicate 32 F32.zero) = .ok (List.replicate 32 0#32) := by
    decide +kernel
  refine ⟨_, ?_, z⟩
  rw [l2Stage, Config.l3Size_eq, map_range_eq_replicate 32 _ F32.zero hp, e]
  rfl

theorem l3Dot_zero {rs : List Region} {s : State} (h : ZeroOutside rs s) (ho : .l2out ∉ rs)
    (hw : .l3w ∉ rs) : l3Dot s = F32.zero := by
  refine fold_zero fma_zero_zero _ (fun k hk => ?_) fun k hk => ?_
  · have hk : k < 32 := by simpa using hk
    exact elem_zero h rfl rfl (by simp only [Region.bytes]; omega) ho
  · have hk : k < 32 := by simpa using hk
    show F32.unpack (s.read32 _) = _
    rw [elem_zero h rfl rfl (by simp only [Region.bytes]; omega) hw]
    rfl

/-- Over zeros the scaled value is the scaled bias. -/
theorem l3Scaled_of_zero {rs : List Region} {s : State} (h : ZeroOutside rs s) (ho : .l2out ∉ rs)
    (hw : .l3w ∉ rs) {w : Word} (hb : s.read32 0x3E80 = w) :
    l3Scaled s = F32.mul (F32.add (.unpack w) F32.zero) (.unpack Config.outputScaleF32) := by
  rw [l3Scaled, State.l3b, l3Dot_zero h ho hw, show Region.l3b.base = 0x3E80 from rfl, hb]

theorem l3Scaled_zero {rs : List Region} {s : State} (h : ZeroOutside rs s) (ho : .l2out ∉ rs)
    (hw : .l3w ∉ rs) (hb : .l3b ∉ rs) : l3Scaled s = F32.zero := by
  rw [l3Scaled_of_zero h ho hw (w := 0#32) (elem_zero h (q := .l3b) (i := 0) rfl rfl (by decide) hb)]
  decide +kernel

/-- EVAL over buffers of zeros raises no error. -/
theorem evalStages_zero {s : State} (h : ZeroOutside [.nnz] s) : ∃ t, evalStages s = .ok t := by
  obtain ⟨h1, h2⟩ := nnzStage_zero (ftqStage_zero h (by decide) (by decide)) (by decide) (by decide)
  obtain ⟨s2, e2, h3⟩ := l1Stage_zero h1 (by decide)
  obtain ⟨s3, e3, h4⟩ := l2Stage_zero h3 (by decide) (by decide) (by decide)
  have ht : F32.i32Trunc F32.zero = .ok 0 := by rfl
  have hs := l3Scaled_zero h4 (by decide) (by decide) (by decide)
  exact ⟨(s3.setScore (BitVec.ofInt 32 0)).setFresh true, by simp only [evalStages, h2, e2, e3, l3Stage, hs, ht]⟩

/-- Buffers of zeros. -/
def zeros : State := filled fun _ => 0#8

theorem zeros_zero (i : Instr) (rs : List Region) : ZeroOutside rs (flying i zeros) :=
  fun _ h1 h2 _ => byteAt_filled _ h1 h2

/-- Zeros, with the word `w` at address `b`. -/
def wordAt (b : Nat) (w : Word) (a : Nat) : Byte :=
  if a = b then w.extractLsb' 0 8 else if a = b + 1 then w.extractLsb' 8 8
  else if a = b + 2 then w.extractLsb' 16 8 else if a = b + 3 then w.extractLsb' 24 8 else 0#8

/-- Command `i` in flight over zeros with the word `w` at element `k` of `q`. -/
def oneWord (i : Instr) (q : Region) (k : Nat) (w : Word) : State := flying i (filled (wordAt (q.elem k) w))

theorem oneWord_zero (i : Instr) (q : Region) (k : Nat) (w : Word) (h4 : q.elemBytes = 4)
    (hk : 4 * k + 4 ≤ q.bytes) : ZeroOutside [q] (oneWord i q k w) := by
  intro a h1 h2 h3
  have h3 : ¬q.contains a = true := by simpa using h3 q List.mem_cons_self
  rw [Region.contains_iff] at h3
  refine (byteAt_filled _ h1 h2).trans ?_
  simp only [wordAt, Region.elem, h4]
  rw [if_neg (by omega), if_neg (by omega), if_neg (by omega), if_neg (by omega)]

theorem oneWord_read (i : Instr) (q : Region) (k m : Nat) (w : Word) (hc : q.isControl = false)
    (h4 : q.elemBytes = 4) (hk : 4 * k + 4 ≤ q.bytes) (hm : 4 * m + 4 ≤ q.bytes) :
    (oneWord i q k w).read32 (q.elem m) = if m = k then w else 0#32 := by
  have key : ∀ q ∈ Region.all, q.isControl = false → 0x1000 ≤ q.base ∧ q.base + q.bytes ≤ 0x10000 := by
    decide
  have hb := key q q.mem_all hc
  have e : ∀ n < 4, (oneWord i q k w).byteAt (q.elem m + n) = wordAt (q.elem k) w (q.elem m + n) := by
    intro n hn
    refine byteAt_filled _ ?_ ?_ <;> simp only [Region.elem, h4] <;> omega
  rw [State.read32, ← Nat.add_zero (q.elem m), e 0 (by omega), Nat.add_zero, e 1 (by omega), e 2 (by omega),
    e 3 (by omega)]
  simp only [wordAt, Region.elem, h4]
  split
  · rename_i h
    have : m = k := by omega
    subst this
    simpa using wordOfBytes_bytesOfWord w
  · rename_i h
    rw [if_neg (show ¬m = k by omega)]
    simp only [show ∀ x y : Nat, (q.base + 4 * m + x = q.base + 4 * k + y) = (4 * m + x = 4 * k + y) from
      fun x y => by rw [Nat.add_assoc, Nat.add_assoc, Nat.add_left_cancel_iff]]
    repeat rw [if_neg (by omega)]
    rfl

/-! ### A state that meets the invariant, with a fresh list -/

/-- Zero activations and the table. -/
@[irreducible] def calmMem : Memory :=
  (Memory.put [] 0x3000 (List.replicate 2048 0#8)).put 0x5000 (tableContents.flatMap bytesOfHalf)

/-- Zero activations, the table, an empty list, both flags set. -/
def calm : State :=
  { State.reset with
    status := { Status.zero with lutValid := true, nnzFresh := true, done := true }
    mem := calmMem }

theorem calm_mem : calm.mem =
    (Memory.put [] 0x3000 (List.replicate 2048 0#8)).put 0x5000 (tableContents.flatMap bytesOfHalf) := by
  show calmMem = _
  unfold calmMem
  rfl

theorem length_tableBytes : (tableContents.flatMap bytesOfHalf).length = 4096 := by
  rw [length_flatMap_bytesOfHalf, length_tableContents]

theorem byteAt_of_get {s : State} {a : Nat} {v : Byte} (h : s.mem.get a = some v) : s.byteAt a = v := by
  rw [State.byteAt, h]

theorem getElem?_eq_getD (l : List Byte) {k : Nat} (h : k < l.length) : l[k]? = some (l.getD k 0#8) := by
  simp [h]

theorem calm_table {a : Nat} (h : Region.lut.contains a = true) : calm.byteAt a = tableByte a := by
  have ha := (Region.contains_iff .lut a).1 h
  simp only [Region.base, Region.bytes] at ha
  apply byteAt_of_get
  rw [calm_mem, Memory.get_put, length_tableBytes, if_pos (by omega),
    getElem?_eq_getD _ (by rw [length_tableBytes]; omega), tableByte]

theorem calm_act {a : Nat} (h : Region.act.contains a = true) : calm.byteAt a = 0#8 := by
  have ha := (Region.contains_iff .act a).1 h
  simp only [Region.base, Region.bytes] at ha
  apply byteAt_of_get
  rw [calm_mem, Memory.get_put, length_tableBytes, if_neg (by omega), Memory.get_put,
    if_pos (by rw [List.length_replicate]; omega), List.getElem?_replicate, if_pos (by omega)]

theorem calm_inv : calm.Inv := by
  refine ⟨⟨?_, ?_, ?_, ?_, ?_, ?_, ?_, ?_⟩, ⟨?_, ?_, ?_⟩, tableInv_of_bytes fun a => calm_table, fun _ => ⟨rfl, ?_⟩,
    ⟨by rw [calm_mem]; exact Memory.wf_put (Memory.wf_put List.Pairwise.nil _ _) _ _, fun c hc => ?_⟩⟩
  · exact ⟨fun h => absurd rfl h, fun h => absurd h (by decide)⟩
  · exact Nat.zero_le _
  · rintro ⟨h, -⟩; exact absurd h (by decide)
  · intro h; exact absurd h (by decide)
  · intro h; exact absurd h (by decide)
  · intro _; rfl
  · exact Nat.zero_le _
  · intro h; exact absurd h (by decide)
  · intro h; exact absurd h (by decide)
  · intro h; exact absurd h (by decide)
  · intro h; exact absurd h (by decide)
  · have e : calm.nnzList = [] := rfl
    rw [e]
    refine (List.filter_eq_nil_iff.2 fun g hg => ?_).symm
    have hg : g < 512 := by simpa using hg
    have : calm.actw g = 0#32 := by
      have hc : ∀ k < 4, calm.byteAt (Region.act.base + 4 * g + k) = 0#8 := fun k hk =>
        calm_act ((Region.contains_iff _ _).2 (by simp only [Region.base, Region.bytes]; omega))
      rw [State.actw, State.read32, hc 1 (by omega), hc 2 (by omega), hc 3 (by omega),
        show calm.byteAt (Region.act.base + 4 * g) = 0#8 from hc 0 (by omega)]
      rfl
    rw [groupNonzero, this]
    decide
  · rw [calm_mem] at hc
    rcases Memory.mem_put hc with h | h
    · rcases Memory.mem_put h with h | h
      · simp at h
      · rw [List.length_replicate] at h
        exact isBufferAddr_of_contains (r := .act) ((Region.contains_iff _ _).2 h) rfl
    · rw [length_tableBytes] at h
      exact isBufferAddr_of_contains (r := .lut) ((Region.contains_iff _ _).2 h) rfl

/-! ### Witnesses: the hypotheses of each obligation are met

A witness of a statement with several clauses has one part for each clause. -/

theorem flying_step (i : Instr) (s : State) (h : s.schedule = []) (he : s.status.err = false) :
    step (flying i s) = .next (finishOf i (flying i s).taken) := by
  rw [step_of_sequencerNext (s := flying i s) (.inl h), sequencer_of_runs (s := (flying i s).taken) ⟨rfl, he, rfl⟩]

/-- Reset with one request to come. -/
def asking (r : Request) : State := coming [.host r] State.reset

theorem witness_DecodeSelectsExactWord : ∀ i, (0x00000010#32 : Word) ≠ encode i := by
  intro i; cases i <;> decide

theorem witness_HardwareResetFromAnyState :
    (coming [.assertReset] (flying .eval State.reset)).nextMove .assertReset ∧
    ((coming [rd32 4] State.reset.hardwareReset).inReset = true ∧
      (coming [rd32 4] State.reset.hardwareReset).nextMove (rd32 4)) ∧
    ((coming [.releaseReset] State.reset.hardwareReset).inReset = true ∧
      (coming [.releaseReset] State.reset.hardwareReset).nextMove .releaseReset) :=
  ⟨rfl, ⟨rfl, rfl⟩, rfl, rfl⟩

theorem witness_CommandWriteRunsDecoded :
    ((asking (cmdWrite 2#32)).nextMove (.host (cmdWrite 2#32)) ∧ (asking (cmdWrite 2#32)).inReset = false ∧
      (asking (cmdWrite 2#32)).status.busy = false ∧ (asking (cmdWrite 2#32)).status.err = false ∧
      decode 2#32 = .ok .ftq) ∧
    ((coming [.host (cmdWrite 15#32)] failing).nextMove (.host (cmdWrite 15#32)) ∧ failing.inReset = false ∧
      failing.status.busy = false ∧ failing.status.err = true ∧ decode 15#32 = .ok .srst) :=
  ⟨⟨rfl, rfl, rfl, rfl, rfl⟩, rfl, rfl, rfl, rfl, rfl⟩

theorem witness_SequencerStepRunsCommandInFlight :
    ((flying .eval State.reset).sequencerNext ∧ (flying .eval State.reset).runs .eval) ∧
    ((coming [.complete] (flying .nop State.reset)).sequencerNext ∧ (flying .nop State.reset).runs .nop) ∧
    (State.reset.sequencerNext ∧ State.reset.status.busy = false) :=
  ⟨⟨.inl rfl, rfl, rfl, rfl⟩, ⟨.inr rfl, rfl, rfl, rfl⟩, .inl rfl, rfl⟩

/-- For each command: it can be in flight, and its completion next. -/
theorem witness_CompletionEndsRun (i : Instr) :
    (flying i State.reset).sequencerNext ∧ (flying i State.reset).runs i := ⟨.inl rfl, rfl, rfl, rfl⟩

/-- One state for each branch of the acceptance, in the order of R238. -/
theorem witness_AcceptanceOrder :
    (∀ w, (asking (cmdWrite w)).nextMove (.host (cmdWrite w)) ∧ (asking (cmdWrite w)).inReset = false) ∧
    (flying .l2 State.reset).status.busy = true ∧
    (failing.status.err = true ∧ (0x00000009#32 : Word) ≠ 0x0000000F#32) ∧
    ¬((0x0000000A#32 : Word).toNat ≤ 9 ∨ (0x0000000A#32 : Word) = 0x0000000F#32) ∧
    State.reset.status.lutValid = false ∧ State.reset.status.nnzFresh = false ∧
    ((0x00000009#32 : Word).toNat ≤ 9 ∧ (valid State.reset).status.lutValid = true ∧
      (valid State.reset).status.err = false) ∧ calm.status.nnzFresh = true :=
  ⟨fun _ => ⟨rfl, rfl⟩, rfl, ⟨rfl, by decide⟩, by decide, rfl, rfl, ⟨by decide, rfl, rfl⟩, rfl⟩

theorem witness_AcceptedCommandIsInFlight :
    calm.idle ∧ calm.status.lutValid = true ∧ calm.status.nnzFresh = true ∧ Instr.l1s ≠ .srst :=
  ⟨⟨rfl, rfl⟩, rfl, rfl, by decide⟩

theorem witness_ErrorStateAcceptsOnlySrst :
    (failing.failed ∧ failing.inReset = false) ∧
    ((9#32 : Word) ≠ encode .srst ∧ (coming [.host (cmdWrite 9#32)] failing).nextMove (.host (cmdWrite 9#32))) ∧
    ((coming [rd32 0x5000] failing).nextMove (rd32 0x5000) ∧
      WellFormed.request (request false 2#2 0x5000 0#32) = true ∧ regionOf 0x5000 = some .lut) ∧
    ((coming [wr8 0xFFFF 1#8] failing).nextMove (wr8 0xFFFF 1#8) ∧
      WellFormed.request (request true 0#2 0xFFFF 1#32) = true ∧ regionOf 0xFFFF = some .l1w ∧
      Region.l1w.writable = true) ∧
    (coming [.host (cmdWrite (encode .srst))] failing).nextMove (.host (cmdWrite (encode .srst))) :=
  ⟨⟨⟨rfl, rfl, rfl, by decide⟩, rfl⟩, ⟨by decide, rfl⟩, ⟨rfl, rfl, rfl⟩, ⟨rfl, rfl, rfl, rfl⟩, rfl⟩

theorem witness_SrstAcceptedInErrorState : failing.status.busy = false ∧ failing.status.err = true := ⟨rfl, rfl⟩

theorem witness_ErrorLeftOnlyBySrstOrReset :
    ∃ t, step (coming [.host (cmdWrite (encode .srst))] failing) = .next t ∧ failing.status.busy = false ∧
      failing.status.err = true ∧ t.status.err = false := ⟨_, rfl, rfl, rfl, rfl⟩

/-- A request for each cause of R66, and one with no cause. -/
theorem witness_BusErrorExactlyWhen :
    (∀ r, (asking r).nextMove (.host r) ∧ (asking r).inReset = false) ∧
    busError State.reset (request false 3#2 0x1000 0#32) = true ∧
    busError State.reset (request false 2#2 0x1002 0#32) = true ∧
    busError State.reset (request false 0#2 0x3D40 0#32) = true ∧
    busError State.reset (request false 1#2 0x0012 0#32) = true ∧
    busError State.reset (request true 0#2 0x5FFF 0#32) = true ∧
    busError (flying .l2 State.reset) (request false 2#2 0x1000 0#32) = true ∧
    busError failing (request true 2#2 0x0000 0x00000001#32) = true ∧
    busError State.reset (request true 0#2 0x3D3F 0#32) = false := by
  refine ⟨fun _ => ⟨rfl, rfl⟩, ?_⟩
  decide

theorem witness_RunLocksPort :
    (coming [rd32 4] (flying .l3 State.reset)).nextMove (rd32 4) ∧
    (coming [rd32 8] (flying .l3 State.reset)).nextMove (rd32 8) ∧
    (flying .l3 State.reset).inReset = false ∧ (flying .l3 State.reset).status.busy = true :=
  ⟨rfl, rfl, rfl, rfl⟩

/-- Each control register, and the first and last buffer address. -/
theorem witness_ReadsReturnRegistersAndBytes :
    (∀ r, (asking r).nextMove (.host r) ∧ (asking r).inReset = false) ∧
    (∀ a ∈ [0x0000, 0x0004, 0x0008, 0x000C, 0x0010, 0x1000, 0xFFFC],
      busError State.reset (request false 2#2 a 0#32) = false) ∧
    busError State.reset (request false 0#2 0xFFFF 0#32) = false ∧
    (busError (valid State.reset) (request false 1#2 0x5FFE 0#32) = false ∧
      (valid State.reset).status.lutValid = true) ∧
    ∀ p ∈ [(1#32, 0x3800), (512#32, 0x3BFE)],
      (busError { State.reset with nnzCount := p.1 } (request false 1#2 p.2 0#32) = false ∧
        p.2 + 2 ≤ 0x3800 + 2 * p.1.toNat) := by
  refine ⟨fun _ => ⟨rfl, rfl⟩, ?_⟩
  decide

/-- The bytes on both sides of the edges of `ACT`. -/
theorem witness_BufferWriteEffect :
    (∀ r, (asking r).nextMove (.host r) ∧ (asking r).inReset = false) ∧
    ∀ a ∈ [0x2FFF, 0x3000, 0x37FF], busError State.reset (request true 0#2 a 0xFF#32) = false ∧
      (request true 0#2 a 0xFF#32).addr ≠ 0x0000#16 := by
  refine ⟨fun _ => ⟨rfl, rfl⟩, ?_⟩
  decide

theorem witness_WriteThenReadBack :
    (∀ m n : Move, (coming [m, n] State.reset).schedule = [m, n]) ∧ State.reset.inReset = false ∧
    busError State.reset ⟨true, 0x1000#16, 2#2, 0x12345678#32⟩ = false ∧ 0x1000#16 ≠ 0x0000#16 ∧
    busError State.reset ⟨true, 0xFFFE#16, 1#2, 0x12345678#32⟩ = false ∧
    busError State.reset ⟨true, 0xFFFF#16, 0#2, 0x12345678#32⟩ = false := by
  refine ⟨fun _ _ => rfl, rfl, ?_⟩
  decide

/-- A step that sets the flag, steps that clear it, and an accepted L1S. -/
theorem witness_FreshFlagEvents :
    (∃ t, step (flying .nnz State.reset) = .next t ∧ t.status.nnzFresh = true) ∧
    (∃ t, step (flying .ftq calm) = .next t ∧ t.status.nnzFresh = false) ∧
    (∃ t, step (coming [wr8 0x3000 0#8] calm) = .next t ∧ t.status.nnzFresh = false) ∧
    ∃ t, calm.status.busy = false ∧ exec .l1s calm = .next t ∧ t.status.busy = true :=
  ⟨⟨_, flying_step .nnz State.reset rfl rfl, rfl⟩, ⟨_, flying_step .ftq calm rfl rfl, rfl⟩,
    ⟨_, rfl, rfl⟩, _, rfl, exec_of_idle .l1s rfl, rfl⟩

theorem witness_LutValidEvents :
    (∃ t, step (flying .init State.reset) = .next t ∧ t.status.lutValid = true) ∧
    (∃ t, step (flying .srst calm) = .next t ∧ t.status.lutValid = false) ∧
    ∃ t, step (coming [.assertReset] calm) = .next t ∧ t.status.lutValid = false :=
  ⟨⟨_, flying_step .init State.reset rfl rfl, rfl⟩, ⟨_, flying_step .srst calm rfl rfl, rfl⟩, _, rfl, rfl⟩

theorem witness_InputsChangeOnlyByHost :
    ∃ t, step (coming [wr8 0x1000 1#8] (holding .us [0#8])) = .next t ∧ Region.us.contains 0x1000 = true ∧
      t.byteAt 0x1000 ≠ (holding .us [0#8]).byteAt 0x1000 := ⟨_, rfl, rfl, by decide⟩

theorem witness_CommandFrame (i : Instr) : ∃ t, exec i (flying i State.reset) = .next t :=
  ⟨_, exec_of_busy i rfl⟩

/-- For the completion statements whose only hypotheses are that the command is in flight, or that the
block is idle, with a valid table or without. -/
theorem witness_completions :
    (flying .nop State.reset).runs .nop ∧ (flying .init State.reset).runs .init ∧
    (flying .ftq State.reset).runs .ftq ∧ (flying .nnz State.reset).runs .nnz ∧
    (flying .srst State.reset).runs .srst ∧ failing.status.busy = false ∧
    (State.reset.idle ∧ State.reset.status.lutValid = false) ∧
    (calm.idle ∧ calm.status.lutValid = true) ∧
    ((coming [.host (cmdWrite 15#32)] (flying .eval calm)).nextMove (.host (cmdWrite 0x0000000F#32)) ∧
      (flying .eval calm).inReset = false ∧ (flying .eval calm).status.busy = true) :=
  ⟨⟨rfl, rfl, rfl⟩, ⟨rfl, rfl, rfl⟩, ⟨rfl, rfl, rfl⟩, ⟨rfl, rfl, rfl⟩, ⟨rfl, rfl, rfl⟩, rfl,
    ⟨⟨rfl, rfl⟩, rfl⟩, ⟨⟨rfl, rfl⟩, rfl⟩, rfl, rfl, rfl⟩

theorem witness_InitIdempotent : calm.TableInv ∧ calm.status.lutValid = true ∧ calm.idle :=
  ⟨calm_inv.table, rfl, rfl, rfl⟩

theorem witness_NnzListsNonzeroGroups :
    (flying .nnz (valid (filled (withTable fun _ => 1#8)))).runs .nnz ∧
    (flying .nnz (valid (filled (withTable fun _ => 1#8)))).TableInv ∧
    (flying .nnz (valid (filled (withTable fun _ => 1#8)))).status.lutValid = true :=
  ⟨⟨rfl, rfl, rfl⟩, tableInv_flying _ _, rfl⟩

theorem witness_FtCompletes :
    (flying .ft (valid (filled (withTable fun _ => 1#8)))).runs .ft ∧
    (flying .ft (valid (filled (withTable fun _ => 1#8)))).TableInv ∧
    (flying .ft (valid (filled (withTable fun _ => 1#8)))).status.lutValid = true :=
  ⟨⟨rfl, rfl, rfl⟩, tableInv_flying _ _, rfl⟩

theorem witness_FtIsFtqThenNnz : calm.idle ∧ calm.status.lutValid = true := ⟨⟨rfl, rfl⟩, rfl⟩

theorem l1b_zeros (i : Instr) {j : Nat} (hj : j < 16) : (flying i zeros).l1b j = .fin false 0 := by
  rw [State.l1b, elem_zero (zeros_zero i []) rfl rfl (by simp only [Region.bytes]; omega) (by decide)]
  rfl

theorem witness_L1sCompletes :
    (flying .l1s zeros).runs .l1s ∧ ∀ j < 16, ((flying .l1s zeros).l1b j).isNaN = false :=
  ⟨⟨rfl, rfl, rfl⟩, fun _ hj => by rw [l1b_zeros _ hj]; rfl⟩

theorem witness_L1dCompletes :
    (flying .l1d zeros).runs .l1d ∧ ∀ j < 16, ((flying .l1d zeros).l1b j).isNaN = false :=
  ⟨⟨rfl, rfl, rfl⟩, fun _ hj => by rw [l1b_zeros _ hj]; rfl⟩

/-- Both commands, and a NaN at the first and the last lane. -/
theorem witness_L1NanBiasRaises :
    ∀ i ∈ [Instr.l1s, .l1d], ∀ j ∈ [0, 15], (oneWord i .l1b j 0x7FC00000#32).runs i ∧
      ((oneWord i .l1b j 0x7FC00000#32).l1b j).isNaN = true ∧
      ∀ k < j, ((oneWord i .l1b j 0x7FC00000#32).l1b k).isNaN = false := by
  intro i _ j hj
  have hj : j < 16 := by
    simp only [List.mem_cons, List.not_mem_nil, or_false] at hj
    omega
  have e : ∀ k < 16, (oneWord i .l1b j 0x7FC00000#32).l1b k =
      .unpack (if k = j then 0x7FC00000#32 else 0#32) := fun k hk =>
    congrArg F32.unpack (oneWord_read i .l1b j k _ rfl rfl (by simp only [Region.bytes]; omega)
      (by simp only [Region.bytes]; omega))
  refine ⟨⟨rfl, rfl, rfl⟩, by rw [e j hj, if_pos rfl]; rfl, fun k hk => ?_⟩
  rw [e k (by omega), if_neg (by omega)]
  rfl

theorem witness_L1SumFitsWord : (List.range 512).length ≤ 512 := by simp

theorem witness_SparseEqualsDense : calm.Inv ∧ calm.idle ∧ calm.status.nnzFresh = true :=
  ⟨calm_inv, ⟨rfl, rfl⟩, rfl⟩

theorem witness_L2Completes :
    (flying .l2 zeros).runs .l2 ∧ ∀ j < 32, (l2Pre (flying .l2 zeros) j).isNaN = false := by
  refine ⟨⟨rfl, rfl, rfl⟩, fun j hj => ?_⟩
  have h := zeros_zero .l2 []
  have hb := l2b_zero h (by decide) hj
  rw [l2Pre_of_zero h (by decide) (by decide) hj (by rw [hb]; exact fma_zero_zero), hb]
  rfl

/-- A NaN at the first and the last lane. -/
theorem witness_L2NanLaneRaises :
    ∀ j ∈ [0, 31], (oneWord .l2 .l2b j 0x7FC00000#32).runs .l2 ∧
      (l2Pre (oneWord .l2 .l2b j 0x7FC00000#32) j).isNaN = true ∧
      ∀ k < j, (l2Pre (oneWord .l2 .l2b j 0x7FC00000#32) k).isNaN = false := by
  intro j hj
  have hj : j < 32 := by
    simp only [List.mem_cons, List.not_mem_nil, or_false] at hj
    omega
  have hz := oneWord_zero .l2 .l2b j 0x7FC00000#32 rfl (by simp only [Region.bytes]; omega)
  have e : ∀ k < 32, (oneWord .l2 .l2b j 0x7FC00000#32).l2b k =
      .unpack (if k = j then 0x7FC00000#32 else 0#32) := fun k hk =>
    congrArg F32.unpack (oneWord_read .l2 .l2b j k _ rfl rfl (by simp only [Region.bytes]; omega)
      (by simp only [Region.bytes]; omega))
  refine ⟨⟨rfl, rfl, rfl⟩, ?_, fun k hk => ?_⟩
  · rw [l2Pre_of_zero hz (by decide) (by decide) hj (by rw [e j hj, if_pos rfl]; rfl), e j hj, if_pos rfl]
    rfl
  · have hk' := e k (by omega)
    rw [if_neg (by omega)] at hk'
    rw [l2Pre_of_zero hz (by decide) (by decide) (by omega) (by rw [hk']; exact fma_zero_zero), hk']
    rfl

theorem witness_L3Completes :
    (flying .l3 zeros).runs .l3 ∧ (l3Scaled (flying .l3 zeros)).i32Trunc = .ok 0 := by
  refine ⟨⟨rfl, rfl, rfl⟩, ?_⟩
  rw [l3Scaled_zero (zeros_zero .l3 []) (by decide) (by decide) (by decide)]
  rfl

theorem l3Scaled_oneWord (w : Word) : l3Scaled (oneWord .l3 .l3b 0 w) =
    F32.mul (F32.add (.unpack w) F32.zero) (.unpack Config.outputScaleF32) :=
  l3Scaled_of_zero (oneWord_zero .l3 .l3b 0 w rfl (by decide)) (by decide) (by decide)
    (oneWord_read .l3 .l3b 0 0 w rfl rfl (by decide) (by decide))

/-- A NaN, an infinity, and the boundary values of both signs (section 2.7). -/
theorem witness_L3ErrorsRaise :
    (oneWord .l3 .l3b 0 0x7FC00000#32).runs .l3 ∧ l3Scaled (oneWord .l3 .l3b 0 0x7FC00000#32) = .nan ∧
    l3Scaled (oneWord .l3 .l3b 0 0xFF800000#32) = .inf true ∧
    (∃ u, l3Scaled (oneWord .l3 .l3b 0 0x4AA3D70A#32) = .fin false u ∧ 2 ^ 31 * 2 ^ 149 ≤ u) ∧
    ∃ u, l3Scaled (oneWord .l3 .l3b 0 0xCAA3D70B#32) = .fin true u ∧ 2 ^ 31 * 2 ^ 149 < u := by
  refine ⟨⟨rfl, rfl, rfl⟩, ?_, ?_, ⟨2 ^ 180, ?_, by decide +kernel⟩, ⟨2 ^ 180 + 2 ^ 157, ?_, by decide +kernel⟩⟩
  all_goals rw [l3Scaled_oneWord]; decide +kernel

theorem witness_EvalCompletes :
    (flying .eval zeros).runs .eval ∧ ∃ u, evalStages (flying .eval zeros) = .ok u :=
  ⟨⟨rfl, rfl, rfl⟩, evalStages_zero (zeros_zero .eval _)⟩

theorem witness_BiasOnlyPath :
    (flying .eval zeros).runs .eval ∧ (∃ u, evalStages (flying .eval zeros) = .ok u) ∧
      ∀ i < 2048, (flying .eval zeros).us i = 0 ∧ (flying .eval zeros).them i = 0 := by
  refine ⟨⟨rfl, rfl, rfl⟩, evalStages_zero (zeros_zero .eval _), fun i hi => ?_⟩
  have e : ∀ a, 0x1000 ≤ a → a + 1 < 0x10000 → (flying .eval zeros).read16 a = 0#16 := by
    intro a h1 h2
    rw [State.read16, zeros_zero .eval [] a h1 (by omega) (by simp),
      zeros_zero .eval [] (a + 1) (by omega) h2 (by simp)]
    rfl
  refine ⟨?_, ?_⟩
  · rw [State.us, e _ (by simp only [Region.elem, Region.base]; omega)
      (by simp only [Region.elem, Region.base, Region.elemBytes]; omega)]
    rfl
  · rw [State.them, e _ (by simp only [Region.elem, Region.base]; omega)
      (by simp only [Region.elem, Region.base, Region.elemBytes]; omega)]
    rfl

theorem l1b_kept (s : State) {j : Nat} (hj : j < 16) : (nnzStage (ftqStage s)).l1b j = s.l1b j := by
  refine congrArg F32.unpack (State.read32_congr fun k hk => ?_)
  have out : ∀ q : Region, q ≠ .l1b → q.contains (Region.l1b.elem j + k) = false := by
    intro q hq
    by_contra hc
    exact hq (Region.disjoint (by simpa using hc) ((Region.contains_iff .l1b _).2
      (by simp only [Region.elem, Region.base, Region.elemBytes, Region.bytes]; omega)))
  rw [nnzStage_byteAt_out _ _ (out .nnz (by decide)), ftqStage_byteAt_out _ _ (out .act (by decide))]

theorem evalStages_error {s : State} (h : ZeroOutside [.nnz, .l1b] s) (hn : s.l1b 0 = .nan) :
    ∃ f, evalStages s = .error f := by
  obtain ⟨h1, h2⟩ := nnzStage_zero (ftqStage_zero h (by decide) (by decide)) (by decide) (by decide)
  have hb := l1b_kept s (j := 0) (by omega)
  rw [hn] at hb
  cases e : l1Stage (nnzStage (ftqStage s)) [] with
  | error f => exact ⟨f, by simp only [evalStages, h2, e]⟩
  | ok t =>
    obtain ⟨outs, -, hk, -⟩ := l1Stage_eq_ok e
    obtain ⟨r, hr, -⟩ := hk 0 (by omega)
    rw [l1Pre, hb, F32.fma_nan] at hr
    simp [F32.csq, F32.clip01] at hr

theorem witness_EvalErrorEntry :
    (oneWord .eval .l1b 0 0x7FC00000#32).runs .eval ∧
      ∃ f, evalStages (oneWord .eval .l1b 0 0x7FC00000#32) = .error f := by
  refine ⟨⟨rfl, rfl, rfl⟩, evalStages_error (fun a h1 h2 h3 => ?_) ?_⟩
  · exact oneWord_zero .eval .l1b 0 _ rfl (by decide) a h1 h2 fun r hr => h3 r (List.mem_cons_of_mem _ hr)
  · rw [State.l1b, oneWord_read .eval .l1b 0 0 _ rfl rfl (by decide) (by decide), if_pos rfl]
    decide +kernel

theorem witness_EvalIsStagesInSequence : calm.idle ∧ calm.status.lutValid = true := ⟨⟨rfl, rfl⟩, rfl⟩

theorem byteAt_ready (i : Instr) (f : Nat → Byte) {a : Nat} (h : 0x1000 ≤ a) (h' : a < 0x10000) :
    (flying i (valid (filled f))).byteAt a = f a := byteAt_filled f h h'

/-- The table, and a value in every byte of `ACT`. -/
def actByte (v : Byte) : Nat → Byte := withTable fun a => if Region.act.contains a then v else 0#8

/-- Two states that differ in `ACT`. -/
theorem witness_EvalDependsOnInputsOnly :
    (flying .eval (valid (filled (actByte 0#8)))).runs .eval ∧
    (flying .eval (valid (filled (actByte 1#8)))).runs .eval ∧
    (flying .eval (valid (filled (actByte 0#8)))).TableInv ∧
    (flying .eval (valid (filled (actByte 0#8)))).status.lutValid = true ∧
    (flying .eval (valid (filled (actByte 1#8)))).status.lutValid = true ∧
    (∀ v, (flying .eval (valid (filled (actByte v)))).fresh = 1) ∧
    (∀ v, (flying .eval (valid (filled (actByte v)))).byteAt 0x3000 = v) ∧
    ∀ r ∈ [Region.us, .them, .lut, .l1w, .l1b, .l2w, .l2b, .l3w, .l3b], ∀ a, r.contains a = true →
      (flying .eval (valid (filled (actByte 1#8)))).byteAt a =
        (flying .eval (valid (filled (actByte 0#8)))).byteAt a := by
  refine ⟨⟨rfl, rfl, rfl⟩, ⟨rfl, rfl, rfl⟩, tableInv_flying _ _, rfl, rfl, fun _ => rfl, fun v => ?_,
    fun r hr a ha => ?_⟩
  · rw [byteAt_ready _ _ (by omega) (by omega)]
    have hl : Region.lut.contains 0x3000 = false := by decide
    have ha : Region.act.contains 0x3000 = true := by decide
    simp only [actByte, withTable, hl, ha, Bool.false_eq_true, if_false, if_true]
  · have hb := (Region.contains_iff r a).1 ha
    have key : ∀ r ∈ [Region.us, .them, .lut, .l1w, .l1b, .l2w, .l2b, .l3w, .l3b],
        0x1000 ≤ r.base ∧ r.base + r.bytes ≤ 0x10000 ∧ r ≠ .act := by decide
    obtain ⟨k1, k2, k3⟩ := key r hr
    have hact : Region.act.contains a = false := by
      by_contra hc
      exact k3 (Region.disjoint ha (by simpa using hc))
    rw [byteAt_ready _ _ (by omega) (by omega), byteAt_ready _ _ (by omega) (by omega)]
    simp only [actByte, withTable, hact, Bool.false_eq_true, if_false]

/-- Accumulators 255, integer weights 1, float weights 1.0, biases 0, and the table. -/
def uniformByte : Nat → Byte := withTable fun a =>
  if a < 0x3000 then (if a % 2 = 0 then 0xFF#8 else 0#8)
  else if 0x8000 ≤ a then 1#8
  else if (0x4000 ≤ a ∧ a < 0x4800) ∨ (0x3E00 ≤ a ∧ a < 0x3E80) then
    (if a % 4 = 3 then 0x3F#8 else if a % 4 = 2 then 0x80#8 else 0#8)
  else 0#8

theorem uniform_words {b n : Nat} {x : F32} {i : Instr} (hb : 0x1000 ≤ b) (hn : b + 4 * n ≤ 0x10000)
    (hw : ∀ k < n, F32.unpack (wordOfBytes (uniformByte (b + 4 * k)) (uniformByte (b + 4 * k + 1))
      (uniformByte (b + 4 * k + 2)) (uniformByte (b + 4 * k + 3))) = x) (k : Nat) (hk : k < n) :
    F32.unpack ((flying i (valid (filled uniformByte))).read32 (b + 4 * k)) = x := by
  rw [State.read32, byteAt_ready i _ (by omega) (by omega), byteAt_ready i _ (by omega) (by omega),
    byteAt_ready i _ (by omega) (by omega), byteAt_ready i _ (by omega) (by omega)]
  exact hw k hk

theorem uniform_out {a : Nat} (h : a < 0x5000 ∨ 0x6000 ≤ a) : uniformByte a =
    if a < 0x3000 then (if a % 2 = 0 then 0xFF#8 else 0#8)
    else if 0x8000 ≤ a then 1#8
    else if (0x4000 ≤ a ∧ a < 0x4800) ∨ (0x3E00 ≤ a ∧ a < 0x3E80) then
      (if a % 4 = 3 then 0x3F#8 else if a % 4 = 2 then 0x80#8 else 0#8)
    else 0#8 := by
  refine if_neg ?_
  rw [Region.contains_iff]
  simp only [Region.base, Region.bytes]
  omega

theorem uniform_one {a : Nat} (h : (0x4000 ≤ a ∧ a + 3 < 0x4800) ∨ (0x3E00 ≤ a ∧ a + 3 < 0x3E80))
    (h4 : a % 4 = 0) : F32.unpack (wordOfBytes (uniformByte a) (uniformByte (a + 1)) (uniformByte (a + 2))
      (uniformByte (a + 3))) = .fin false (2 ^ 149) := by
  have e : ∀ k < 4, uniformByte (a + k) =
      (if k = 3 then 0x3F#8 else if k = 2 then 0x80#8 else 0#8) := by
    intro k hk
    rw [uniform_out (by omega), if_neg (by omega), if_neg (by omega), if_pos (by omega),
      show (a + k) % 4 = k by omega]
  rw [show uniformByte a = _ from e 0 (by omega), e 1 (by omega), e 2 (by omega), e 3 (by omega)]
  decide +kernel

theorem uniform_null {a : Nat} (h : (0x3D00 ≤ a ∧ a + 3 < 0x3E00) ∨ (0x3E80 ≤ a ∧ a + 3 < 0x4000)) :
    F32.unpack (wordOfBytes (uniformByte a) (uniformByte (a + 1)) (uniformByte (a + 2))
      (uniformByte (a + 3))) = .fin false 0 := by
  have e : ∀ k < 4, uniformByte (a + k) = 0#8 := by
    intro k hk
    rw [uniform_out (by omega), if_neg (by omega), if_neg (by omega), if_neg (by omega)]
  rw [show uniformByte a = _ from e 0 (by omega), e 1 (by omega), e 2 (by omega), e 3 (by omega)]
  decide +kernel

theorem uniform_255 {a : Nat} (h : 0x1000 ≤ a) (h' : a < 0x3000) (h2 : a % 2 = 0) (i : Instr) :
    ((flying i (valid (filled uniformByte))).read16 a).toInt = 255 := by
  rw [State.read16, byteAt_ready i _ (by omega) (by omega), byteAt_ready i _ h (by omega), uniform_out (by omega),
    uniform_out (by omega), if_pos (by omega), if_neg (by omega), if_pos (by omega), if_pos h2]
  rfl

theorem witness_UniformWeightsScore :
    let s := flying .eval (valid (filled uniformByte))
    s.runs .eval ∧ s.TableInv ∧ s.status.lutValid = true ∧
    (∀ i < 2048, s.us i = 255 ∧ s.them i = 255) ∧ (∀ n < 32768, s.l1w n = 1#8) ∧
    (∀ k < 512, s.l2w k = .fin false (2 ^ 149)) ∧ (∀ k < 32, s.l3w k = .fin false (2 ^ 149)) ∧
    (∀ j < 16, s.l1b j = .fin false 0) ∧ (∀ j < 32, s.l2b j = .fin false 0) ∧ s.l3b = .fin false 0 := by
  refine ⟨⟨rfl, rfl, rfl⟩, tableInv_flying _ _, rfl, fun i hi => ⟨?_, ?_⟩, fun n hn => ?_, ?_, ?_, ?_, ?_, ?_⟩
  · exact uniform_255 (by simp only [Region.elem, Region.base]; omega)
      (by simp only [Region.elem, Region.base, Region.elemBytes]; omega)
      (by simp only [Region.elem, Region.base, Region.elemBytes]; omega) _
  · exact uniform_255 (by simp only [Region.elem, Region.base]; omega)
      (by simp only [Region.elem, Region.base, Region.elemBytes]; omega)
      (by simp only [Region.elem, Region.base, Region.elemBytes]; omega) _
  · rw [State.l1w, byteAt_ready _ _ (by simp only [Region.elem, Region.base]; omega)
      (by simp only [Region.elem, Region.base, Region.elemBytes]; omega),
      uniform_out (by simp only [Region.elem, Region.base, Region.elemBytes]; omega),
      if_neg (by simp only [Region.elem, Region.base, Region.elemBytes]; omega),
      if_pos (by simp only [Region.elem, Region.base, Region.elemBytes]; omega)]
  · exact uniform_words (b := 0x4000) (by omega) (by omega) fun k hk => uniform_one (by omega) (by omega)
  · exact uniform_words (b := 0x3E00) (by omega) (by omega) fun k hk => uniform_one (by omega) (by omega)
  · exact uniform_words (b := 0x3D00) (by omega) (by omega) fun k hk => uniform_null (by omega)
  · exact uniform_words (b := 0x3D80) (by omega) (by omega) fun k hk => uniform_null (by omega)
  · exact uniform_words (b := 0x3E80) (n := 1) (by omega) (by omega) (fun k hk => uniform_null (by omega)) 0
      (by omega)

theorem witness_FiniteWeightsNeverNan :
    (flying .eval zeros).runs .eval ∧
    (∀ j < 16, ∃ n u, (flying .eval zeros).l1b j = .fin n u) ∧
    (∀ k < 512, ∃ n u, (flying .eval zeros).l2w k = .fin n u) ∧
    (∀ j < 32, ∃ n u, (flying .eval zeros).l2b j = .fin n u) ∧
    (∀ k < 32, ∃ n u, (flying .eval zeros).l3w k = .fin n u) ∧
    ∃ n u, (flying .eval zeros).l3b = .fin n u := by
  have h := zeros_zero .eval []
  have e : ∀ (q : Region) (k : Nat), q.isControl = false → q.elemBytes = 4 → 4 * k + 4 ≤ q.bytes →
      ∃ n u, F32.unpack ((flying .eval zeros).read32 (q.elem k)) = .fin n u := by
    intro q k hc h4 hk
    rw [elem_zero h hc h4 hk (by simp)]
    exact ⟨false, 0, rfl⟩
  exact ⟨⟨rfl, rfl, rfl⟩, fun j hj => e .l1b j rfl rfl (by simp only [Region.bytes]; omega),
    fun k hk => e .l2w k rfl rfl (by simp only [Region.bytes]; omega),
    fun j hj => e .l2b j rfl rfl (by simp only [Region.bytes]; omega),
    fun k hk => e .l3w k rfl rfl (by simp only [Region.bytes]; omega), e .l3b 0 rfl rfl (by decide)⟩

theorem witness_IntToFloatExact : (16777216 : Int).natAbs ≤ 2 ^ 24 ∧ (-16777216 : Int).natAbs ≤ 2 ^ 24 := by
  decide

/-- The lowest value that converts, and one below 1 (section 2.4). -/
theorem witness_TruncatesTowardZero :
    (F32.fin true (2 ^ 180)).i32Trunc = .ok (-2147483648) ∧
    (F32.fin false (2 ^ 149 - 1)).i32Trunc = .ok 0 ∧
    2 ^ 180 ≤ 2 ^ 31 * 2 ^ 149 ∧ 2 ^ 180 - 1 < 2 ^ 31 * 2 ^ 149 := by
  refine ⟨rfl, rfl, ?_⟩
  omega

/-- The values beside `1.0`, and a result. -/
theorem witness_ClipSquareRange :
    2 ^ 149 + 1 > 2 ^ 149 ∧ (∃ w, F32.unpack w = .fin false (2 ^ 149)) ∧
      ∃ r, (F32.inf false).csq = some r :=
  ⟨by omega, ⟨0x3F800000#32, rfl⟩, _, rfl⟩

/-- A nonzero and a zero exact result of the sum and of the fused multiply-add. -/
theorem witness_ArithmeticRoundsOnce :
    (signed false 1 + signed true 2) * 2 ^ 149 ≠ 0 ∧ (signed false 1 + signed true 1) * 2 ^ 149 = 0 ∧
    signed true 1 * signed false 1 + signed false 0 * 2 ^ 149 ≠ 0 ∧
    signed true 0 * signed false 1 + signed true 0 * 2 ^ 149 = 0 := by decide

/-- A NaN operand, both infinities, zero times infinity, and each form of an infinite product. -/
theorem witness_ArithmeticSpecialValues :
    F32.add .nan .one = .nan ∧ F32.add (.inf false) (.inf true) = .nan ∧
    F32.mul .zero (.inf true) = .nan ∧ F32.mul (.inf true) (.inf true) = .inf false ∧
    F32.mul (.inf true) .one = .inf true ∧ F32.fma .one (.inf false) .one = .inf false ∧
    F32.fma .one .one (.inf true) = .inf true := by decide

/-- The largest finite pattern, an infinity, and the smallest subnormal. -/
theorem witness_FloatPatternRoundTrip :
    (F32.unpack 0x7F7FFFFF#32).isNaN = false ∧ (F32.unpack 0xFF800000#32).isNaN = false ∧
      (F32.unpack 0x00000001#32).isNaN = false := by decide +kernel

theorem witness_InvariantKeptByStep : calm.Inv ∧ ∃ t, step calm = .next t := ⟨calm_inv, _, rfl⟩

theorem witness_StepNeverStops : calm.Inv := calm_inv

end Sys2Proof.Tests
end

section
/-! The events that set and clear `NNZ_FRESH` (spec/10_state.md R38). -/

namespace Sys2Proof.Machine

/-! ### The next move, and the flags when it acts -/

theorem State.not_nextMove_of_sequencerNext {s : State} {m : Move} (h : s.sequencerNext)
    (hm : m ≠ .complete) : ¬s.nextMove m := by
  intro hn
  rcases h with h | h
  · simp [State.nextMove, h] at hn
  · exact hm (Option.some.inj (hn.symm.trans h))

theorem State.not_sequencerNext_of_nextMove {s : State} {m : Move} (h : s.nextMove m)
    (hm : m ≠ .complete) : ¬s.sequencerNext :=
  fun hq => State.not_nextMove_of_sequencerNext hq hm h

/-- The schedule has one first move. -/
theorem State.nextMove_iff_eq {s : State} {m : Move} (h : s.nextMove m) (n : Move) :
    s.nextMove n ↔ m = n := by
  rw [State.nextMove, h, Option.some_inj]

@[simp] theorem State.hardwareReset_status (s : State) : s.hardwareReset.status = Status.zero := rfl
@[simp] theorem busError_taken (s : State) (r : Request) : busError s.taken r = busError s r := rfl

/-! ### What each operation does to the flag -/

theorem l3Stage_status {s t : State} (h : l3Stage s = .ok t) : t.status = s.status := by
  obtain ⟨n, -, rfl⟩ := l3Stage_eq_ok h; rfl

/-- EVAL without an error changes no flag but `NNZ_FRESH` before it completes (R214). -/
theorem evalStages_status {s t : State} (h : evalStages s = .ok t) :
    t.status = s.status.withFresh true := by
  simp only [evalStages] at h
  split at h
  · cases h
  · rename_i s2 h1
    split at h
    · cases h
    · rename_i s3 h2
      split at h
      · cases h
      · rename_i s4 h3
        cases h
        simp [l3Stage_status h3, l2Stage_status h2, l1Stage_status h1]

/-- A run whose results and losses keep `STATUS` keeps `NNZ_FRESH`. -/
theorem State.conclude_nnzFresh {s : State} {r : Except Failure State} {lose : State → State}
    (hr : ∀ t, r = .ok t → t.status = s.status) (hl : (lose s).status = s.status) :
    (s.conclude r lose).status.nnzFresh = s.status.nnzFresh := by
  rcases s.conclude_cases r lose with ⟨t, ht, h⟩ | ⟨f, -, h⟩
  · simp [h, hr t ht]
  · simp [h, hl]

/-- EVAL leaves `NNZ_FRESH` at 1 exactly if it ends without error. -/
theorem finishEval_nnzFresh (s : State) :
    (finishEval s).status.nnzFresh = (finishEval s).status.done := by
  rcases s.conclude_cases (evalStages s) loseEval with ⟨t, ht, h⟩ | ⟨f, -, h⟩
  · simp [finishEval, h, evalStages_status ht]
  · simp [finishEval, h]

/-- The completion of a command: NNZ, FT and EVAL set the flag where they end without error; SRST, FTQ
and an error of EVAL clear it; the other commands leave it alone. -/
theorem finishOf_nnzFresh_iff (i : Instr) (s : State) :
    (finishOf i s).status.nnzFresh = true ↔
      ((finishOf i s).status.done = true ∧ (i = .nnz ∨ i = .ft ∨ i = .eval)) ∨
      (s.status.nnzFresh = true ∧
        ¬(i = .srst ∨ i = .ftq ∨ (i = .eval ∧ (finishOf i s).status.done = false))) := by
  cases i with
  | nop => simp [finishOf]
  | init => simp [finishOf, finishInit]
  | ftq => simp [finishOf, finishFtq]
  | nnz => simp [finishOf, finishNnz]
  | ft => simp [finishOf, finishFt]
  | l1s => simp [finishOf, finishL1s, State.conclude_nnzFresh fun _ => l1Stage_status]
  | l1d => simp [finishOf, finishL1d, State.conclude_nnzFresh fun _ => l1Stage_status]
  | l2 => simp [finishOf, finishL2, State.conclude_nnzFresh fun _ => l2Stage_status]
  | l3 => simp [finishOf, finishL3, State.conclude_nnzFresh (fun _ => l3Stage_status) (loseScore_status s)]
  | eval => simp +contextual [finishOf, finishEval_nnzFresh]
  | srst => simp [finishOf, finishSrst, Status.afterSrst, Status.zero]

/-- Acceptance, and the error it may raise, leave the flag alone (R238). -/
theorem acceptOf_nnzFresh (i : Instr) (s : State) :
    (acceptOf i s).status.nnzFresh = s.status.nnzFresh := by
  unfold acceptOf
  split
  · simp [State.acceptSrst]
  · unfold State.accept
    split
    · rfl
    · split <;> simp

/-- L1S is accepted only where its precondition holds (R233). -/
theorem nnzFresh_of_acceptOf_l1s_busy {s : State} (hb : s.status.busy = false)
    (h : (acceptOf .l1s s).status.busy = true) : s.status.nnzFresh = true := by
  by_contra hf
  have hp : preconditionOf .l1s s = some .stale := by simp [preconditionOf, State.needsFresh, hf]
  cases he : s.status.err
  · simp [acceptOf, hp, State.accept_some _ _ he] at h
  · simp [acceptOf, State.accept_failed _ _ he, hb] at h

theorem issue_nnzFresh {w : Word} {s t : State} (hb : s.status.busy = false)
    (h : issue w s = .next t) : t.status.nnzFresh = s.status.nnzFresh := by
  rw [issue_next w hb] at h
  cases h
  cases decode w with
  | ok i => exact acceptOf_nnzFresh i s
  | error e => rfl

/-- A buffer write clears the flag exactly if it hits `ACT`. -/
theorem State.writeBuffer_nnzFresh_iff (s : State) (r : Request) :
    (s.writeBuffer r).status.nnzFresh = true ↔
      s.status.nnzFresh = true ∧ ¬Region.act.contains r.addr.toNat = true := by
  unfold State.writeBuffer
  split
  · rename_i hact; simp [hact]
  · rename_i hact; simp [hact]

/-- The bus lets no write through while a command is in flight (R69). -/
theorem not_busy_of_write {s : State} {r : Request} (hw : r.write = true)
    (h : busError s r = false) : s.status.busy = false := by
  by_contra hb
  have hr : r.readsStatus = false := by simp [Request.readsStatus, hw]
  simp [busError_of_busy (by simpa using hb) hr] at h

/-- A transaction clears the flag exactly if it is a successful write that hits `ACT`. -/
theorem transact_nnzFresh_iff {r : Request} {s t : State} (h : transact r s = .next t) :
    t.status.nnzFresh = true ↔ s.status.nnzFresh = true ∧
      ¬(busError s r = false ∧ r.write = true ∧ Region.act.contains r.addr.toNat = true) := by
  rcases transact_cases r s with ⟨hb, ht⟩ | ⟨-, hw, ht⟩ | ⟨hb, hw, ha, ht⟩ | ⟨hb, hw, -, ht⟩ <;>
    rw [ht] at h
  · cases h; simp [hb]
  · cases h; simp [hw]
  · have hact : Region.act.contains r.addr.toNat = false := by rw [ha]; rfl
    have hidle : (s.respond (.ok 0#32)).status.busy = false := not_busy_of_write hw hb
    simp [issue_nnzFresh hidle h, hact]
  · cases h; simp [State.writeBuffer_nnzFresh_iff, hb, hw]

/-! ### The flag over a step -/

/-- The step from `s` to `t` completes NNZ, FT or EVAL without error. -/
def State.setsFresh (s t : State) : Prop :=
  s.sequencerNext ∧ s.status.busy = true ∧ t.status.done = true ∧
    (s.inFlight = .ok .nnz ∨ s.inFlight = .ok .ft ∨ s.inFlight = .ok .eval)

/-- The step from `s` to `t` is a reset, completes SRST or FTQ, ends an EVAL in an error, or is a
successful write that hits `ACT`. -/
def State.clearsFresh (s t : State) : Prop :=
  s.nextMove .assertReset ∨
    (s.sequencerNext ∧ s.status.busy = true ∧
      (s.inFlight = .ok .srst ∨ s.inFlight = .ok .ftq ∨
        (s.inFlight = .ok .eval ∧ t.status.done = false))) ∨
    ∃ r, s.nextMove (.host r) ∧ s.inReset = false ∧ busError s r = false ∧ r.write = true ∧
      0x3000 ≤ r.addr.toNat ∧ r.addr.toNat ≤ 0x37FF

/-- `ACT` lies at `0x3000 .. 0x37FF` (R67). -/
theorem Region.act_contains_iff (a : Nat) :
    Region.act.contains a = true ↔ 0x3000 ≤ a ∧ a ≤ 0x37FF := by
  rw [Region.contains_iff]
  simp only [Region.base, Region.bytes]
  omega

theorem State.not_setsFresh_of_nextMove {s : State} {m : Move} (h : s.nextMove m)
    (hm : m ≠ .complete) (t : State) : ¬s.setsFresh t :=
  fun hs => State.not_sequencerNext_of_nextMove h hm hs.1

theorem State.clearsFresh_iff_of_sequencerNext {s : State} (h : s.sequencerNext) (t : State) :
    s.clearsFresh t ↔ s.status.busy = true ∧
      (s.inFlight = .ok .srst ∨ s.inFlight = .ok .ftq ∨
        (s.inFlight = .ok .eval ∧ t.status.done = false)) := by
  have hn : ∀ m, m ≠ .complete → ¬s.nextMove m := fun _ => State.not_nextMove_of_sequencerNext h
  simp [State.clearsFresh, h, hn]

theorem State.clearsFresh_iff_of_host {s : State} {r : Request} (h : s.nextMove (.host r))
    (t : State) : s.clearsFresh t ↔ s.inReset = false ∧ busError s r = false ∧ r.write = true ∧
      Region.act.contains r.addr.toNat = true := by
  have hq := State.not_sequencerNext_of_nextMove h (by simp)
  simp [State.clearsFresh, hq, State.nextMove_iff_eq h, Region.act_contains_iff]

/-- R38: the flag after a step. -/
theorem step_nnzFresh_iff {s t : State} (h : step s = .next t) :
    t.status.nnzFresh = true ↔ s.setsFresh t ∨ (s.status.nnzFresh = true ∧ ¬s.clearsFresh t) := by
  rcases step_cases s with ⟨hq, hs⟩ | ⟨r, hm, hs⟩ | ⟨hm, hs⟩ | ⟨hm, hs⟩ <;> rw [hs] at h
  · rw [State.clearsFresh_iff_of_sequencerNext hq]
    rcases sequencer_cases h with ⟨hb, rfl⟩ | ⟨i, hb, hi, rfl⟩
    · change s.status.busy = false at hb
      simp [State.setsFresh, hb]
    · change s.status.busy = true at hb
      change s.inFlight = .ok i at hi
      simp [finishOf_nnzFresh_iff, State.setsFresh, hq, hb, hi]
  · rw [State.clearsFresh_iff_of_host hm]
    have hset := State.not_setsFresh_of_nextMove hm (by simp) t
    split at h
    · rename_i hreset
      cases h
      simp [hset, hreset]
    · rename_i hreset
      rw [transact_nnzFresh_iff h]
      simp [hset, hreset]
  · have hset := State.not_setsFresh_of_nextMove hm (by simp) t
    have hclear : s.clearsFresh t := .inl hm
    cases h
    simp [hset, hclear, Status.zero]
  · have hset := State.not_setsFresh_of_nextMove hm (by simp) t
    have hclear : ¬s.clearsFresh t := by
      have hq := State.not_sequencerNext_of_nextMove hm (by simp)
      simp [State.clearsFresh, hq, State.nextMove_iff_eq hm]
    cases h
    simp [hset, hclear]

/-- Settles O19: the flag after each kind of step, and the precondition of L1S at its acceptance. -/
theorem freshFlagEvents : Obligations.FreshFlagEvents := by
  unfold Obligations.FreshFlagEvents
  refine ⟨fun s t h => step_nnzFresh_iff h, fun s t hb h ht => ?_⟩
  rw [exec_of_idle .l1s hb] at h
  cases h
  exact nnzFresh_of_acceptOf_l1s_busy hb ht

end Sys2Proof.Machine
end

section
/-! The seven causes of `buserr` over the address map (spec/20_memory.md R66 to R69), and what a
refused and an allowed transaction answer. -/

namespace Sys2Proof.Machine

/-! ### The ranges of the map as address intervals -/

/-- A property of some range, as a search through the map. -/
theorem Region.exists_iff_exists_mem_all (p : Region → Prop) : (∃ g, p g) ↔ ∃ g ∈ Region.all, p g :=
  exists_congr fun g => (and_iff_right g.mem_all).symm

/-- The reserved ranges of R67. -/
def ReservedAddr (b : Nat) : Prop :=
  (0x0014 ≤ b ∧ b ≤ 0x0FFF) ∨ (0x3D40 ≤ b ∧ b ≤ 0x3D7F) ∨ (0x3E84 ≤ b ∧ b ≤ 0x3FFF) ∨
    (0x4800 ≤ b ∧ b ≤ 0x4FFF) ∨ (0x6000 ≤ b ∧ b ≤ 0x7FFF)

/-- The locations of R68 that the host may read and not write. -/
def ReadOnlyAddr (a : Nat) : Prop :=
  (0x0004 ≤ a ∧ a ≤ 0x0013) ∨ (0x3800 ≤ a ∧ a ≤ 0x3BFF) ∨ (0x3C40 ≤ a ∧ a ≤ 0x3C7F) ∨
    (0x5000 ≤ a ∧ a ≤ 0x5FFF)

/-- The addresses of the host space that no range holds are the reserved ones. -/
theorem regionOf_eq_none_iff_reservedAddr {b : Nat} (hb : b < 0x10000) :
    regionOf b = none ↔ ReservedAddr b := by
  rw [regionOf, List.find?_eq_none]
  simp only [Region.all, List.mem_cons, List.not_mem_nil, or_false, forall_eq_or_imp, forall_eq,
    Region.contains_iff, Region.base, Region.bytes, ReservedAddr]
  omega

/-- The control registers lie at `0x0000 .. 0x0013`. -/
theorem exists_isControl_contains_iff (a : Nat) :
    (∃ g : Region, g.contains a = true ∧ g.isControl = true) ↔ a ≤ 0x0013 := by
  rw [Region.exists_iff_exists_mem_all]
  simp only [Region.all, List.mem_cons, List.not_mem_nil, or_false, exists_eq_or_imp, exists_eq_left,
    Region.contains_iff, Region.base, Region.bytes, Region.isControl, Bool.false_eq_true, and_true,
    and_false]
  omega

theorem exists_not_writable_contains_iff (a : Nat) :
    (∃ g : Region, g.contains a = true ∧ g.writable = false) ↔ ReadOnlyAddr a := by
  rw [Region.exists_iff_exists_mem_all]
  simp only [Region.all, List.mem_cons, List.not_mem_nil, or_false, exists_eq_or_imp, exists_eq_left,
    Region.contains_iff, Region.base, Region.bytes, Region.writable, Bool.true_eq_false, and_true,
    and_false, false_or, ReadOnlyAddr]
  omega

/-! ### The checks on a request -/

theorem Request.hitsControl_iff (r : Request) : r.hitsControl = true ↔ r.addr.toNat ≤ 0x0013 := by
  rw [← exists_isControl_contains_iff]
  simp only [← regionOf_eq_some_iff, Request.hitsControl]
  cases regionOf r.addr.toNat <;> simp

theorem Request.hitsReadOnly_iff (r : Request) :
    r.hitsReadOnly = true ↔ ReadOnlyAddr r.addr.toNat := by
  rw [← exists_not_writable_contains_iff]
  simp only [← regionOf_eq_some_iff, Request.hitsReadOnly]
  cases regionOf r.addr.toNat <;> simp

theorem Request.bytes_eq_four_iff (r : Request) : r.bytes = 4 ↔ r.size = 2#2 := by
  have key : ∀ z : BitVec 2, 2 ^ z.toNat = 4 ↔ z = 2#2 := by decide
  exact key r.size

/-- The sizes that are not reserved divide the size of the host space. -/
theorem Request.bytes_dvd_of_size {r : Request} (hs : r.size ≠ 3#2) : r.bytes ∣ 0x10000 := by
  have key : ∀ z : BitVec 2, z ≠ 3#2 → 2 ^ z.toNat ∣ 0x10000 := by decide
  exact key r.size hs

/-- An aligned access stays inside the host space. -/
theorem Request.addr_add_lt {r : Request} (hs : r.size ≠ 3#2) (ha : r.addr.toNat % r.bytes = 0)
    {k : Nat} (hk : k < r.bytes) : r.addr.toNat + k < 0x10000 := by
  have hmod : r.addr.toNat ≡ 0x10000 [MOD r.bytes] :=
    ha.trans (Nat.mod_eq_zero_of_dvd (Request.bytes_dvd_of_size hs)).symm
  have hend : r.addr.toNat + r.bytes ≤ 0x10000 := hmod.add_le_of_lt r.addr.isLt
  omega

theorem Request.hitsReserved_iff {r : Request} (hs : r.size ≠ 3#2)
    (ha : r.addr.toNat % r.bytes = 0) :
    r.hitsReserved = true ↔ ∃ k < r.bytes, ReservedAddr (r.addr.toNat + k) := by
  simp only [Request.hitsReserved, List.any_eq_true, List.mem_range, Option.isNone_iff_eq_none]
  exact exists_congr fun k => and_congr_right fun hk =>
    regionOf_eq_none_iff_reservedAddr (Request.addr_add_lt hs ha hk)

theorem Request.readsStatus_iff (r : Request) :
    r.readsStatus = true ↔ r.write = false ∧ r.addr.toNat = 0x0004 ∧ r.bytes = 4 := by
  simp [Request.readsStatus, Request.bytes_eq_four_iff, Region.base, and_assoc]

/-- The one access that R69 allows, signal by signal. -/
theorem Request.readsStatus_iff_signals (r : Request) :
    r.readsStatus = true ↔ r.write = false ∧ r.addr = 0x0004#16 ∧ r.size = 2#2 := by
  simp [Request.readsStatus, Region.base, ← BitVec.toNat_inj, and_assoc]

theorem Request.issuesOther_iff (r : Request) : r.issuesOther = true ↔
    r.write = true ∧ r.addr.toNat = 0x0000 ∧ r.wdata ≠ 0x0000000F#32 := by
  simp [Request.issuesOther, Region.base, and_assoc, show encode .srst = 0x0000000F#32 from rfl]

/-! ### The seven causes -/

/-- One of the seven causes of R66, in their order. -/
def BusCause (s : State) (r : Request) : Prop :=
  r.size = 3#2 ∨ r.addr.toNat % r.bytes ≠ 0 ∨ (∃ k < r.bytes, ReservedAddr (r.addr.toNat + k)) ∨
    (r.addr.toNat ≤ 0x0013 ∧ r.bytes ≠ 4) ∨ (r.write = true ∧ ReadOnlyAddr r.addr.toNat) ∨
    (s.status.busy = true ∧ ¬(r.write = false ∧ r.addr.toNat = 0x0004 ∧ r.bytes = 4)) ∨
    (r.write = true ∧ r.addr.toNat = 0x0000 ∧ s.status.err = true ∧ r.wdata ≠ 0x0000000F#32)

/-- The bus refuses a transaction exactly for the causes of R66. -/
theorem busError_iff_busCause (s : State) (r : Request) : busError s r = true ↔ BusCause s r := by
  by_cases hs : r.size = 3#2
  · simp [busError, BusCause, WellFormed.requestSize, hs]
  by_cases ha : r.addr.toNat % r.bytes = 0
  · have hsize : (r.size != 2#2) = true ↔ r.bytes ≠ 4 := by simp [Request.bytes_eq_four_iff]
    have hstatus : r.readsStatus = false ↔
        ¬(r.write = false ∧ r.addr.toNat = 0x0004 ∧ r.bytes = 4) := by
      rw [← Request.readsStatus_iff, Bool.not_eq_true]
    have hcmd : (s.status.err = true ∧ r.issuesOther = true) ↔ (r.write = true ∧
        r.addr.toNat = 0x0000 ∧ s.status.err = true ∧ r.wdata ≠ 0x0000000F#32) := by
      rw [Request.issuesOther_iff]
      exact ⟨fun ⟨he, hw, h0, hd⟩ => ⟨hw, h0, he, hd⟩, fun ⟨hw, h0, he, hd⟩ => ⟨he, hw, h0, hd⟩⟩
    simp [busError, BusCause, WellFormed.requestSize, WellFormed.requestAligned, hs, ha, hcmd,
      hsize, Request.hitsReserved_iff hs ha, Request.hitsControl_iff, Request.hitsReadOnly_iff,
      hstatus, or_assoc]
  · simp [busError, BusCause, WellFormed.requestAligned, ha]

/-! ### What a transaction answers -/

/-- Out of reset, a step on the host's move is its transaction. -/
theorem step_of_host {s : State} {r : Request} (h : s.nextMove (.host r)) (hr : s.inReset = false) :
    step s = transact r s.taken := by
  rw [step_of_nextMove h]
  exact if_neg (by simp [hr])

/-- A refused transaction changes nothing but the port (R62, R66). -/
theorem step_of_busError {s : State} {r : Request} (h : s.nextMove (.host r))
    (hr : s.inReset = false) (he : busError s r = true) :
    step s = .next (s.taken.respond .buserr) := by
  rw [step_of_host h hr]
  exact if_pos he

/-- An allowed read changes nothing but the port (R62). -/
theorem step_of_read {s : State} {r : Request} (h : s.nextMove (.host r))
    (hr : s.inReset = false) (he : busError s r = false) (hw : r.write = false) :
    step s = .next (s.taken.respond (.ok (s.readValue r))) := by
  rw [step_of_host h hr, transact, if_neg (by simp [he]), if_neg (by simp [hw])]
  rfl

/-- Acceptance, and the error it may raise, leave the port alone. -/
theorem acceptOf_response (i : Instr) (s : State) : (acceptOf i s).response = s.response := by
  unfold acceptOf
  split
  · rfl
  · cases he : s.status.err
    · cases preconditionOf i s <;> simp [State.accept, he]
    · rw [State.accept_failed _ _ he]

/-- A word written to `CMD` leaves the port's response as it was given. -/
theorem issue_response {w : Word} {s : State} (hb : s.status.busy = false) :
    ∃ t, issue w s = .next t ∧ t.response = s.response := by
  refine ⟨_, issue_next w hb, ?_⟩
  cases decode w with
  | ok i => exact acceptOf_response i s
  | error e => rfl

/-- A transaction that is not refused answers `ok` (R66). -/
theorem transact_ok {s : State} {r : Request} (he : busError s r = false) :
    ∃ t v, transact r s = .next t ∧ t.response = some (.ok v) := by
  rcases transact_cases r s with ⟨hb, -⟩ | ⟨-, -, ht⟩ | ⟨-, hw, -, ht⟩ | ⟨-, -, -, ht⟩
  · simp [he] at hb
  · exact ⟨_, _, ht, rfl⟩
  · obtain ⟨t, hi, hp⟩ := issue_response (w := r.wdata) (s := s.respond (.ok 0#32))
      (not_busy_of_write hw he)
    exact ⟨t, _, ht.trans hi, hp⟩
  · exact ⟨_, _, ht, rfl⟩

/-- Settles O13: the model's check is the list of causes, a refused transaction is answered by
`buserr` alone, and any other by `ok`. -/
theorem busErrorExactlyWhen : Obligations.BusErrorExactlyWhen := by
  intro s r h hr
  change (BusCause s r → _) ∧ (¬BusCause s r → _)
  refine ⟨fun hc => step_of_busError h hr ((busError_iff_busCause s r).2 hc), fun hc => ?_⟩
  rw [step_of_host h hr]
  exact transact_ok (Bool.eq_false_iff.2 (mt (busError_iff_busCause s r).1 hc))

/-! ### The port during a run -/

/-- The bus never refuses a 4-byte read of `STATUS` (R69). -/
theorem busError_of_readsStatus (s : State) {r : Request} (h : r.readsStatus = true) :
    busError s r = false := by
  obtain ⟨hw, ha, hz⟩ := (Request.readsStatus_iff_signals r).1 h
  obtain ⟨write, addr, size, wdata⟩ := r
  subst hw ha hz
  have hreserved : Request.hitsReserved ⟨false, 0x0004#16, 2#2, wdata⟩ = false := rfl
  simp [busError, h, hreserved, WellFormed.requestSize, WellFormed.requestAligned, Request.bytes,
    Request.issuesOther]

theorem State.readValue_of_readsStatus (s : State) {r : Request} (h : r.readsStatus = true) :
    s.readValue r = s.status.word := by
  obtain ⟨-, ha, -⟩ := (Request.readsStatus_iff r).1 h
  rw [State.readValue, ha]
  rfl

/-- Settles O14: a read of `STATUS` is never refused and gives its word, and during a run the bus
refuses everything else. -/
theorem runLocksPort : Obligations.RunLocksPort := by
  intro s r h hr hb
  have hiff := Request.readsStatus_iff_signals r
  by_cases hs : r.readsStatus = true
  · rw [if_pos (hiff.1 hs), step_of_read h hr (busError_of_readsStatus s hs) (hiff.1 hs).1,
      State.readValue_of_readsStatus _ hs]
    rfl
  · rw [if_neg (mt hiff.2 hs)]
    exact step_of_busError h hr (busError_of_busy hb (Bool.eq_false_iff.2 hs))

end Sys2Proof.Machine
end

section
/-! O2 (R100, R101, R102): the decoder and the encoder agree. The two fields of a command word
determine it, and the opcode map is the inverse of `opcode`. -/

namespace Sys2Proof

/-- The opcode map of R102 gives a command for its own opcode and for no other byte. -/
theorem decodeOp_eq_some_iff {op : BitVec 8} {i : Instr} : decodeOp op = some i ↔ op = opcode i := by
  constructor
  · intro h
    unfold decodeOp at h
    split at h <;> cases h <;> exact BitVec.eq_of_toNat_eq ‹_›
  · rintro rfl
    cases i <;> rfl

/-- A word's fields `ZERO` and `OP` (R100) fix it. -/
theorem eq_encode_iff {w : Word} {i : Instr} :
    w = encode i ↔ WellFormed.zeroField w = true ∧ WellFormed.op w = opcode i := by
  constructor
  · rintro rfl
    cases i <;> exact ⟨rfl, rfl⟩
  · rintro ⟨hz, ho⟩
    calc w = w.extractLsb' 0 32 := BitVec.extractLsb'_eq_self.symm
      _ = w.extractLsb' 8 24 ++ WellFormed.op w :=
        (BitVec.extractLsb'_append_extractLsb'_eq_extractLsb' (Nat.zero_add 8).symm).symm
      _ = encode i := by rw [eq_of_beq hz, ho, encode]

/-- R101 by the fields of the word: `ZERO` is 0 and the opcode map gives the command. -/
theorem decode_eq_ok_iff_fields {w : Word} {i : Instr} :
    decode w = .ok i ↔ WellFormed.zeroField w = true ∧ decodeOp (WellFormed.op w) = some i := by
  unfold decode
  split
  next hz => cases decodeOp (WellFormed.op w) <;> simp [hz]
  next hz => simp [hz]

/-- A word decodes to a command exactly when it is the command's word (R101). -/
theorem decode_eq_ok_iff {w : Word} {i : Instr} : decode w = .ok i ↔ w = encode i := by
  rw [decode_eq_ok_iff_fields, decodeOp_eq_some_iff, eq_encode_iff]

/-- Settles O2: decoding inverts encoding, so a word that is no command's decodes to an error. -/
theorem decodeSelectsExactWord : Obligations.DecodeSelectsExactWord := by
  refine ⟨fun w i => decode_eq_ok_iff, fun w hw => ?_⟩
  cases h : decode w with
  | ok i => exact absurd (decode_eq_ok_iff.1 h) (hw i)
  | error e => exact ⟨e, rfl⟩

end Sys2Proof
end

section
/-! The housekeeping commands (spec/41_init_lut.md R150, R151, R154): acceptance of a command from an
idle state, the table that INIT stores, and the state that SRST leaves. -/

namespace Sys2Proof.Machine

/-! ### The two phases of a command -/

/-- From an idle state a command whose precondition holds is accepted, which changes `STATUS` only
(R238 step 7). -/
theorem exec_of_accepted {i : Instr} {s : State} (h : s.idle) (hi : i ≠ .srst)
    (hp : preconditionOf i s = none) :
    exec i s = .next { s with
      status := { s.status with busy := true, done := false, cur := curOf i } } := by
  rw [exec_of_idle i h.1, acceptOf, if_neg hi, hp, State.accept_none i h.2]
  rfl

/-- Completion keeps the latched `CUR` (R240). -/
theorem Status.completed_of_cur {f : Status} {c : BitVec 4} (h : f.cur = c) :
    f.completed = { f with busy := false, done := true, cur := c } := by
  subst h
  rfl

/-- A run whose acceptance puts the command in flight ends with the command's effect (R108). -/
theorem runCommand_of_accepted {i : Instr} {s t : State} (ha : exec i s = .next t)
    (hb : t.status.busy = true) : runCommand i s = .next (finishOf i t) := by
  simp [runCommand, ha, hb, exec_of_busy i hb]

theorem SamePort.trans {s t u : State} (hst : SamePort s t) (htu : SamePort t u) : SamePort s u where
  response := htu.response.trans hst.response
  inReset := htu.inReset.trans hst.inReset
  schedule := htu.schedule.trans hst.schedule
  epoch := htu.epoch.trans hst.epoch

/-! ### NOP -/

/-- Settles O23: NOP has no precondition, and its effect is the completion alone. -/
theorem nopCompletes : Obligations.NopCompletes := by
  refine ⟨fun s h => exec_of_accepted h (by decide) rfl, fun s h => ?_⟩
  obtain ⟨hbusy, -, hcur⟩ := h
  rw [exec_of_busy .nop hbusy, finishOf, State.complete, Status.completed_of_cur hcur]
  rfl

/-! ### INIT -/

/-- INIT stores the set-bit positions of `m` in entry `m`, then padding 0 (R151, R153). -/
theorem finishInit_lut (s : State) {m e : Nat} (hm : m < 256) (he : e < 8) :
    (finishInit s).lut m e = BitVec.ofNat 16 ((setBits m).getD e 0) := by
  have hlt : 8 * m + e < tableContents.length := by rw [length_tableContents]; omega
  calc (finishInit s).lut m e
      = (s.writeHalves Region.lut.base tableContents).read16 (Region.lut.base + 2 * (8 * m + e)) := rfl
    _ = tableContents[8 * m + e] := s.read16_writeHalves _ _ _ hlt
    _ = BitVec.ofNat 16 ((setBits m).getD e 0) :=
        (List.getElem_eq_iff hlt).2 (getElem?_tableContents hm he)

/-- INIT writes `LUT` only. -/
theorem finishInit_byteAt_out (s : State) (a : Nat) (h : Region.lut.contains a = false) :
    (finishInit s).byteAt a = s.byteAt a := by
  have hout := mt (Region.contains_iff .lut a).2 (by simp [h])
  simp only [Region.bytes] at hout
  apply State.byteAt_writeHalves_out
  rw [length_tableContents]
  omega

theorem finishInit_samePort (s : State) : SamePort s (finishInit s) := ⟨rfl, rfl, rfl, rfl⟩

theorem finishInit_status {s : State} {c : BitVec 4} (h : s.status.cur = c) :
    (finishInit s).status =
      { s.status with lutValid := true, busy := false, done := true, cur := c } :=
  Status.completed_of_cur (f := s.status.withLutValid) h

/-- Settles O24: INIT has no precondition, its effect is the table of R152, and its frame is `LUT`. -/
theorem initCompletes : Obligations.InitCompletes := by
  refine ⟨fun s h => exec_of_accepted h (by decide) rfl, fun s h => ?_⟩
  obtain ⟨hbusy, -, hcur⟩ := h
  exact ⟨finishInit s, exec_of_busy .init hbusy, fun m hm e he => finishInit_lut s hm he,
    finishInit_status hcur, fun a ha => finishInit_byteAt_out s a (ha .lut List.mem_cons_self),
    finishInit_samePort s, rfl, rfl, rfl⟩

/-! ### SRST -/

/-- `t` is what a completed SRST leaves of `s` (R154). -/
def SrstEnd (s t : State) : Prop :=
  t.status.word = 0x0000F002#32 ∧ t.errinfo = 0#32 ∧ t.nnzCount = 0#32 ∧ t.score = 0#32 ∧
    SameBytesOutside [.nnz] s t ∧ SamePort s t

theorem finishSrst_samePort (s : State) : SamePort s (finishSrst s) := by
  constructor <;> simp [finishSrst]

/-- SRST's effect makes the elements of `NNZ` unspecified and keeps every other byte. -/
theorem finishSrst_sameBytesOutside (s : State) : SameBytesOutside [.nnz] s (finishSrst s) :=
  s.byteAt_forgetAll_out [.nnz]

theorem Status.word_afterSrst : Status.afterSrst.word = 0x0000F002#32 := by decide

theorem srstEnd_finishSrst (s : State) : SrstEnd s (finishSrst s) :=
  ⟨Status.word_afterSrst, rfl, rfl, rfl, finishSrst_sameBytesOutside s, finishSrst_samePort s⟩

theorem State.acceptSrst_samePort (s : State) : SamePort s s.acceptSrst := ⟨rfl, rfl, rfl, rfl⟩

/-- The acceptance of SRST stores no byte and leaves the port alone, so it does not show in the end. -/
theorem SrstEnd.of_acceptSrst {s t : State} (h : SrstEnd s.acceptSrst t) : SrstEnd s t := by
  obtain ⟨hstatus, hinfo, hcount, hscore, hbytes, hport⟩ := h
  exact ⟨hstatus, hinfo, hcount, hscore, hbytes, s.acceptSrst_samePort.trans hport⟩

/-- A run of SRST from a state with `BUSY = 0`, in the error state too (R242). -/
theorem runCommand_srst {s : State} (h : s.status.busy = false) :
    runCommand .srst s = .next (finishSrst s.acceptSrst) :=
  runCommand_of_accepted (exec_of_idle .srst h) rfl

/-- Settles O26: while `BUSY = 1` the bus refuses the write (R69); in flight, and run from `BUSY = 0`,
SRST ends in the state of R154. -/
theorem srstCompletes : Obligations.SrstCompletes := by
  refine ⟨fun s h hr hb => step_of_busError h hr (busError_of_busy hb rfl), fun s h => ?_,
    fun s h => ?_⟩
  · exact ⟨_, exec_of_busy .srst h.1, srstEnd_finishSrst s⟩
  · exact ⟨_, runCommand_srst h, (srstEnd_finishSrst s.acceptSrst).of_acceptSrst⟩

end Sys2Proof.Machine
end

section
/-! The feature transform's commands (spec/42_feature_transform.md R160, R162, R166, R167): what FTQ and
NNZ leave in `ACT` and `NNZ`, their frames, and the error of NNZ without a table. -/

namespace Sys2Proof.Machine

/-! ### Completion, and a precondition that does not hold -/

/-- A completion that sets or clears `NNZ_FRESH` keeps the latched `CUR` (R38, R240). -/
theorem Status.completed_withFresh_of_cur {f : Status} {c : BitVec 4} (h : f.cur = c) (b : Bool) :
    (f.withFresh b).completed = { f with nnzFresh := b, busy := false, done := true, cur := c } :=
  Status.completed_of_cur (f := f.withFresh b) h

/-- Error entry at acceptance finds `BUSY` at 0 already (R239). -/
theorem Status.raised_of_not_busy {f : Status} {k : ErrorKind} (h : f.busy = false) :
    f.raised k = { f with err := true, errcode := k.code, done := false } := by
  simp only [Status.raised, h]

/-- From an idle state a command whose precondition does not hold raises its error, with the command's
word in `ERRINFO` (R238 step 6, R239). -/
theorem exec_of_precondition {i : Instr} {s : State} {k : ErrorKind} (h : s.idle) (hi : i ≠ .srst)
    (hp : preconditionOf i s = some k) :
    exec i s = .next { s with
      status := { s.status with err := true, errcode := k.code, done := false }
      errinfo := encode i } := by
  obtain ⟨hbusy, herr⟩ := h
  rw [exec_of_idle i hbusy, acceptOf, if_neg hi, hp, State.accept_some i k herr, State.raise,
    Status.raised_of_not_busy hbusy]
  rfl

/-! ### FTQ -/

/-- FTQ writes `ACT` only. -/
theorem finishFtq_sameBytesOutside (s : State) : SameBytesOutside [.act] s (finishFtq s) :=
  fun a ha => ftqStage_byteAt_out s a (ha .act List.mem_cons_self)

theorem finishFtq_samePort (s : State) : SamePort s (finishFtq s) := ⟨rfl, rfl, rfl, rfl⟩

/-- Settles O27: FTQ has no precondition, and its effect is the quantizer stage with a stale list. -/
theorem ftqCompletes : Obligations.FtqCompletes := by
  refine ⟨fun s h => exec_of_accepted h (by decide) rfl, fun s h => ?_⟩
  obtain ⟨hbusy, -, hcur⟩ := h
  exact ⟨finishFtq s, exec_of_busy .ftq hbusy,
    fun i hi => ⟨ftqStage_act_us s hi, ftqStage_act_them s hi⟩,
    Status.completed_withFresh_of_cur hcur false, finishFtq_sameBytesOutside s,
    finishFtq_samePort s, rfl, rfl, rfl⟩

/-! ### NNZ -/

/-- The mask of a slice over the activation words (R165). -/
theorem sliceMask_eq_sum (s : State) (sl : Nat) : sliceMask s sl =
    ((List.range 8).map fun k => if s.actw (8 * sl + k) ≠ 0#32 then 2 ^ k else 0).sum := by
  simp [sliceMask, groupNonzero]

/-- The indices of a slice as numbers: base plus table element, in 16 bits (R166). -/
theorem map_toNat_sliceIndices (s : State) (sl : Nat) :
    (sliceIndices s sl).map (·.toNat) = (List.range (popcount8 (sliceMask s sl))).map fun e =>
      (8 * sl + (s.lut (sliceMask s sl) e).toNat) % 65536 := by
  simp [sliceIndices, Function.comp_def]

/-- The index list after the encoder, slice by slice (R166). -/
theorem nnzStage_nnzList_eq_flatMap (s : State) :
    (nnzStage s).nnzList = (List.range 64).flatMap fun sl =>
      (List.range (popcount8 (sliceMask s sl))).map fun e =>
        (8 * sl + (s.lut (sliceMask s sl) e).toNat) % 65536 := by
  rw [nnzStage_nnzList, encoderOutput, List.map_flatMap]
  simp only [map_toNat_sliceIndices, Config.nslices_eq]

/-- `NNZ_COUNT` is the length of the index list (R24). -/
theorem State.length_nnzList (s : State) : s.nnzList.length = s.nnzCount.toNat := by
  simp [State.nnzList]

/-- NNZ writes `NNZ` only. -/
theorem finishNnz_sameBytesOutside (s : State) : SameBytesOutside [.nnz] s (finishNnz s) :=
  fun a ha => nnzStage_byteAt_out s a (ha .nnz List.mem_cons_self)

theorem finishNnz_samePort (s : State) : SamePort s (finishNnz s) := by
  constructor <;> simp [finishNnz]

theorem finishNnz_status {s : State} {c : BitVec 4} (h : s.status.cur = c) :
    (finishNnz s).status =
      { s.status with nnzFresh := true, busy := false, done := true, cur := c } := by
  rw [← Status.completed_withFresh_of_cur h true, ← nnzStage_status s]
  rfl

/-- NNZ is accepted with a table only (R232). -/
theorem preconditionOf_nnz (s : State) :
    preconditionOf .nnz s = if s.status.lutValid then none else some .noinit := rfl

/-- Settles O29: NNZ needs a table, and its effect is the encoder stage with a fresh list. -/
theorem nnzCompletes : Obligations.NnzCompletes := by
  refine ⟨fun s h hv => ?_, fun s h hv => ?_, fun s h => ?_⟩
  · exact exec_of_accepted h (by decide) (by simp [preconditionOf_nnz, hv])
  · exact exec_of_precondition (i := .nnz) (k := .noinit) h (by decide)
      (by simp [preconditionOf_nnz, hv])
  · obtain ⟨hbusy, -, hcur⟩ := h
    refine ⟨finishNnz s, exec_of_busy .nnz hbusy, ?_, (State.length_nnzList _).symm,
      finishNnz_status hcur, finishNnz_sameBytesOutside s, finishNnz_samePort s,
      nnzStage_errinfo s, nnzStage_score s⟩
    simp only [← sliceMask_eq_sum]
    exact nnzStage_nnzList_eq_flatMap s

end Sys2Proof.Machine
end

section
/-! The first layer (spec/43_l1.md R180 to R185): the bounds of its sums, when a lane is a NaN, what L1S
and L1D leave in `L1ACC` and `L1OUT`, and their frame. -/

namespace Sys2Proof.Machine

/-! ### The sums (40_numerics.md R125, R126) -/

theorem dot4_eq_sum (a w : Nat → Byte) :
    dot4 a w = ((List.range 4).map fun k => ((a k).toNat : Int) * (w k).toInt).sum := by
  simp [dot4, List.range_succ]
  ring

/-- The sum of a lane, term by term (R180, R182). -/
theorem l1Sum_eq_sum (s : State) (gs : List Nat) (j : Nat) :
    l1Sum s gs j = (gs.map fun g => ((List.range 4).map fun k =>
      ((s.act (4 * g + k)).toNat : Int) * (s.l1w (64 * g + 4 * j + k)).toInt).sum).sum := by
  simp only [l1Sum, contrib, dot4_eq_sum]

/-- An unsigned byte times a signed one: the extremes are `255·(-128)` and `255·127`. -/
theorem unsigned_mul_signed_bounds (a w : Byte) :
    -32640 ≤ (a.toNat : Int) * w.toInt ∧ (a.toNat : Int) * w.toInt ≤ 32385 := by
  have ha : a.toNat < 256 := a.isLt
  have hlo : -128 ≤ w.toInt := w.le_toInt
  have hhi : w.toInt < 128 := w.toInt_lt
  constructor <;> nlinarith

theorem contrib_bounds (s : State) (g j : Nat) : -130560 ≤ contrib s g j ∧ contrib s g j ≤ 129540 := by
  have h (k : Nat) := unsigned_mul_signed_bounds (s.act (4 * g + k)) (s.l1w (64 * g + 4 * j + k))
  have h0 := h 0
  have h1 := h 1
  have h2 := h 2
  have h3 := h 3
  simp only [contrib, dot4]
  omega

/-- Every group adds at most the extremes of one contribution (R126). -/
theorem l1Sum_bounds (s : State) (gs : List Nat) (j : Nat) :
    -130560 * (gs.length : Int) ≤ l1Sum s gs j ∧ l1Sum s gs j ≤ 129540 * (gs.length : Int) := by
  induction gs with
  | nil => simp [l1Sum]
  | cons g gs ih =>
    have hsum : l1Sum s (g :: gs) j = contrib s g j + l1Sum s gs j := rfl
    have hg := contrib_bounds s g j
    rw [hsum, List.length_cons]
    omega

/-- Over at most 512 groups the 32-bit accumulator holds the exact sum (R126). -/
theorem toInt_ofInt_l1Sum (s : State) {gs : List Nat} (h : gs.length ≤ 512) (j : Nat) :
    (BitVec.ofInt 32 (l1Sum s gs j)).toInt = l1Sum s gs j := by
  have hb := l1Sum_bounds s gs j
  exact BitVec.toInt_ofInt_eq_self (by decide) (by omega) (by omega)

/-! ### The lanes -/

theorem roundShift_le (x sh : Nat) : roundShift x sh ≤ x / 2 ^ sh + 1 := by
  simp only [roundShift]
  split <;> omega

/-- A magnitude below `2^e` units, `e ≤ 276`, does not overflow: the carry of its rounding stays below
`2^277` units (R127). -/
theorem F32.round_eq_fin (neg : Bool) {x e : Nat} (he : e ≤ 276) (h : x < 2 ^ (149 + e)) :
    ∃ u, F32.round neg x = .fin neg u := by
  have hlog : x.log2 ≤ 149 + e := by
    rcases Nat.eq_zero_or_pos x with rfl | hx
    · exact Nat.zero_le _
    · exact ((Nat.log2_lt hx.ne').2 h).le
  have hsmall : roundShift x (max (x.log2 - 23) 149) * 2 ^ (max (x.log2 - 23) 149 - 149) < 2 ^ 277 := by
    obtain ⟨d, hd, hde⟩ : ∃ d, max (x.log2 - 23) 149 = 149 + d ∧ d ≤ e :=
      ⟨max (x.log2 - 23) 149 - 149, by omega, by omega⟩
    rw [hd, Nat.add_sub_cancel_left]
    refine Nat.lt_of_mul_lt_mul_left (a := 2 ^ 149) ?_
    calc 2 ^ 149 * (roundShift x (149 + d) * 2 ^ d)
        ≤ 2 ^ 149 * ((x / 2 ^ (149 + d) + 1) * 2 ^ d) := by gcongr; exact roundShift_le x _
      _ = x / 2 ^ (149 + d) * 2 ^ (149 + d) + 2 ^ (149 + d) := by rw [pow_add]; ring
      _ ≤ x + 2 ^ (149 + e) := by
        gcongr
        · exact Nat.div_mul_le_self x _
        · decide
      _ < 2 ^ (149 + e) + 2 ^ (149 + e) := by gcongr
      _ = 2 ^ 149 * 2 ^ (e + 1) := by rw [pow_add, pow_succ]; ring
      _ ≤ 2 ^ 149 * 2 ^ 277 := by gcongr <;> omega
  rw [F32.round, if_neg (Nat.not_le.2 hsmall)]
  exact ⟨_, rfl⟩

theorem natAbs_mul_two_pow (n : Int) (k : Nat) : (n * 2 ^ k).natAbs = n.natAbs * 2 ^ k := by
  rw [Int.natAbs_mul, Int.natAbs_pow]
  rfl

/-- An integer below `2^127` converts to a finite value (R129). -/
theorem F32.ofInt_eq_fin {n : Int} (h : n.natAbs < 2 ^ 127) : ∃ neg u, F32.ofInt n = .fin neg u := by
  have hx : (n * 2 ^ 298).natAbs < 2 ^ (149 + 276) :=
    calc (n * 2 ^ 298).natAbs = n.natAbs * 2 ^ 298 := natAbs_mul_two_pow n 298
      _ < 2 ^ 127 * 2 ^ 298 := by gcongr
      _ = 2 ^ (149 + 276) := by rw [← pow_add]
  rw [F32.ofInt, F32.ofExact]
  split
  · exact ⟨_, _, rfl⟩
  · exact ⟨_, F32.round_eq_fin _ le_rfl hx⟩

theorem F32.isNaN_eq_true_iff (v : F32) : v.isNaN = true ↔ v = .nan := by cases v <;> simp [F32.isNaN]

/-- The activation raises an error for a NaN only (R130). -/
theorem F32.csq_eq_none_iff (v : F32) : v.csq = none ↔ v = .nan := by
  rw [← F32.clip01_eq_none_iff, F32.csq]
  split <;> simp [*]

/-- A list of at most `2^32` groups makes a lane a NaN only where its bias is: sum and scale are finite
(R184, R234). -/
theorem isNaN_l1Pre (s : State) {gs : List Nat} (h : gs.length ≤ 2 ^ 32) (j : Nat) :
    (l1Pre s gs j).isNaN = (s.l1b j).isNaN := by
  have hb := l1Sum_bounds s gs j
  obtain ⟨neg, u, hsum⟩ : ∃ neg u, F32.ofInt (l1Sum s gs j) = .fin neg u :=
    F32.ofInt_eq_fin (by omega)
  obtain ⟨m, v, hmul⟩ : ∃ m v, F32.unpack Config.l1Mul = .fin m v := ⟨_, _, rfl⟩
  rw [l1Pre, hsum, hmul, F32.isNaN_fma_fin]

/-! ### The stage -/

/-- With no NaN bias the stage raises no error (R184). -/
theorem l1Stage_isOk {s : State} {gs : List Nat} (hlen : gs.length ≤ 2 ^ 32)
    (hbias : ∀ j < 16, (s.l1b j).isNaN = false) : ∃ t, l1Stage s gs = .ok t := by
  cases ht : l1Stage s gs with
  | ok t => exact ⟨t, rfl⟩
  | error f =>
    obtain ⟨j, hj, hnone, -⟩ := l1Stage_eq_error ht
    have hnan := (F32.isNaN_eq_true_iff _).2 ((F32.csq_eq_none_iff _).1 hnone)
    rw [isNaN_l1Pre s hlen, hbias j hj] at hnan
    cases hnan

/-- `L1ACC` holds the sums: the outputs are written below it (R67, R183). -/
theorem l1Stage_l1acc {s t : State} {gs : List Nat} (h : l1Stage s gs = .ok t) {j : Nat} (hj : j < 16) :
    t.l1acc j = BitVec.ofInt 32 (l1Sum s gs j) := by
  obtain ⟨outs, hlen, -, rfl⟩ := l1Stage_eq_ok h
  rw [State.l1acc, State.read32_congr fun k _ => State.byteAt_writeWords_out _ _ _ _ (.inr ?_)]
  · exact (State.read32_writeWords _ _ _ _ (by simpa using hj)).trans (by simp)
  · rw [hlen]
    simp only [Region.elem, Region.base]
    omega

/-- `L1OUT` holds the clip-squares of the lanes (R183). -/
theorem l1Stage_l1out {s t : State} {gs : List Nat} (h : l1Stage s gs = .ok t) {j : Nat} (hj : j < 16) :
    ∃ r, (l1Pre s gs j).csq = some r ∧ t.l1out j = r.pack := by
  obtain ⟨outs, hlen, houts, rfl⟩ := l1Stage_eq_ok h
  obtain ⟨r, hr, hout⟩ := houts j hj
  have hlt : j < outs.length := by omega
  exact ⟨r, hr, (State.read32_writeWords _ _ _ _ hlt).trans ((List.getElem_eq_iff hlt).2 hout)⟩

theorem l1Stage_sameBytesOutside {s t : State} {gs : List Nat} (h : l1Stage s gs = .ok t) :
    SameBytesOutside [.l1acc, .l1out] s t :=
  fun _ ha => l1Stage_byteAt_out h (ha .l1acc (by simp)) (ha .l1out (by simp))

theorem l1Stage_samePort {s t : State} {gs : List Nat} (h : l1Stage s gs = .ok t) : SamePort s t :=
  ⟨l1Stage_response h, l1Stage_inReset h, l1Stage_schedule h, l1Stage_epoch h⟩

/-! ### L1S and L1D -/

/-- `t` is what the stage over `gs`, completed without error, leaves of `s` (R183, R240). -/
structure L1End (s : State) (gs : List Nat) (t : State) : Prop where
  l1acc : ∀ j < 16, t.l1acc j = BitVec.ofInt 32 (l1Sum s gs j)
  l1out : ∀ j < 16, ∃ r, (l1Pre s gs j).csq = some r ∧ t.l1out j = r.pack
  status : t.status = s.status.completed
  bytes : SameBytesOutside [.l1acc, .l1out] s t
  port : SamePort s t
  errinfo : t.errinfo = s.errinfo
  nnzCount : t.nnzCount = s.nnzCount
  score : t.score = s.score

/-- Where no bias is a NaN the run ends without error, whatever an error would have lost. -/
theorem l1End_conclude {s : State} {gs : List Nat} (hlen : gs.length ≤ 2 ^ 32)
    (hbias : ∀ j < 16, (s.l1b j).isNaN = false) (lose : State → State) :
    L1End s gs (s.conclude (l1Stage s gs) lose) := by
  obtain ⟨t, ht⟩ := l1Stage_isOk hlen hbias
  rw [ht, State.conclude_ok]
  exact {
    l1acc := fun _ hj => l1Stage_l1acc ht hj
    l1out := fun _ hj => l1Stage_l1out ht hj
    status := congrArg Status.completed (l1Stage_status ht)
    bytes := (l1Stage_sameBytesOutside ht :)
    port := (l1Stage_samePort ht).trans ⟨rfl, rfl, rfl, rfl⟩
    errinfo := (l1Stage_errinfo ht :)
    nnzCount := (l1Stage_nnzCount ht :)
    score := (l1Stage_score ht :) }

/-- Settles O33: L1S is the stage over the index list, which `NNZ_COUNT` bounds. -/
theorem l1sCompletes : Obligations.L1sCompletes := by
  rintro s ⟨hbusy, -, hcur⟩ hbias
  have hlen : s.nnzList.length ≤ 2 ^ 32 := s.length_nnzList.trans_le s.nnzCount.isLt.le
  have hend := l1End_conclude hlen hbias fun u => u.forgetAll (bufferWrites .l1s)
  refine ⟨finishL1s s, exec_of_busy .l1s hbusy, fun j hj => ?_,
    hend.status.trans (Status.completed_of_cur hcur), hend.bytes, hend.port, hend.errinfo,
    hend.nnzCount, hend.score⟩
  rw [← l1Sum_eq_sum]
  exact ⟨hend.l1acc j hj, hend.l1out j hj⟩

/-- Settles O34: L1D is the stage over all 512 groups, whose sums fit the accumulator (R126). -/
theorem l1dCompletes : Obligations.L1dCompletes := by
  rintro s ⟨hbusy, -, hcur⟩ hbias
  have hlen : (List.range Config.ngroups).length ≤ 512 := by simp
  have hend := l1End_conclude (hlen.trans (by decide)) hbias fun u => u.forgetAll (bufferWrites .l1d)
  refine ⟨finishL1d s, exec_of_busy .l1d hbusy, fun j hj => ?_,
    hend.status.trans (Status.completed_of_cur hcur), hend.bytes, hend.port, hend.errinfo,
    hend.nnzCount, hend.score⟩
  have hacc := hend.l1acc j hj
  rw [← l1Sum_eq_sum]
  exact ⟨hacc, (congrArg BitVec.toInt hacc).trans (toInt_ofInt_l1Sum s hlen j), hend.l1out j hj⟩

end Sys2Proof.Machine
end

section
/-! The second layer (spec/44_l2.md R201, R202): when its stage raises no error, what it leaves in
`L2OUT`, and its frame. -/

namespace Sys2Proof.Machine

theorem F32.csq_ne_none {v : F32} (h : v.isNaN = false) : v.csq ≠ none := by
  intro hnone
  rw [(F32.isNaN_eq_true_iff v).2 ((F32.csq_eq_none_iff v).1 hnone)] at h
  cases h

/-! ### The stage -/

/-- With no NaN lane the stage raises no error (R203). -/
theorem l2Stage_isOk {s : State} (hlanes : ∀ j < 32, (l2Pre s j).isNaN = false) :
    ∃ t, l2Stage s = .ok t := by
  cases ht : l2Stage s with
  | ok t => exact ⟨t, rfl⟩
  | error f =>
    obtain ⟨j, hj, hnone, -⟩ := l2Stage_eq_error ht
    exact absurd hnone (F32.csq_ne_none (hlanes j hj))

/-- `L2OUT` holds the clip-squares of the lanes (R202). -/
theorem l2Stage_l2out {s t : State} (h : l2Stage s = .ok t) {j : Nat} (hj : j < 32) :
    ∃ r, (l2Pre s j).csq = some r ∧ t.l2out j = r.pack := by
  obtain ⟨outs, hlen, houts, rfl⟩ := l2Stage_eq_ok h
  obtain ⟨r, hr, hout⟩ := houts j hj
  have hlt : j < outs.length := by omega
  exact ⟨r, hr, (State.read32_writeWords _ _ _ _ hlt).trans ((List.getElem_eq_iff hlt).2 hout)⟩

theorem l2Stage_sameBytesOutside {s t : State} (h : l2Stage s = .ok t) :
    SameBytesOutside [.l2out] s t :=
  fun _ ha => l2Stage_byteAt_out h (ha .l2out List.mem_cons_self)

theorem l2Stage_samePort {s t : State} (h : l2Stage s = .ok t) : SamePort s t :=
  ⟨l2Stage_response h, l2Stage_inReset h, l2Stage_schedule h, l2Stage_epoch h⟩

/-! ### L2 -/

/-- Completion changes `STATUS` only. -/
theorem State.complete_samePort (s : State) : SamePort s s.complete := ⟨rfl, rfl, rfl, rfl⟩

/-- L2 in flight, its stage without error, completes the stage's result (R240). -/
theorem exec_l2_of_ok {s t : State} (hbusy : s.status.busy = true) (h : l2Stage s = .ok t) :
    exec .l2 s = .next t.complete := by
  rw [exec_of_busy .l2 hbusy, finishOf, finishL2, h, State.conclude_ok]

/-- Settles O38: the lanes of the statement are `l2Pre`, and with no NaN among them L2 is the completion
of its stage. -/
theorem l2Completes : Obligations.L2Completes := by
  rintro s ⟨hbusy, -, hcur⟩ pre hnan
  obtain ⟨t, ht⟩ := l2Stage_isOk (s := s) hnan
  have hstatus : t.complete.status = s.status.completed :=
    congrArg Status.completed (l2Stage_status ht)
  exact ⟨t.complete, exec_l2_of_ok hbusy ht, fun j hj => l2Stage_l2out ht hj,
    hstatus.trans (Status.completed_of_cur hcur), (l2Stage_sameBytesOutside ht :),
    (l2Stage_samePort ht).trans t.complete_samePort, (l2Stage_errinfo ht :),
    (l2Stage_nnzCount ht :), (l2Stage_score ht :)⟩

end Sys2Proof.Machine
end

section
/-! The third layer (spec/45_l3_eval.md R210 to R212): the run whose scaled value converts. -/

namespace Sys2Proof.Machine

/-- Where the scaled value converts, the stage answers it as the score (R212). -/
theorem l3Stage_of_i32Trunc {s : State} {n : Int} (h : (l3Scaled s).i32Trunc = .ok n) :
    l3Stage s = .ok (s.setScore (BitVec.ofInt 32 n)) := by
  rw [l3Stage, h]

/-- L3 in flight, its stage without error, completes the stage's result (R240). -/
theorem exec_l3_of_ok {s t : State} (hbusy : s.status.busy = true) (h : l3Stage s = .ok t) :
    exec .l3 s = .next t.complete := by
  rw [exec_of_busy .l3 hbusy, finishOf, finishL3, h, State.conclude_ok]

/-- Settles O40: the scaled value of the statement is `l3Scaled`, and where it converts L3 is the
completion of its stage, which sets `SCORE` only. -/
theorem l3Completes : Obligations.L3Completes := by
  rintro s n ⟨hbusy, -, hcur⟩ dot hn
  have hscaled : (l3Scaled s).i32Trunc = .ok n := hn
  rw [exec_l3_of_ok hbusy (l3Stage_of_i32Trunc hscaled), State.complete, State.setScore_status,
    Status.completed_of_cur hcur]
  rfl

end Sys2Proof.Machine
end

section
/-! A write to `CMD` (spec/60_exceptions.md R238, R231 to R233): when the bus refuses it, which words are
commands, and which check of the acceptance answers a command. -/

namespace Sys2Proof

/-! ### The words that are commands (R100 to R102) -/

theorem decode_encode (i : Instr) : decode (encode i) = .ok i := decode_eq_ok_iff.2 rfl

theorem encode_inj {i j : Instr} : encode i = encode j ↔ i = j := by
  rw [← decode_eq_ok_iff, decode_encode, Except.ok.injEq]

/-- The command words are `0x0` to `0x9` and `0xF`. -/
theorem exists_eq_encode_iff (w : Word) :
    (∃ i, w = encode i) ↔ w.toNat ≤ 9 ∨ w = 0x0000000F#32 := by
  constructor
  · rintro ⟨i, rfl⟩
    cases i <;> decide
  · rintro (hle | rfl)
    · have small : ∀ n ≤ 9, (decode (BitVec.ofNat 32 n)).isOk = true := by decide
      have hok := small w.toNat hle
      rw [BitVec.ofNat_toNat, BitVec.setWidth_eq] at hok
      cases hd : decode w with
      | ok i => exact ⟨i, decode_eq_ok_iff.1 hd⟩
      | error e => simp [hd, Except.isOk, Except.toBool] at hok
    · exact ⟨.srst, rfl⟩

end Sys2Proof

namespace Sys2Proof.Machine

/-! ### What the bus does with the write -/

/-- Of the causes of R66 a write to `CMD` can only meet the last two. -/
theorem busError_cmdWrite_iff (s : State) (w : Word) : busError s (cmdWrite w) = true ↔
    s.status.busy = true ∨ (s.status.err = true ∧ w ≠ 0x0000000F#32) := by
  have hreserved : ¬∃ k < 4, ReservedAddr k := by
    unfold ReservedAddr
    omega
  rw [busError_iff_busCause]
  simp [BusCause, cmdWrite, Request.bytes, ReadOnlyAddr, Region.base, hreserved]

/-- A write to `CMD` that the bus allows issues its word, after the response (R238 step 3). -/
theorem step_of_cmdWrite {s : State} {w : Word} (h : s.nextMove (.host (cmdWrite w)))
    (hr : s.inReset = false) (hok : busError s (cmdWrite w) = false) :
    step s = issue w (s.taken.respond (.ok 0#32)) := by
  rw [step_of_host h hr, transact, if_neg (by simp [hok])]
  rfl

/-- A word that is no command raises `E_ILLCMD`, whatever the flags (R231). -/
theorem issue_of_not_command {w : Word} (hw : ¬∃ i, w = encode i) (s : State) :
    issue w s = .next (s.raise .illcmd w) := by
  obtain ⟨e, he⟩ := decodeSelectsExactWord.2 w fun i hi => hw ⟨i, hi⟩
  rw [issue, he]

theorem issue_encode (i : Instr) (s : State) : issue (encode i) s = exec i s := by
  rw [issue, decode_encode]

/-! ### The precondition that fails (R43) -/

theorem preconditionOf_eq_noinit_iff (i : Instr) (s : State) :
    preconditionOf i s = some .noinit ↔
      (i = .nnz ∨ i = .ft ∨ i = .eval) ∧ s.status.lutValid = false := by
  cases i <;> simp [preconditionOf, State.needsTable, State.needsFresh, State.needsNothing]

theorem preconditionOf_eq_stale_iff (i : Instr) (s : State) :
    preconditionOf i s = some .stale ↔ i = .l1s ∧ s.status.nnzFresh = false := by
  cases i <;> simp [preconditionOf, State.needsTable, State.needsFresh, State.needsNothing]

/-- Error entry at acceptance is the one operation of R239. -/
theorem exec_eq_raise {i : Instr} {s : State} {k : ErrorKind} (h : s.idle) (hi : i ≠ .srst)
    (hp : preconditionOf i s = some k) : exec i s = .next (s.raise k (encode i)) := by
  rw [exec_of_idle i h.1, acceptOf, if_neg hi, hp, State.accept_some i k h.2]

/-- Settles O8: the bus answers first, then the decoder, then the precondition of the command; SRST has
none and is accepted in the error state too. -/
theorem acceptanceOrder : Obligations.AcceptanceOrder := by
  intro s w h hr
  have hbus := busError_cmdWrite_iff s w
  split
  next hbusy => exact step_of_busError h hr (hbus.2 (.inl hbusy))
  next hbusy =>
  split
  next herr => exact step_of_busError h hr (hbus.2 (.inr herr))
  next herr =>
  rw [step_of_cmdWrite h hr (Bool.eq_false_iff.2 fun hb => (hbus.1 hb).elim hbusy herr)]
  split
  next hill => exact issue_of_not_command (mt (exists_eq_encode_iff w).1 hill) _
  next hlegal =>
  obtain ⟨i, rfl⟩ := (exists_eq_encode_iff w).2 (not_not.1 hlegal)
  have hbusy0 : s.status.busy = false := Bool.eq_false_iff.2 hbusy
  have hsrst : (0x0000000F#32 : Word) = encode .srst := rfl
  simp only [hsrst, ne_eq, encode_inj] at herr ⊢
  rw [issue_encode]
  by_cases hi : i = .srst
  · subst hi
    rw [if_neg (by simp), if_neg (by simp), if_neg (by simp)]
    exact ⟨_, exec_of_idle .srst hbusy0, rfl, rfl, rfl, rfl, fun _ => rfl⟩
  have hidle : (s.taken.respond (.ok 0#32)).idle :=
    ⟨hbusy0, Bool.eq_false_iff.2 fun he => herr ⟨he, hi⟩⟩
  split
  next hp => exact exec_eq_raise hidle hi ((preconditionOf_eq_noinit_iff i _).2 hp)
  next hnoinit =>
  split
  next hp => exact exec_eq_raise hidle hi ((preconditionOf_eq_stale_iff i _).2 hp)
  next hstale =>
  rw [if_pos ⟨hidle.2, hi⟩]
  exact exec_of_accepted hidle hi <| (preconditionOf_eq_none_iff i _).2
    ⟨fun hc => Bool.eq_true_of_not_eq_false fun hv => hnoinit ⟨hc, hv⟩,
      fun hc => Bool.eq_true_of_not_eq_false fun hf => hstale ⟨hc, hf⟩⟩

end Sys2Proof.Machine
end

section
/-! What the completion of a command leaves alone and how it ends (spec/60_exceptions.md R239, R240,
spec/20_memory.md R72): the port, the bytes outside its buffers, and each register. -/

namespace Sys2Proof.Machine

/-! ### Frames, composed -/

theorem SameBytesOutside.trans {rs : List Region} {s t u : State} (hst : SameBytesOutside rs s t)
    (htu : SameBytesOutside rs t u) : SameBytesOutside rs s u :=
  fun a ha => (htu a ha).trans (hst a ha)

/-- More buffers may change. -/
theorem SameBytesOutside.mono {rs qs : List Region} {s t : State} (h : SameBytesOutside rs s t)
    (hsub : rs ⊆ qs) : SameBytesOutside qs s t :=
  fun a ha => h a fun r hr => ha r (hsub hr)

/-- A buffer that is not written keeps its bytes. -/
theorem SameBytesOutside.byteAt_eq {rs : List Region} {s t : State} (h : SameBytesOutside rs s t)
    {q : Region} (hq : q ∉ rs) {a : Nat} (ha : q.contains a = true) : t.byteAt a = s.byteAt a :=
  h a fun _ hr => Region.apart ha fun e => hq (e ▸ hr)

/-! ### The stages -/

theorem ftqStage_samePort (s : State) : SamePort s (ftqStage s) := ⟨rfl, rfl, rfl, rfl⟩

theorem ftqStage_sameBytesOutside (s : State) : SameBytesOutside [.act] s (ftqStage s) :=
  fun a ha => ftqStage_byteAt_out s a (ha .act List.mem_cons_self)

theorem nnzStage_samePort (s : State) : SamePort s (nnzStage s) :=
  ⟨nnzStage_response s, nnzStage_inReset s, nnzStage_schedule s, nnzStage_epoch s⟩

theorem nnzStage_sameBytesOutside (s : State) : SameBytesOutside [.nnz] s (nnzStage s) :=
  fun a ha => nnzStage_byteAt_out s a (ha .nnz List.mem_cons_self)

/-- The feature transform of FT and EVAL writes `ACT` and `NNZ` only (R169). -/
theorem nnzStage_ftqStage_sameBytesOutside (s : State) :
    SameBytesOutside [.act, .nnz] s (nnzStage (ftqStage s)) :=
  ((ftqStage_sameBytesOutside s).mono (by simp)).trans
    ((nnzStage_sameBytesOutside _).mono (by simp))

theorem nnzStage_ftqStage_samePort (s : State) : SamePort s (nnzStage (ftqStage s)) :=
  (ftqStage_samePort s).trans (nnzStage_samePort _)

theorem State.setFresh_complete_samePort (s : State) (b : Bool) :
    SamePort s (s.setFresh b).complete := ⟨rfl, rfl, rfl, rfl⟩

theorem State.setScore_samePort (s : State) (w : Word) : SamePort s (s.setScore w) :=
  ⟨rfl, rfl, rfl, rfl⟩

theorem State.forgetAll_samePort (s : State) (rs : List Region) : SamePort s (s.forgetAll rs) := by
  constructor <;> simp

theorem loseEval_samePort (s : State) : SamePort s (loseEval s) := by constructor <;> simp

/-- Everything that EVAL's four stages, without an error, say of their result (R214). -/
structure EvalRun (s s2 s3 : State) (n : Int) (t : State) : Prop where
  l1 : l1Stage (nnzStage (ftqStage s)) (nnzStage (ftqStage s)).nnzList = .ok s2
  l2 : l2Stage s2 = .ok s3
  l3 : (l3Scaled s3).i32Trunc = .ok n
  result : t = (s3.setScore (BitVec.ofInt 32 n)).setFresh true

theorem evalStages_eq_ok {s t : State} (h : evalStages s = .ok t) :
    ∃ s2 s3 n, EvalRun s s2 s3 n t := by
  simp only [evalStages] at h
  split at h
  · cases h
  next s2 h1 =>
  split at h
  · cases h
  next s3 h2 =>
  split at h
  · cases h
  next s4 h3 =>
  cases h
  obtain ⟨n, hn, rfl⟩ := l3Stage_eq_ok h3
  exact ⟨s2, s3, n, h1, h2, hn, rfl⟩

/-- An error of EVAL is one of its last three stages'. -/
theorem evalStages_eq_error {s : State} {f : Failure} (h : evalStages s = .error f) :
    l1Stage (nnzStage (ftqStage s)) (nnzStage (ftqStage s)).nnzList = .error f ∨
      ∃ s2, l1Stage (nnzStage (ftqStage s)) (nnzStage (ftqStage s)).nnzList = .ok s2 ∧
        (l2Stage s2 = .error f ∨ ∃ s3, l2Stage s2 = .ok s3 ∧ l3Stage s3 = .error f) := by
  simp only [evalStages] at h
  split at h
  next g h1 => cases h; exact .inl h1
  next s2 h1 =>
  split at h
  next g h2 => cases h; exact .inr ⟨s2, h1, .inl h2⟩
  next s3 h2 =>
  split at h
  next g h3 => cases h; exact .inr ⟨s2, h1, .inr ⟨s3, h2, h3⟩⟩
  · cases h

theorem EvalRun.samePort {s s2 s3 t : State} {n : Int} (h : EvalRun s s2 s3 n t) : SamePort s t := by
  obtain ⟨h1, h2, -, rfl⟩ := h
  exact (nnzStage_ftqStage_samePort s).trans <| (l1Stage_samePort h1).trans <|
    (l2Stage_samePort h2).trans ⟨rfl, rfl, rfl, rfl⟩

theorem EvalRun.sameBytesOutside {s s2 s3 t : State} {n : Int} (h : EvalRun s s2 s3 n t) :
    SameBytesOutside (bufferWrites .eval) s t := by
  obtain ⟨h1, h2, -, rfl⟩ := h
  refine ((nnzStage_ftqStage_sameBytesOutside s).mono ?_).trans <|
    ((l1Stage_sameBytesOutside h1).mono ?_).trans ((l2Stage_sameBytesOutside h2).mono ?_) <;> decide

theorem EvalRun.errinfo {s s2 s3 t : State} {n : Int} (h : EvalRun s s2 s3 n t) :
    t.errinfo = s.errinfo := by
  obtain ⟨h1, h2, -, rfl⟩ := h
  simp [l2Stage_errinfo h2, l1Stage_errinfo h1]

/-! ### The end of a run -/

/-- A property of the results and of what an error leaves holds at the end of the run, if `DONE` and
the error entry keep it. -/
theorem State.conclude_of {p : State → Prop} {s : State} {r : Except Failure State}
    {lose : State → State} (hc : ∀ t, p t → p t.complete) (he : ∀ t k w, p t → p (State.raise t k w))
    (hok : ∀ t, r = .ok t → p t) (hlose : p (lose s)) : p (s.conclude r lose) := by
  rcases s.conclude_cases r lose with ⟨t, ht, h⟩ | ⟨f, -, h⟩ <;> rw [h]
  · exact hc t (hok t ht)
  · exact he _ _ _ hlose

theorem State.conclude_samePort {s : State} {r : Except Failure State} {lose : State → State}
    (hok : ∀ t, r = .ok t → SamePort s t) (hlose : SamePort s (lose s)) :
    SamePort s (s.conclude r lose) :=
  State.conclude_of (p := SamePort s) (fun t h => h.trans t.complete_samePort)
    (fun _ _ _ h => h.trans ⟨rfl, rfl, rfl, rfl⟩) hok hlose

theorem State.conclude_sameBytesOutside {rs : List Region} {s : State} {r : Except Failure State}
    {lose : State → State} (hok : ∀ t, r = .ok t → SameBytesOutside rs s t)
    (hlose : SameBytesOutside rs s (lose s)) : SameBytesOutside rs s (s.conclude r lose) :=
  State.conclude_of (p := SameBytesOutside rs s) (fun _ h => h) (fun _ _ _ h => h) hok hlose

theorem State.conclude_nnzCount {s : State} {r : Except Failure State} {lose : State → State}
    (hok : ∀ t, r = .ok t → t.nnzCount = s.nnzCount) (hlose : (lose s).nnzCount = s.nnzCount) :
    (s.conclude r lose).nnzCount = s.nnzCount :=
  State.conclude_of (p := fun t => t.nnzCount = s.nnzCount) (fun _ h => h) (fun _ _ _ h => h) hok hlose

theorem State.conclude_score {s : State} {r : Except Failure State} {lose : State → State}
    (hok : ∀ t, r = .ok t → t.score = s.score) (hlose : (lose s).score = s.score) :
    (s.conclude r lose).score = s.score :=
  State.conclude_of (p := fun t => t.score = s.score) (fun _ h => h) (fun _ _ _ h => h) hok hlose

theorem State.conclude_lutValid {s : State} {r : Except Failure State} {lose : State → State}
    (hok : ∀ t, r = .ok t → t.status.lutValid = s.status.lutValid)
    (hlose : (lose s).status.lutValid = s.status.lutValid) :
    (s.conclude r lose).status.lutValid = s.status.lutValid :=
  State.conclude_of (p := fun t => t.status.lutValid = s.status.lutValid) (fun _ h => h)
    (fun _ _ _ h => h) hok hlose

/-! ### The frame of a completion -/

/-- L1S and L1D are the stage over a list of groups (R184, R185). -/
theorem finishOf_l1 {i : Instr} (hi : i = .l1s ∨ i = .l1d) (s : State) :
    ∃ gs : List Nat, gs.length ≤ 2 ^ 32 ∧
      finishOf i s = s.conclude (l1Stage s gs) fun s => s.forgetAll [.l1acc, .l1out] := by
  rcases hi with rfl | rfl
  · exact ⟨s.nnzList, s.length_nnzList.trans_le s.nnzCount.isLt.le, by
      rw [finishOf, finishL1s, bufferWrites]⟩
  · exact ⟨List.range Config.ngroups, by simp, by rw [finishOf, finishL1d, bufferWrites]⟩

/-- The completion of a command leaves the port, the schedule and the epoch alone. -/
theorem finishOf_samePort (i : Instr) (s : State) : SamePort s (finishOf i s) := by
  have l1 {k : Instr} (hk : k = .l1s ∨ k = .l1d) :
      SamePort s (finishOf k s) := by
    obtain ⟨gs, -, h⟩ := finishOf_l1 hk s
    rw [h]
    exact State.conclude_samePort (fun _ => l1Stage_samePort) (s.forgetAll_samePort _)
  cases i with
  | nop => exact s.complete_samePort
  | init => exact finishInit_samePort s
  | ftq => exact finishFtq_samePort s
  | nnz => exact finishNnz_samePort s
  | ft => exact (nnzStage_ftqStage_samePort s).trans (State.setFresh_complete_samePort _ _)
  | l1s => exact l1 (.inl rfl)
  | l1d => exact l1 (.inr rfl)
  | l2 =>
    rw [finishOf, finishL2]
    exact State.conclude_samePort (fun _ => l2Stage_samePort) (s.forgetAll_samePort _)
  | l3 =>
    rw [finishOf, finishL3]
    refine State.conclude_samePort (fun t ht => ?_) ⟨rfl, rfl, rfl, rfl⟩
    obtain ⟨n, -, rfl⟩ := l3Stage_eq_ok ht
    exact s.setScore_samePort _
  | eval =>
    rw [finishOf, finishEval]
    refine State.conclude_samePort (fun t ht => ?_) (loseEval_samePort s)
    obtain ⟨s2, s3, n, hrun⟩ := evalStages_eq_ok ht
    exact hrun.samePort
  | srst => exact finishSrst_samePort s

/-- The completion of a command writes the buffers that R72 gives it only. -/
theorem finishOf_sameBytesOutside (i : Instr) (s : State) :
    SameBytesOutside (bufferWrites i) s (finishOf i s) := by
  have hforget (rs : List Region) : SameBytesOutside rs s (s.forgetAll rs) :=
    s.byteAt_forgetAll_out rs
  have l1 {k : Instr} (hk : k = .l1s ∨ k = .l1d) :
      SameBytesOutside [.l1acc, .l1out] s (finishOf k s) := by
    obtain ⟨gs, -, h⟩ := finishOf_l1 hk s
    rw [h]
    exact State.conclude_sameBytesOutside (fun _ => l1Stage_sameBytesOutside) (hforget _)
  cases i with
  | nop => exact fun _ _ => rfl
  | init => exact fun a ha => finishInit_byteAt_out s a (ha .lut List.mem_cons_self)
  | ftq => exact finishFtq_sameBytesOutside s
  | nnz => exact finishNnz_sameBytesOutside s
  | ft => exact nnzStage_ftqStage_sameBytesOutside s
  | l1s => exact l1 (.inl rfl)
  | l1d => exact l1 (.inr rfl)
  | l2 =>
    rw [finishOf, finishL2]
    exact State.conclude_sameBytesOutside (fun _ => l2Stage_sameBytesOutside) (hforget _)
  | l3 =>
    rw [finishOf, finishL3]
    refine State.conclude_sameBytesOutside (fun t ht => ?_) fun _ _ => rfl
    obtain ⟨n, -, rfl⟩ := l3Stage_eq_ok ht
    exact fun _ _ => rfl
  | eval =>
    rw [finishOf, finishEval]
    refine State.conclude_sameBytesOutside (fun t ht => ?_) (loseEval_byteAt_out s)
    obtain ⟨s2, s3, n, hrun⟩ := evalStages_eq_ok ht
    exact hrun.sameBytesOutside
  | srst => exact finishSrst_sameBytesOutside s

/-- `NNZ_COUNT` belongs to NNZ, FT, EVAL and SRST. -/
theorem finishOf_nnzCount {i : Instr} (hi : i ≠ .nnz ∧ i ≠ .ft ∧ i ≠ .eval ∧ i ≠ .srst) (s : State) :
    (finishOf i s).nnzCount = s.nnzCount := by
  have l1 {k : Instr} (hk : k = .l1s ∨ k = .l1d) :
      (finishOf k s).nnzCount = s.nnzCount := by
    obtain ⟨gs, -, h⟩ := finishOf_l1 hk s
    rw [h]
    exact State.conclude_nnzCount (fun _ => l1Stage_nnzCount) (s.forgetAll_nnzCount _)
  cases i with
  | nop | init | ftq => rfl
  | nnz | ft | eval | srst => simp at hi
  | l1s => exact l1 (.inl rfl)
  | l1d => exact l1 (.inr rfl)
  | l2 =>
    rw [finishOf, finishL2]
    exact State.conclude_nnzCount (fun _ => l2Stage_nnzCount) (s.forgetAll_nnzCount _)
  | l3 =>
    rw [finishOf, finishL3]
    refine State.conclude_nnzCount (fun t ht => ?_) rfl
    obtain ⟨n, -, rfl⟩ := l3Stage_eq_ok ht
    rfl

/-- `SCORE` belongs to L3, EVAL and SRST. -/
theorem finishOf_score {i : Instr} (hi : i ≠ .l3 ∧ i ≠ .eval ∧ i ≠ .srst) (s : State) :
    (finishOf i s).score = s.score := by
  have l1 {k : Instr} (hk : k = .l1s ∨ k = .l1d) :
      (finishOf k s).score = s.score := by
    obtain ⟨gs, -, h⟩ := finishOf_l1 hk s
    rw [h]
    exact State.conclude_score (fun _ => l1Stage_score) (s.forgetAll_score _)
  cases i with
  | nop | init | ftq => rfl
  | nnz => simp [finishOf, finishNnz]
  | ft =>
    rw [finishOf, finishFt, State.complete_score, State.setFresh_score, nnzStage_score, ftqStage_score]
  | l3 | eval | srst => simp at hi
  | l1s => exact l1 (.inl rfl)
  | l1d => exact l1 (.inr rfl)
  | l2 =>
    rw [finishOf, finishL2]
    exact State.conclude_score (fun _ => l2Stage_score) (s.forgetAll_score _)

/-- `LUT_VALID` belongs to INIT and SRST (R39). -/
theorem finishOf_lutValid {i : Instr} (hi : i ≠ .init ∧ i ≠ .srst) (s : State) :
    (finishOf i s).status.lutValid = s.status.lutValid := by
  have keep {t : State} (h : t.status = s.status) : t.status.lutValid = s.status.lutValid :=
    congrArg Status.lutValid h
  have l1 {k : Instr} (hk : k = .l1s ∨ k = .l1d) :
      (finishOf k s).status.lutValid = s.status.lutValid := by
    obtain ⟨gs, -, h⟩ := finishOf_l1 hk s
    rw [h]
    exact State.conclude_lutValid (fun _ h => keep (l1Stage_status h)) (keep (s.forgetAll_status _))
  cases i with
  | nop | ftq => rfl
  | init | srst => simp at hi
  | nnz => simp [finishOf, finishNnz]
  | ft => rw [finishOf, finishFt, State.complete_status, State.setFresh_status, nnzStage_status]; rfl
  | l1s => exact l1 (.inl rfl)
  | l1d => exact l1 (.inr rfl)
  | l2 =>
    rw [finishOf, finishL2]
    exact State.conclude_lutValid (fun _ h => keep (l2Stage_status h)) (keep (s.forgetAll_status _))
  | l3 =>
    rw [finishOf, finishL3]
    exact State.conclude_lutValid (fun _ h => keep (l3Stage_status h)) rfl
  | eval =>
    rw [finishOf, finishEval]
    exact State.conclude_lutValid (fun _ h => by rw [evalStages_status h]; rfl)
      (by rw [loseEval_status]; rfl)

/-! ### How a run ends -/

/-- The run from `s` ended in `t` without an error (R240). -/
structure EndsDone (s t : State) : Prop where
  busy : t.status.busy = false
  done : t.status.done = true
  err : t.status.err = s.status.err
  errcode : t.status.errcode = s.status.errcode
  errinfo : t.errinfo = s.errinfo

/-- The run ended in `t` in an error that a command raises while it runs (R234, R235, R239). -/
structure EndsFailed (t : State) : Prop where
  busy : t.status.busy = false
  done : t.status.done = false
  err : t.status.err = true
  errcode : t.status.errcode = 4#4 ∨ t.status.errcode = 5#4

theorem State.complete_endsDone {s t : State} (hs : t.status = s.status) (hi : t.errinfo = s.errinfo) :
    EndsDone s t.complete :=
  ⟨rfl, rfl, (congrArg Status.err hs :), (congrArg Status.errcode hs :), hi⟩

theorem State.setFresh_endsDone {s t : State} {b : Bool} (hs : t.status = s.status)
    (hi : t.errinfo = s.errinfo) : EndsDone s (t.setFresh b).complete :=
  ⟨rfl, rfl, (congrArg Status.err hs :), (congrArg Status.errcode hs :), hi⟩

theorem State.raise_endsFailed (s : State) {k : ErrorKind} (w : Word) (hk : k = .nan ∨ k = .range) :
    EndsFailed (s.raise k w) :=
  ⟨rfl, rfl, rfl, hk.imp (congrArg ErrorKind.code) (congrArg ErrorKind.code)⟩

theorem State.conclude_ends {s : State} {r : Except Failure State} {lose : State → State}
    (hok : ∀ t, r = .ok t → EndsDone s t.complete)
    (herr : ∀ f, r = .error f → f.kind = .nan ∨ f.kind = .range) :
    EndsDone s (s.conclude r lose) ∨ EndsFailed (s.conclude r lose) := by
  rcases s.conclude_cases r lose with ⟨t, ht, h⟩ | ⟨f, hf, h⟩ <;> rw [h]
  · exact .inl (hok t ht)
  · exact .inr (State.raise_endsFailed _ _ (herr f hf))

theorem l1Stage_error_kind {s : State} {gs : List Nat} {f : Failure} (h : l1Stage s gs = .error f) :
    f.kind = .nan ∨ f.kind = .range := by
  obtain ⟨_, _, _, _, rfl⟩ := l1Stage_eq_error h
  exact .inl rfl

theorem l2Stage_error_kind {s : State} {f : Failure} (h : l2Stage s = .error f) :
    f.kind = .nan ∨ f.kind = .range := by
  obtain ⟨_, _, _, _, rfl⟩ := l2Stage_eq_error h
  exact .inl rfl

/-- The conversion raises `E_NAN` and `E_RANGE` only (R131). -/
theorem F32.i32Trunc_error_kind {v : F32} {k : ErrorKind} (h : v.i32Trunc = .error k) :
    k = .nan ∨ k = .range := by
  cases v with
  | nan => cases h; exact .inl rfl
  | inf neg => cases h; exact .inr rfl
  | fin neg u =>
    simp only [F32.i32Trunc] at h
    split at h
    · cases h; exact .inr rfl
    · cases h

theorem l3Stage_error_kind {s : State} {f : Failure} (h : l3Stage s = .error f) :
    f.kind = .nan ∨ f.kind = .range :=
  F32.i32Trunc_error_kind (l3Stage_eq_error h).1

theorem evalStages_error_kind {s : State} {f : Failure} (h : evalStages s = .error f) :
    f.kind = .nan ∨ f.kind = .range := by
  rcases evalStages_eq_error h with h1 | ⟨s2, -, h2 | ⟨s3, -, h3⟩⟩
  · exact l1Stage_error_kind h1
  · exact l2Stage_error_kind h2
  · exact l3Stage_error_kind h3

/-- A command other than SRST ends with `DONE`, or in error entry. -/
theorem finishOf_ends {i : Instr} (hi : i ≠ .srst) (s : State) :
    EndsDone s (finishOf i s) ∨ EndsFailed (finishOf i s) := by
  have l1 {k : Instr} (hk : k = .l1s ∨ k = .l1d) :
      EndsDone s (finishOf k s) ∨ EndsFailed (finishOf k s) := by
    obtain ⟨gs, -, h⟩ := finishOf_l1 hk s
    rw [h]
    exact State.conclude_ends
      (fun _ h => State.complete_endsDone (l1Stage_status h) (l1Stage_errinfo h))
      fun _ => l1Stage_error_kind
  cases i with
  | nop => exact .inl ⟨rfl, rfl, rfl, rfl, rfl⟩
  | init => exact .inl ⟨rfl, rfl, rfl, rfl, rfl⟩
  | ftq => exact .inl (State.setFresh_endsDone rfl rfl)
  | nnz => exact .inl (State.setFresh_endsDone (nnzStage_status s) (nnzStage_errinfo s))
  | ft => exact .inl (State.setFresh_endsDone (nnzStage_status _) (nnzStage_errinfo _))
  | l1s => exact l1 (.inl rfl)
  | l1d => exact l1 (.inr rfl)
  | l2 =>
    rw [finishOf, finishL2]
    exact State.conclude_ends
      (fun _ h => State.complete_endsDone (l2Stage_status h) (l2Stage_errinfo h))
      fun _ => l2Stage_error_kind
  | l3 =>
    rw [finishOf, finishL3]
    refine State.conclude_ends (fun t h => State.complete_endsDone (l3Stage_status h) ?_)
      fun _ => l3Stage_error_kind
    obtain ⟨n, -, rfl⟩ := l3Stage_eq_ok h
    rfl
  | eval =>
    rw [finishOf, finishEval]
    refine State.conclude_ends (fun t h => ?_) fun _ => evalStages_error_kind
    obtain ⟨s2, s3, n, hrun⟩ := evalStages_eq_ok h
    have hstatus := evalStages_status h
    exact ⟨rfl, rfl, by simp [hstatus], by simp [hstatus], hrun.errinfo⟩
  | srst => exact absurd rfl hi

/-- No command is in flight after a completion. -/
theorem finishOf_busy (i : Instr) (s : State) : (finishOf i s).status.busy = false := by
  by_cases hi : i = .srst
  · subst hi; rfl
  · rcases finishOf_ends hi s with h | h <;> exact h.busy

/-- Settles O7: the sequencer's step is the command's completion, and each completion has one of the two
ends. -/
theorem completionEndsRun : Obligations.CompletionEndsRun := by
  intro s i hq hrun
  have hstep : step s = .next (finishOf i s.taken) :=
    (step_of_sequencerNext hq).trans (sequencer_of_runs hrun)
  refine ⟨_, hstep, finishOf_busy i _, ?_⟩
  by_cases hi : i = .srst
  · subst hi
    exact .inl ⟨rfl, rfl⟩
  · rcases finishOf_ends hi s.taken with h | h
    · exact .inl ⟨h.done, h.err.trans hrun.2.1⟩
    · exact .inr ⟨h.done, h.err, h.errcode⟩

/-! ### The frame of an acceptance -/

/-- Acceptance changes `STATUS` and `ERRINFO` only, and of `STATUS` neither `LUT_VALID` nor
`NNZ_FRESH` (R238). -/
structure StatusOnly (s t : State) : Prop where
  mem : t.mem = s.mem
  port : SamePort s t
  nnzCount : t.nnzCount = s.nnzCount
  score : t.score = s.score
  lutValid : t.status.lutValid = s.status.lutValid
  nnzFresh : t.status.nnzFresh = s.status.nnzFresh

/-- What acceptance can do: nothing, raise an error, or put the command in flight. -/
theorem State.accept_cases (s : State) (i : Instr) (p : Option ErrorKind) :
    (s.status.err = true ∧ s.accept i p = s) ∨
    (s.status.err = false ∧ ∃ k, p = some k ∧ s.accept i p = s.raise k (encode i)) ∨
    (s.status.err = false ∧ p = none ∧ s.accept i p = s.start i) := by
  cases he : s.status.err
  · cases p with
    | none => exact .inr (.inr ⟨rfl, rfl, State.accept_none i he⟩)
    | some k => exact .inr (.inl ⟨rfl, k, rfl, State.accept_some i k he⟩)
  · exact .inl ⟨rfl, State.accept_failed i p he⟩

theorem acceptOf_statusOnly (i : Instr) (s : State) : StatusOnly s (acceptOf i s) := by
  unfold acceptOf
  split
  · exact ⟨rfl, s.acceptSrst_samePort, rfl, rfl, rfl, rfl⟩
  · rcases s.accept_cases i (preconditionOf i s) with ⟨-, h⟩ | ⟨-, k, -, h⟩ | ⟨-, -, h⟩ <;> rw [h] <;>
      exact ⟨rfl, ⟨rfl, rfl, rfl, rfl⟩, rfl, rfl, rfl, rfl⟩

theorem StatusOnly.byteAt_eq {s t : State} (h : StatusOnly s t) (a : Nat) : t.byteAt a = s.byteAt a :=
  State.byteAt_congr h.mem h.port.epoch a

/-- Acceptance of a command other than SRST writes `ERRINFO` with an error only. -/
theorem acceptOf_errinfo {i : Instr} (hi : i ≠ .srst) {s : State}
    (he : (acceptOf i s).status.err = false) : (acceptOf i s).errinfo = s.errinfo := by
  rw [acceptOf, if_neg hi] at he ⊢
  rcases s.accept_cases i (preconditionOf i s) with ⟨-, h⟩ | ⟨-, k, -, h⟩ | ⟨-, -, h⟩ <;> rw [h] at he ⊢
  · cases he
  · rfl

/-- The two phases of a command. -/
theorem exec_cases {i : Instr} {s t : State} (h : exec i s = .next t) :
    (s.status.busy = true ∧ t = finishOf i s) ∨ (s.status.busy = false ∧ t = acceptOf i s) := by
  rw [exec_next] at h
  cases hb : s.status.busy <;> simp [hb] at h
  · exact .inr ⟨rfl, h.symm⟩
  · exact .inl ⟨rfl, h.symm⟩

/-- `NNZ_FRESH` belongs to FTQ, NNZ, FT, EVAL and SRST (R38). -/
theorem finishOf_nnzFresh {i : Instr}
    (hi : i ≠ .ftq ∧ i ≠ .nnz ∧ i ≠ .ft ∧ i ≠ .eval ∧ i ≠ .srst) (s : State) :
    (finishOf i s).status.nnzFresh = s.status.nnzFresh := by
  obtain ⟨hftq, hnnz, hft, heval, hsrst⟩ := hi
  rw [Bool.eq_iff_iff, finishOf_nnzFresh_iff]
  simp [hftq, hnnz, hft, heval, hsrst]

/-- Settles O22: acceptance touches `STATUS` and `ERRINFO` only, and each completion has the frame that
the table of section 5 of 20_memory.md gives its command. -/
theorem commandFrame : Obligations.CommandFrame := by
  intro i s t h
  rcases exec_cases h with ⟨-, rfl⟩ | ⟨-, rfl⟩
  · obtain ⟨hresp, hreset, hsched, hepoch⟩ := finishOf_samePort i s
    refine ⟨finishOf_sameBytesOutside i s, hresp, hreset, hsched, hepoch,
      fun hi => finishOf_nnzCount hi s, fun hi => finishOf_score hi s, fun ⟨hi, he⟩ => ?_,
      fun hi => finishOf_lutValid hi s, fun hi => finishOf_nnzFresh hi s⟩
    rcases finishOf_ends hi s with hend | hend
    · exact hend.errinfo
    · rw [hend.err] at he
      cases he
  · have hframe := acceptOf_statusOnly i s
    obtain ⟨hresp, hreset, hsched, hepoch⟩ := hframe.port
    exact ⟨fun a _ => hframe.byteAt_eq a, hresp, hreset, hsched, hepoch, fun _ => hframe.nnzCount,
      fun _ => hframe.score, fun ⟨hi, he⟩ => acceptOf_errinfo hi he, fun _ => hframe.lutValid,
      fun _ => hframe.nnzFresh⟩

end Sys2Proof.Machine
end

section
/-! The operands of a command depend on the bytes of their buffer only (spec/20_memory.md R70), and with
a valid table the encoder lists the nonzero groups (spec/42_feature_transform.md R168). -/

namespace Sys2Proof.Machine

/-! ### Two states that hold the same buffer -/

/-- `s` and `t` hold the same bytes in the range `r`. -/
def AgreeOn (r : Region) (s t : State) : Prop := ∀ a, r.contains a = true → t.byteAt a = s.byteAt a

theorem AgreeOn.trans {r : Region} {s t u : State} (hst : AgreeOn r s t) (htu : AgreeOn r t u) :
    AgreeOn r s u := fun a ha => (htu a ha).trans (hst a ha)

theorem AgreeOn.symm {r : Region} {s t : State} (h : AgreeOn r s t) : AgreeOn r t s :=
  fun a ha => (h a ha).symm

/-- A buffer that is not among those written stays. -/
theorem SameBytesOutside.agreeOn {rs : List Region} {s t : State} (h : SameBytesOutside rs s t)
    {r : Region} (hr : r ∉ rs) : AgreeOn r s t := fun _ ha => h.byteAt_eq hr ha

theorem StatusOnly.agreeOn {s t : State} (h : StatusOnly s t) (r : Region) : AgreeOn r s t :=
  fun a _ => h.byteAt_eq a

/-- Byte `k` of the `n` bytes of element `i` lies in the range. -/
theorem Region.contains_elem_add {r : Region} {i k : Nat} (hk : r.elemBytes * i + k < r.bytes) :
    r.contains (r.elem i + k) = true := by
  rw [Region.contains_iff, Region.elem]
  omega

theorem AgreeOn.byteAt_elem {r : Region} {s t : State} (h : AgreeOn r s t) {i : Nat}
    (hi : r.elemBytes * i < r.bytes) : t.byteAt (r.elem i) = s.byteAt (r.elem i) :=
  h _ (Region.contains_elem_add (k := 0) hi)

theorem AgreeOn.read16_elem {r : Region} {s t : State} (h : AgreeOn r s t) {i : Nat}
    (hi : r.elemBytes * i + 1 < r.bytes) : t.read16 (r.elem i) = s.read16 (r.elem i) :=
  State.read16_congr fun _ _ => h _ (Region.contains_elem_add (by omega))

theorem AgreeOn.read32_elem {r : Region} {s t : State} (h : AgreeOn r s t) {i : Nat}
    (hi : r.elemBytes * i + 3 < r.bytes) : t.read32 (r.elem i) = s.read32 (r.elem i) :=
  State.read32_congr fun _ _ => h _ (Region.contains_elem_add (by omega))

theorem AgreeOn.us {s t : State} (h : AgreeOn .us s t) {i : Nat} (hi : i < 2048) : t.us i = s.us i :=
  congrArg BitVec.toInt (h.read16_elem (by simp only [Region.elemBytes, Region.bytes]; omega))

theorem AgreeOn.them {s t : State} (h : AgreeOn .them s t) {i : Nat} (hi : i < 2048) :
    t.them i = s.them i :=
  congrArg BitVec.toInt (h.read16_elem (by simp only [Region.elemBytes, Region.bytes]; omega))

theorem AgreeOn.act {s t : State} (h : AgreeOn .act s t) {i : Nat} (hi : i < 2048) :
    t.act i = s.act i :=
  h.byteAt_elem (by simp only [Region.elemBytes, Region.bytes]; omega)

theorem AgreeOn.actw {s t : State} (h : AgreeOn .act s t) {g : Nat} (hg : g < 512) :
    t.actw g = s.actw g := by
  have hread := h.read32_elem (i := 4 * g) (by simp only [Region.elemBytes, Region.bytes]; omega)
  rwa [Region.elem, Region.elemBytes, Nat.one_mul] at hread

theorem AgreeOn.nnz {s t : State} (h : AgreeOn .nnz s t) {e : Nat} (he : e < 512) :
    t.nnz e = s.nnz e :=
  h.read16_elem (by simp only [Region.elemBytes, Region.bytes]; omega)

theorem AgreeOn.lut {s t : State} (h : AgreeOn .lut s t) {m e : Nat} (hm : m < 256) (he : e < 8) :
    t.lut m e = s.lut m e :=
  h.read16_elem (by simp only [Region.elemBytes, Region.bytes]; omega)

theorem AgreeOn.l1w {s t : State} (h : AgreeOn .l1w s t) {n : Nat} (hn : n < 32768) :
    t.l1w n = s.l1w n :=
  h.byteAt_elem (by simp only [Region.elemBytes, Region.bytes]; omega)

theorem AgreeOn.l1b {s t : State} (h : AgreeOn .l1b s t) {j : Nat} (hj : j < 16) :
    t.l1b j = s.l1b j :=
  congrArg F32.unpack (h.read32_elem (by simp only [Region.elemBytes, Region.bytes]; omega))

theorem AgreeOn.l1acc {s t : State} (h : AgreeOn .l1acc s t) {j : Nat} (hj : j < 16) :
    t.l1acc j = s.l1acc j :=
  h.read32_elem (by simp only [Region.elemBytes, Region.bytes]; omega)

theorem AgreeOn.l1out {s t : State} (h : AgreeOn .l1out s t) {j : Nat} (hj : j < 16) :
    t.l1out j = s.l1out j :=
  h.read32_elem (by simp only [Region.elemBytes, Region.bytes]; omega)

theorem AgreeOn.l2w {s t : State} (h : AgreeOn .l2w s t) {n : Nat} (hn : n < 512) :
    t.l2w n = s.l2w n :=
  congrArg F32.unpack (h.read32_elem (by simp only [Region.elemBytes, Region.bytes]; omega))

theorem AgreeOn.l2b {s t : State} (h : AgreeOn .l2b s t) {j : Nat} (hj : j < 32) :
    t.l2b j = s.l2b j :=
  congrArg F32.unpack (h.read32_elem (by simp only [Region.elemBytes, Region.bytes]; omega))

theorem AgreeOn.l2out {s t : State} (h : AgreeOn .l2out s t) {j : Nat} (hj : j < 32) :
    t.l2out j = s.l2out j :=
  h.read32_elem (by simp only [Region.elemBytes, Region.bytes]; omega)

theorem AgreeOn.l3w {s t : State} (h : AgreeOn .l3w s t) {k : Nat} (hk : k < 32) :
    t.l3w k = s.l3w k :=
  congrArg F32.unpack (h.read32_elem (by simp only [Region.elemBytes, Region.bytes]; omega))

theorem AgreeOn.l3b {s t : State} (h : AgreeOn .l3b s t) : t.l3b = s.l3b :=
  congrArg F32.unpack (h.read32_elem (i := 0) (by decide))

theorem AgreeOn.groupNonzero {s t : State} (h : AgreeOn .act s t) {g : Nat} (hg : g < 512) :
    groupNonzero t g = groupNonzero s g := by
  rw [Machine.groupNonzero, Machine.groupNonzero, h.actw hg]

theorem AgreeOn.nonzeroGroups {s t : State} (h : AgreeOn .act s t) :
    nonzeroGroups t = nonzeroGroups s :=
  List.filter_congr fun _ hg => h.groupNonzero (List.mem_range.1 hg)

theorem AgreeOn.nnzList {s t : State} (h : AgreeOn .nnz s t) (hc : t.nnzCount = s.nnzCount)
    (hle : s.nnzCount.toNat ≤ 512) : t.nnzList = s.nnzList := by
  rw [State.nnzList, State.nnzList, hc]
  refine List.map_congr_left fun e he => ?_
  rw [h.nnz (by have := List.mem_range.1 he; omega)]

/-- The table's invariant is about the bytes of `LUT` while they are valid. -/
theorem State.TableInv.of_agreeOn {s t : State} (h : s.TableInv) (ha : AgreeOn .lut s t)
    (hv : t.status.lutValid = true → s.status.lutValid = true) : t.TableInv :=
  fun ht m hm e he => (ha.lut hm he).trans (h (hv ht) m hm e he)

/-! ### The masks (R165) -/

/-- The number whose bits below `n` are given by `p`. -/
theorem testBit_sum_two_pow (p : Nat → Bool) (n k : Nat) :
    (((List.range n).map fun t => if p t then 2 ^ t else 0).sum).testBit k = (decide (k < n) && p k) := by
  induction n generalizing k with
  | zero => simp
  | succ n ih =>
    rw [List.range_succ, List.map_append, List.sum_append, List.map_singleton, List.sum_singleton,
      Nat.add_comm]
    cases hp : p n with
    | false =>
      rw [if_neg (by simp), Nat.zero_add, ih]
      rcases Nat.lt_trichotomy k n with h | h | h
      · simp [h, Nat.lt_succ_of_lt h]
      · simp [h, hp]
      · simp [show ¬k < n by omega, show ¬k < n + 1 by omega]
    | true =>
      rw [if_pos rfl]
      rcases Nat.lt_trichotomy k n with h | h | h
      · rw [Nat.testBit_two_pow_add_gt h, ih]
        simp [h, Nat.lt_succ_of_lt h]
      · subst h
        rw [Nat.testBit_two_pow_add_eq, ih]
        simp [hp]
      · have hlt : ((List.range n).map fun t => if p t then 2 ^ t else 0).sum < 2 ^ n :=
          Nat.lt_pow_two_of_testBit _ fun i hi => by simp [ih, show ¬i < n by omega]
        rw [Nat.testBit_lt_two_pow]
        · simp [show ¬k < n + 1 by omega]
        · calc 2 ^ n + _ < 2 ^ n + 2 ^ n := Nat.add_lt_add_left hlt _
            _ = 2 ^ (n + 1) := by ring
            _ ≤ 2 ^ k := Nat.pow_le_pow_right (by decide) h

theorem sliceMask_lt (s : State) (sl : Nat) : sliceMask s sl < 256 :=
  Nat.lt_pow_two_of_testBit (n := 8) _ fun i hi => by
    rw [sliceMask, testBit_sum_two_pow]
    simp [show ¬i < 8 by omega]

/-- The set bits of a slice's mask are its nonzero groups. -/
theorem setBits_sliceMask (s : State) (sl : Nat) :
    setBits (sliceMask s sl) = (List.range 8).filter fun k => groupNonzero s (8 * sl + k) := by
  refine List.filter_congr fun k hk => ?_
  rw [sliceMask, testBit_sum_two_pow]
  simp [List.mem_range.1 hk]

theorem popcount8_eq_length_setBits (m : Nat) : popcount8 m = (setBits m).length :=
  List.countP_eq_length_filter

theorem length_setBits_le (m : Nat) : (setBits m).length ≤ 8 := by
  rw [← popcount8_eq_length_setBits]
  exact popcount8_le m

/-! ### The list (R168) -/

/-- With a valid table the elements read for a mask are its set bits, so each index is the base of the
slice plus a set bit (R166). -/
theorem map_lut_eq_setBits {s : State} (h : s.TableInv) (hv : s.status.lutValid = true) {m sl : Nat}
    (hm : m < 256) (hsl : sl < 64) :
    ((List.range (popcount8 m)).map fun e => (8 * sl + (s.lut m e).toNat) % 65536) =
      (setBits m).map (8 * sl + ·) := by
  rw [popcount8_eq_length_setBits]
  refine List.ext_getElem (by simp) fun e he _ => ?_
  have hlen : e < (setBits m).length := by simpa using he
  have hbit : (setBits m)[e] < 8 :=
    List.mem_range.1 (List.mem_filter.1 (List.getElem_mem hlen)).1
  have he8 : e < 8 := hlen.trans_le (length_setBits_le m)
  simp only [List.getElem_map, List.getElem_range, h hv m hm e he8, List.getD_eq_getElem _ _ hlen,
    BitVec.toNat_ofNat]
  omega

/-- Slice by slice, a filter of the numbers below `8·n`. -/
theorem flatMap_filter_range_eight (p : Nat → Bool) (n : Nat) :
    ((List.range n).flatMap fun sl => ((List.range 8).filter fun k => p (8 * sl + k)).map (8 * sl + ·)) =
      (List.range (8 * n)).filter p := by
  induction n with
  | zero => simp
  | succ n ih =>
    rw [List.range_succ (n := n), List.flatMap_append, ih, Nat.mul_succ, List.range_add, List.filter_append,
      List.filter_map]
    simp [Function.comp_def]

/-- With a valid table the encoder's list is that of the nonzero groups. -/
theorem nnzStage_nnzList_eq_nonzeroGroups {s : State} (h : s.TableInv)
    (hv : s.status.lutValid = true) : (nnzStage s).nnzList = nonzeroGroups s := by
  rw [nnzStage_nnzList_eq_flatMap, nonzeroGroups, Config.ngroups_eq,
    ← flatMap_filter_range_eight (groupNonzero s) 64]
  refine List.flatMap_congr fun sl hsl => ?_
  rw [map_lut_eq_setBits h hv (sliceMask_lt s sl) (List.mem_range.1 hsl), setBits_sliceMask]

/-- The list after the encoder is the one of its own `ACT`. -/
theorem nnzStage_list {s : State} (h : s.TableInv) (hv : s.status.lutValid = true) :
    (nnzStage s).nnzList = nonzeroGroups (nnzStage s) := by
  rw [nnzStage_nnzList_eq_nonzeroGroups h hv]
  exact ((nnzStage_sameBytesOutside s).agreeOn (by decide)).nonzeroGroups.symm

theorem nonzeroGroups_eq_filter (s : State) :
    nonzeroGroups s = (List.range 512).filter fun g => s.actw g ≠ 0#32 :=
  List.filter_congr fun g _ => by simp [groupNonzero, bne, Bool.beq_eq_decide_eq]

theorem pairwise_nonzeroGroups (s : State) : (nonzeroGroups s).Pairwise (· < ·) :=
  List.Pairwise.filter _ List.pairwise_lt_range

theorem mem_nonzeroGroups_lt {s : State} {g : Nat} (h : g ∈ nonzeroGroups s) : g < 512 :=
  List.mem_range.1 (List.mem_filter.1 h).1

/-- Settles O30: the encoder's list is that of the nonzero groups, a filter of an ascending list. -/
theorem nnzListsNonzeroGroups : Obligations.NnzListsNonzeroGroups := by
  intro s hrun htable hvalid
  have hlist : (finishNnz s).nnzList = nonzeroGroups s := nnzStage_nnzList_eq_nonzeroGroups htable hvalid
  refine ⟨finishNnz s, exec_of_busy .nnz hrun.1, hlist.trans (nonzeroGroups_eq_filter s), ?_,
    hlist ▸ pairwise_nonzeroGroups s⟩
  rw [← State.length_nnzList, hlist, nonzeroGroups_eq_filter]

/-! ### FT -/

/-- The quantizer leaves the table alone. -/
theorem State.TableInv.ftqStage {s : State} (h : s.TableInv) : (ftqStage s).TableInv :=
  h.of_agreeOn ((ftqStage_sameBytesOutside s).agreeOn (by decide)) fun hv => hv

/-- The encoder keeps what the quantizer stored (R160, R169). -/
theorem nnzStage_ftqStage_act (s : State) {i : Nat} (hi : i < 1024) :
    (nnzStage (ftqStage s)).act i = ftqByte (s.us i) (s.us (i + 1024)) ∧
      (nnzStage (ftqStage s)).act (1024 + i) = ftqByte (s.them i) (s.them (i + 1024)) := by
  have hact : AgreeOn .act (ftqStage s) (nnzStage (ftqStage s)) :=
    (nnzStage_sameBytesOutside _).agreeOn (by decide)
  exact ⟨(hact.act (by omega)).trans (ftqStage_act_us s hi),
    (hact.act (by omega)).trans (ftqStage_act_them s hi)⟩

theorem finishFt_status {s : State} {c : BitVec 4} (h : s.status.cur = c) : (finishFt s).status =
    { s.status with nnzFresh := true, busy := false, done := true, cur := c } := by
  rw [finishFt, State.complete_status, State.setFresh_status, nnzStage_status, ftqStage_status,
    Status.completed_withFresh_of_cur h]

/-- Settles O31: FT is the encoder on the quantizer's output, with a fresh list. -/
theorem ftCompletes : Obligations.FtCompletes := by
  rintro s ⟨hbusy, -, hcur⟩ htable hvalid
  have hlist : (finishFt s).nnzList = nonzeroGroups (finishFt s) := nnzStage_list htable.ftqStage hvalid
  exact ⟨finishFt s, exec_of_busy .ft hbusy, fun i hi => nnzStage_ftqStage_act s hi,
    hlist.trans (nonzeroGroups_eq_filter _), finishFt_status hcur,
    nnzStage_ftqStage_sameBytesOutside s, finishOf_samePort .ft s,
    nnzStage_errinfo (ftqStage s), finishOf_score (i := .ft) (by decide) s⟩

end Sys2Proof.Machine
end

section
/-! The machine's invariant (spec/10_state.md R36 to R48, spec/41_init_lut.md R152): it holds at reset,
every completion, acceptance and transaction keeps it, and a state that meets it has a next state. -/

namespace Sys2Proof.Machine

/-! ### The range of an access -/

/-- The ranges of R67 start and end at multiples of 4. -/
theorem Region.four_dvd (g : Region) : 4 ∣ g.base ∧ 4 ∣ g.bytes := by
  cases g <;> decide

theorem Request.bytes_dvd_four {r : Request} (hs : r.size ≠ 3#2) : r.bytes ∣ 4 := by
  have key : ∀ z : BitVec 2, z ≠ 3#2 → 2 ^ z.toNat ∣ 4 := by decide
  exact key r.size hs

theorem WellFormed.request_iff (r : Request) :
    WellFormed.request r = true ↔ r.size ≠ 3#2 ∧ r.addr.toNat % r.bytes = 0 := by
  simp [WellFormed.request, WellFormed.requestSize, WellFormed.requestAligned]

/-- A well-formed access stays in the range of its first byte. -/
theorem Request.within_of_regionOf {r : Request} {g : Region} (hw : WellFormed.request r = true)
    (hg : regionOf r.addr.toNat = some g) :
    g.base ≤ r.addr.toNat ∧ r.addr.toNat + r.bytes ≤ g.base + g.bytes := by
  obtain ⟨hsize, halign⟩ := (WellFormed.request_iff r).1 hw
  obtain ⟨hlo, hhi⟩ := (Region.contains_iff g _).1 (regionOf_eq_some_iff.1 hg)
  have hdvd : r.bytes ∣ g.base + g.bytes :=
    (Request.bytes_dvd_four hsize).trans (Nat.dvd_add g.four_dvd.1 g.four_dvd.2)
  have hmod : r.addr.toNat ≡ g.base + g.bytes [MOD r.bytes] :=
    halign.trans (Nat.mod_eq_zero_of_dvd hdvd).symm
  exact ⟨hlo, hmod.add_le_of_lt hhi⟩

/-- What the bus has checked of an access that it allows: it lies in one range, and a write in one that
the host may write (R66 (1), (2), (3), (5)). -/
theorem busError_eq_false_region {s : State} {r : Request} (h : busError s r = false) :
    WellFormed.request r = true ∧ ∃ g, regionOf r.addr.toNat = some g ∧
      (r.write = true → g.writable = true) := by
  simp only [busError, Bool.or_eq_false_iff, Bool.and_eq_false_imp, Bool.not_eq_false'] at h
  obtain ⟨⟨⟨⟨⟨⟨hsize, halign⟩, hres⟩, -⟩, hro⟩, -⟩, -⟩ := h
  refine ⟨by simp [WellFormed.request, hsize, halign], ?_⟩
  have hpos : 0 < r.bytes := Nat.two_pow_pos _
  have hsome : regionOf r.addr.toNat ≠ none := by
    have h0 := List.any_eq_false.1 hres 0 (List.mem_range.2 hpos)
    simpa using h0
  obtain ⟨g, hg⟩ := Option.ne_none_iff_exists'.1 hsome
  exact ⟨g, hg, fun hw => by simpa [Request.hitsReadOnly, hg] using hro hw⟩

/-- `CMD` is the one control register that the host may write (R68). -/
theorem Region.isControl_eq_false_of_writable {g : Region} (hw : g.writable = true) (hne : g ≠ .cmd) :
    g.isControl = false := by
  cases g <;> simp_all [Region.writable, Region.isControl]

theorem Request.length_take_bytes {r : Request} (hw : WellFormed.request r = true) :
    ((bytesOfWord r.wdata).take r.bytes).length = r.bytes := by
  have hle := Nat.le_of_dvd (by decide) (Request.bytes_dvd_four ((WellFormed.request_iff r).1 hw).1)
  simp [hle]

/-- An allowed write outside `CMD` goes to one data buffer that the host may write. -/
structure BufferWrite (r : Request) (g : Region) : Prop where
  wf : WellFormed.request r = true
  region : regionOf r.addr.toNat = some g
  writable : g.writable = true
  buffer : g.isControl = false

/-- In the range of `CMD` the only aligned 4-byte access is the one at its base. -/
theorem Request.addr_eq_cmd {r : Request} (hr : regionOf r.addr.toNat = some .cmd)
    (h4 : r.bytes = 4) (ha : r.addr.toNat % r.bytes = 0) : r.addr.toNat = Region.cmd.base := by
  have h := (Region.contains_iff _ _).1 (regionOf_eq_some_iff.1 hr)
  simp only [Region.base, Region.bytes] at h ⊢
  rw [h4] at ha
  omega

theorem bufferWrite_of_busError {s : State} {r : Request} (h : busError s r = false)
    (hw : r.write = true) (ha : r.addr.toNat ≠ Region.cmd.base) : ∃ g, BufferWrite r g := by
  obtain ⟨hwf, g, hg, hwr⟩ := busError_eq_false_region h
  refine ⟨g, hwf, hg, hwr hw, Region.isControl_eq_false_of_writable (hwr hw) ?_⟩
  rintro rfl
  have h4 : r.bytes = 4 := by
    rw [Request.bytes_eq_four_iff]
    by_contra hsize
    simp [busError, Request.hitsControl, hg, Region.isControl, hsize] at h
  exact ha (Request.addr_eq_cmd hg h4 ((WellFormed.request_iff r).1 hwf).2)

/-! ### A buffer write -/

@[simp] theorem State.writeBuffer_byteAt (s : State) (r : Request) (a : Nat) :
    (s.writeBuffer r).byteAt a =
      (s.writeBytes r.addr.toNat ((bytesOfWord r.wdata).take r.bytes)).byteAt a := by
  unfold State.writeBuffer
  split <;> rfl

theorem State.writeBuffer_mem (s : State) (r : Request) : (s.writeBuffer r).mem =
    s.mem.put r.addr.toNat ((bytesOfWord r.wdata).take r.bytes) := by
  unfold State.writeBuffer
  split <;> rfl

/-- A buffer write stores in one range only. -/
theorem BufferWrite.sameBytesOutside {r : Request} {g : Region} (h : BufferWrite r g) (s : State) :
    SameBytesOutside [g] s (s.writeBuffer r) := by
  intro a ha
  obtain ⟨hlo, hhi⟩ := Request.within_of_regionOf h.wf h.region
  have hout := mt (Region.contains_iff g a).2 (by simp [ha g List.mem_cons_self])
  rw [State.writeBuffer_byteAt, State.byteAt_writeBytes_out]
  rw [Request.length_take_bytes h.wf]
  omega

/-- The registers after a buffer write: it may clear `NNZ_FRESH`, no more (R38). -/
theorem State.writeBuffer_cases (s : State) (r : Request) :
    (Region.act.contains r.addr.toNat = true ∧ (s.writeBuffer r).status = s.status.withFresh false) ∨
      (Region.act.contains r.addr.toNat = false ∧ (s.writeBuffer r).status = s.status) := by
  unfold State.writeBuffer
  cases Region.act.contains r.addr.toNat <;> simp

@[simp] theorem State.writeBuffer_errinfo (s : State) (r : Request) :
    (s.writeBuffer r).errinfo = s.errinfo := by unfold State.writeBuffer; split <;> rfl
@[simp] theorem State.writeBuffer_nnzCount (s : State) (r : Request) :
    (s.writeBuffer r).nnzCount = s.nnzCount := by unfold State.writeBuffer; split <;> rfl
@[simp] theorem State.writeBuffer_score (s : State) (r : Request) :
    (s.writeBuffer r).score = s.score := by unfold State.writeBuffer; split <;> rfl
@[simp] theorem State.writeBuffer_inReset (s : State) (r : Request) :
    (s.writeBuffer r).inReset = s.inReset := by unfold State.writeBuffer; split <;> rfl
@[simp] theorem State.writeBuffer_schedule (s : State) (r : Request) :
    (s.writeBuffer r).schedule = s.schedule := by unfold State.writeBuffer; split <;> rfl

/-! ### The parts of the invariant -/

/-- No command is in flight where `BUSY = 0`. -/
theorem State.FlightInv.of_not_busy {s : State} (h : s.status.busy = false) : s.FlightInv := by
  constructor <;> simp [h]

theorem State.FlightInv.congr {s t : State} (h : s.FlightInv) (hs : t.status = s.status) :
    t.FlightInv := by
  have hi : t.inFlight = s.inFlight := by rw [State.inFlight, State.inFlight, hs]
  exact ⟨by rw [hs, hi]; exact h.decodes, by rw [hs, hi]; exact h.table, by rw [hs, hi]; exact h.list⟩

theorem State.ControlInv.congr {s t : State} (h : s.ControlInv) (hs : t.status = s.status)
    (hi : t.errinfo = s.errinfo) (hc : t.nnzCount = s.nnzCount)
    (hr : t.inReset = true → s.inReset = true) : t.ControlInv where
  code_iff := by rw [hs]; exact h.code_iff
  code_le := by rw [hs]; exact h.code_le
  not_busy_err := by rw [hs]; exact h.not_busy_err
  busy_not_done := by rw [hs]; exact h.busy_not_done
  err_not_done := by rw [hs]; exact h.err_not_done
  info_zero := by rw [hs, hi]; exact h.info_zero
  count_le := by rw [hc]; exact h.count_le
  in_reset := by rw [hs]; exact fun ht => h.in_reset (hr ht)

/-- The list's invariant is about the bytes of `ACT` and `NNZ` while the list is fresh (R48). -/
theorem State.FreshInv.of_agreeOn {s t : State} (h : s.FreshInv) (hact : AgreeOn .act s t)
    (hnnz : AgreeOn .nnz s t) (hc : t.nnzCount = s.nnzCount) (hle : s.nnzCount.toNat ≤ 512)
    (hf : t.status.nnzFresh = true → s.status.nnzFresh = true)
    (hv : s.status.lutValid = true → t.status.lutValid = true) : t.FreshInv := by
  intro ht
  obtain ⟨hvalid, hlist⟩ := h (hf ht)
  exact ⟨hv hvalid, (hnnz.nnzList hc hle).trans (hlist.trans hact.nonzeroGroups.symm)⟩

/-- A step that stores no byte and keeps the count and the two validity flags keeps the invariant, if
the control registers do. -/
theorem State.Inv.of_sameData {s t : State} (h : s.Inv) (hm : t.mem = s.mem) (he : t.epoch = s.epoch)
    (hc : t.nnzCount = s.nnzCount) (hv : t.status.lutValid = s.status.lutValid)
    (hf : t.status.nnzFresh = s.status.nnzFresh) (hcontrol : t.ControlInv) (hflight : t.FlightInv) :
    t.Inv where
  control := hcontrol
  flight := hflight
  table := h.table.of_agreeOn (fun a _ => State.byteAt_congr hm he a) fun hv' => hv ▸ hv'
  list := h.list.of_agreeOn (fun a _ => State.byteAt_congr hm he a)
    (fun a _ => State.byteAt_congr hm he a) hc h.control.count_le (fun hf' => hf ▸ hf') fun hv' => hv ▸ hv'
  memory := h.memory.congr hm

theorem State.Inv.taken {s : State} (h : s.Inv) : s.taken.Inv :=
  h.of_sameData rfl rfl rfl rfl rfl (h.control.congr rfl rfl rfl id) (h.flight.congr rfl)

theorem State.Inv.respond {s : State} (h : s.Inv) (r : Response) : (s.respond r).Inv :=
  h.of_sameData rfl rfl rfl rfl rfl (h.control.congr rfl rfl rfl id) (h.flight.congr rfl)

theorem State.Inv.releaseReset {s : State} (h : s.Inv) : s.releaseReset.Inv :=
  h.of_sameData rfl rfl rfl rfl rfl
    (h.control.congr rfl rfl rfl fun hr => by simp at hr) (h.flight.congr rfl)

/-! ### Reset -/

/-- A state with zero control registers and no stored byte meets the invariant. -/
theorem State.Inv.of_zero {s : State} (hs : s.status = Status.zero) (hi : s.errinfo = 0#32)
    (hc : s.nnzCount = 0#32) (hm : s.mem = []) : s.Inv where
  control := by constructor <;> simp [hs, hi, hc, Status.zero]
  flight := State.FlightInv.of_not_busy (by rw [hs]; rfl)
  table := fun hv => by simp [hs, Status.zero] at hv
  list := fun hf => by simp [hs, Status.zero] at hf
  memory := ⟨by rw [hm]; exact List.Pairwise.nil, by simp [hm]⟩

/-- Settles O54. -/
theorem invariantAtReset : Obligations.InvariantAtReset := State.Inv.of_zero rfl rfl rfl rfl

/-! ### Acceptance -/

theorem ErrorKind.code_ne_zero (k : ErrorKind) : k.code ≠ 0#4 := by cases k <;> decide

theorem ErrorKind.code_toNat_le (k : ErrorKind) : k.code.toNat ≤ 5 := by cases k <;> decide

/-- Error entry keeps the invariant out of reset (R239). -/
theorem State.Inv.raise {s : State} (h : s.Inv) (hr : s.inReset = false) (k : ErrorKind) (w : Word) :
    (s.raise k w).Inv := by
  refine h.of_sameData rfl rfl rfl rfl rfl ?_ (State.FlightInv.of_not_busy rfl)
  exact {
    code_iff := by simp [k.code_ne_zero]
    code_le := k.code_toNat_le
    not_busy_err := by simp
    busy_not_done := by simp
    err_not_done := by simp
    info_zero := by simp
    count_le := h.control.count_le
    in_reset := by simp [hr] }

/-- A command put in flight, its precondition met and no error recorded, keeps the invariant. -/
theorem State.Inv.start {s : State} {i : Instr} (h : s.Inv) (hr : s.inReset = false)
    (he : s.status.err = false) (hp : preconditionOf i s = none) : (s.start i).Inv := by
  obtain ⟨htable, hlist⟩ := (preconditionOf_eq_none_iff i s).1 hp
  have hcode : s.status.errcode = 0#4 := by simpa [he] using h.control.code_iff
  refine h.of_sameData rfl rfl rfl rfl rfl ?_ ?_
  · exact {
      code_iff := by simp [hcode, he]
      code_le := h.control.code_le
      not_busy_err := by simp [he]
      busy_not_done := by simp
      err_not_done := by simp
      info_zero := h.control.info_zero
      count_le := h.control.count_le
      in_reset := by simp [hr] }
  · exact {
      decodes := fun _ => ⟨i, s.inFlight_start i⟩
      table := fun _ hi => htable (by simpa [State.inFlight_start] using hi)
      list := fun _ hi => hlist (by simpa [State.inFlight_start] using hi) }

/-- Error flags cleared with no command in flight. -/
theorem State.Inv.clearError {s : State} (h : s.Inv) (hb : s.status.busy = false) :
    s.clearError.Inv := by
  refine h.of_sameData rfl rfl rfl rfl rfl ?_ (State.FlightInv.of_not_busy hb)
  exact {
    code_iff := by simp
    code_le := by simp
    not_busy_err := by simp
    busy_not_done := by simp [hb]
    err_not_done := by simp
    info_zero := by simp
    count_le := h.control.count_le
    in_reset := fun hr => by rw [State.clearError_status, h.control.in_reset hr]; rfl }

theorem State.Inv.acceptOf {s : State} (h : s.Inv) (hr : s.inReset = false)
    (hb : s.status.busy = false) (i : Instr) : (acceptOf i s).Inv := by
  unfold Machine.acceptOf
  split
  · exact (h.clearError hb).start hr rfl rfl
  · rcases s.accept_cases i (preconditionOf i s) with ⟨-, ht⟩ | ⟨-, k, -, ht⟩ | ⟨he, hp, ht⟩ <;> rw [ht]
    · exact h
    · exact h.raise hr k _
    · exact h.start hr he hp

/-! ### Completion -/

/-- A command in flight: no error is recorded, and the block is out of reset. -/
theorem State.ControlInv.of_busy {s : State} (h : s.ControlInv) (hb : s.status.busy = true) :
    s.status.err = false ∧ s.status.errcode = 0#4 ∧ s.errinfo = 0#32 ∧ s.inReset = false := by
  have he : s.status.err = false := by simpa [hb] using h.not_busy_err
  refine ⟨he, by simpa [he] using h.code_iff, h.info_zero he, ?_⟩
  by_contra hr
  rw [h.in_reset (by simpa using hr)] at hb
  cases hb

/-- The index list never has more than 512 elements (R24). -/
theorem nnzStage_nnzCount_le (s : State) : (nnzStage s).nnzCount.toNat ≤ 512 := by
  rw [← State.length_nnzList, nnzStage_nnzList, List.length_map]
  exact length_encoderOutput_le s

theorem EvalRun.nnzCount {s s2 s3 t : State} {n : Int} (h : EvalRun s s2 s3 n t) :
    t.nnzCount = (nnzStage (ftqStage s)).nnzCount := by
  obtain ⟨h1, h2, -, rfl⟩ := h
  exact (l2Stage_nnzCount h2).trans (l1Stage_nnzCount h1)

theorem finishOf_nnzCount_le (i : Instr) {s : State} (h : s.nnzCount.toNat ≤ 512) :
    (finishOf i s).nnzCount.toNat ≤ 512 := by
  by_cases hi : i ≠ .nnz ∧ i ≠ .ft ∧ i ≠ .eval ∧ i ≠ .srst
  · rwa [finishOf_nnzCount hi]
  · obtain rfl | rfl | rfl | rfl : i = .nnz ∨ i = .ft ∨ i = .eval ∨ i = .srst := by tauto
    · exact nnzStage_nnzCount_le s
    · exact nnzStage_nnzCount_le (ftqStage s)
    · rw [finishOf, finishEval]
      rcases s.conclude_cases (evalStages s) loseEval with ⟨t, ht, hend⟩ | ⟨f, -, hend⟩ <;> rw [hend]
      · obtain ⟨s2, s3, n, hrun⟩ := evalStages_eq_ok ht
        rw [State.complete_nnzCount, hrun.nnzCount]
        exact nnzStage_nnzCount_le _
      · exact loseEval_nnzCount_le s
    · simp [finishOf, finishSrst]

theorem State.ControlInv.finishOf {s : State} (h : s.ControlInv) (hb : s.status.busy = true)
    (i : Instr) : (finishOf i s).ControlInv := by
  obtain ⟨he, hcode, hinfo, hreset⟩ := h.of_busy hb
  have hcount := finishOf_nnzCount_le i h.count_le
  have hr : (Machine.finishOf i s).inReset = false := (finishOf_samePort i s).inReset.trans hreset
  by_cases hi : i = .srst
  · subst hi
    exact {
      code_iff := by simp [Machine.finishOf, finishSrst, Status.afterSrst, Status.zero]
      code_le := by simp [Machine.finishOf, finishSrst, Status.afterSrst, Status.zero]
      not_busy_err := by simp [Machine.finishOf, finishSrst, Status.afterSrst, Status.zero]
      busy_not_done := by simp [finishOf_busy]
      err_not_done := by simp [Machine.finishOf, finishSrst, Status.afterSrst, Status.zero]
      info_zero := fun _ => rfl
      count_le := hcount
      in_reset := by simp [hr] }
  · rcases finishOf_ends hi s with hend | hend
    · exact {
        code_iff := by simp [hend.err, hend.errcode, he, hcode]
        code_le := by simp [hend.errcode, hcode]
        not_busy_err := by simp [hend.busy]
        busy_not_done := by simp [hend.busy]
        err_not_done := by simp [hend.err, he]
        info_zero := fun _ => hend.errinfo.trans hinfo
        count_le := hcount
        in_reset := by simp [hr] }
    · exact {
        code_iff := by rcases hend.errcode with hk | hk <;> simp [hend.err, hk]
        code_le := by rcases hend.errcode with hk | hk <;> simp [hk]
        not_busy_err := by simp [hend.busy]
        busy_not_done := by simp [hend.busy]
        err_not_done := fun _ => hend.done
        info_zero := by simp [hend.err]
        count_le := hcount
        in_reset := by simp [hr] }

/-- The table is kept by every command but INIT, which builds it, and SRST, which invalidates it. -/
theorem State.TableInv.finishOf {s : State} (h : s.TableInv) (i : Instr) : (finishOf i s).TableInv := by
  by_cases hinit : i = .init
  · subst hinit
    exact fun _ m hm e he => finishInit_lut s hm he
  · by_cases hsrst : i = .srst
    · subst hsrst
      intro hv
      cases hv
    · have hlut : Region.lut ∉ bufferWrites i := by cases i <;> simp_all [bufferWrites]
      refine h.of_agreeOn ((finishOf_sameBytesOutside i s).agreeOn hlut) fun hv => ?_
      rwa [finishOf_lutValid ⟨hinit, hsrst⟩] at hv

/-- After a successful EVAL the list is the one of its `ACT`: its later stages leave both alone. -/
theorem EvalRun.list {s s2 s3 t : State} {n : Int} (h : EvalRun s s2 s3 n t) (htable : s.TableInv)
    (hv : s.status.lutValid = true) : t.nnzList = nonzeroGroups t := by
  have hcount := h.nnzCount
  obtain ⟨h1, h2, -, rfl⟩ := h
  have hkeep : SameBytesOutside [.l1acc, .l1out, .l2out] (nnzStage (ftqStage s)) s3 :=
    ((l1Stage_sameBytesOutside h1).mono (by simp)).trans ((l2Stage_sameBytesOutside h2).mono (by simp))
  have hlist := AgreeOn.nnzList (t := (s3.setScore (BitVec.ofInt 32 n)).setFresh true)
    (hkeep.agreeOn (by decide)) hcount (nnzStage_nnzCount_le _)
  exact hlist.trans ((nnzStage_list htable.ftqStage hv).trans
    (AgreeOn.nonzeroGroups (hkeep.agreeOn (r := .act) (by decide))).symm)

/-- The list after each completion: NNZ, FT and EVAL build it, FTQ and SRST make it stale. -/
theorem State.FreshInv.finishOf {s : State} {i : Instr} (h : s.FreshInv) (htable : s.TableInv)
    (hle : s.nnzCount.toNat ≤ 512)
    (hv : i = .nnz ∨ i = .ft ∨ i = .eval → s.status.lutValid = true) : (finishOf i s).FreshInv := by
  have keep (hw : Region.act ∉ bufferWrites i ∧ Region.nnz ∉ bufferWrites i)
      (hc : i ≠ .nnz ∧ i ≠ .ft ∧ i ≠ .eval ∧ i ≠ .srst)
      (hf : i ≠ .ftq ∧ i ≠ .nnz ∧ i ≠ .ft ∧ i ≠ .eval ∧ i ≠ .srst)
      (hvalid : s.status.lutValid = true → (Machine.finishOf i s).status.lutValid = true) :
      (Machine.finishOf i s).FreshInv :=
    h.of_agreeOn ((finishOf_sameBytesOutside i s).agreeOn hw.1)
      ((finishOf_sameBytesOutside i s).agreeOn hw.2) (finishOf_nnzCount hc s) hle
      (fun hn => finishOf_nnzFresh hf s ▸ hn) hvalid
  cases i with
  | nop | l1s | l1d | l2 | l3 =>
    exact keep (by decide) (by decide) (by decide) fun hvalid => by rwa [finishOf_lutValid (by decide)]
  | init => exact keep (by decide) (by decide) (by decide) fun _ => rfl
  | ftq | srst =>
    intro hf
    cases hf
  | nnz => exact fun _ => ⟨(finishOf_lutValid (by decide) s).trans (hv (by simp)),
      (nnzStage_list htable (hv (by simp)) :)⟩
  | ft => exact fun _ => ⟨(finishOf_lutValid (by decide) s).trans (hv (by simp)),
      (nnzStage_list htable.ftqStage (hv (by simp)) :)⟩
  | eval =>
    rw [Machine.finishOf, finishEval]
    rcases s.conclude_cases (evalStages s) loseEval with ⟨t, ht, hend⟩ | ⟨f, -, hend⟩ <;> rw [hend]
    · obtain ⟨s2, s3, n, hrun⟩ := evalStages_eq_ok ht
      refine fun _ => ⟨?_, (hrun.list htable (hv (by simp)) :)⟩
      rw [State.complete_status, evalStages_status ht]
      exact hv (by simp)
    · intro hf
      simp at hf

theorem State.conclude_memoryInv {s : State} {r : Except Failure State} {lose : State → State}
    (hok : ∀ t, r = .ok t → t.MemoryInv) (hlose : (lose s).MemoryInv) :
    (s.conclude r lose).MemoryInv :=
  State.conclude_of (fun _ h => h.congr rfl) (fun _ _ _ h => h.congr rfl) hok hlose

/-- A completion stores in data buffers only. -/
theorem State.MemoryInv.finishOf {s : State} (h : s.MemoryInv) (i : Instr) :
    (finishOf i s).MemoryInv := by
  have l1 {k : Instr} (hk : k = .l1s ∨ k = .l1d) : (Machine.finishOf k s).MemoryInv := by
    obtain ⟨gs, -, hend⟩ := finishOf_l1 hk s
    rw [hend]
    exact State.conclude_memoryInv (fun _ ht => h.l1Stage ht) (h.forgetAll (by decide))
  cases i with
  | nop => exact h.congr rfl
  | init =>
    refine h.put (t := finishInit s) (r := .lut) rfl (a := Region.lut.base)
      (vs := tableContents.flatMap bytesOfHalf) rfl le_rfl ?_
    rw [length_flatMap_bytesOfHalf, length_tableContents]
    decide
  | ftq => exact h.ftqStage.congr rfl
  | nnz => exact h.nnzStage.congr rfl
  | ft => exact h.ftqStage.nnzStage.congr rfl
  | l1s => exact l1 (.inl rfl)
  | l1d => exact l1 (.inr rfl)
  | l2 =>
    rw [Machine.finishOf, finishL2]
    exact State.conclude_memoryInv (fun _ ht => h.l2Stage ht) (h.forgetAll (by decide))
  | l3 =>
    rw [Machine.finishOf, finishL3]
    refine State.conclude_memoryInv (fun t ht => ?_) (h.congr rfl)
    obtain ⟨n, -, rfl⟩ := l3Stage_eq_ok ht
    exact h.congr rfl
  | eval =>
    rw [Machine.finishOf, finishEval]
    refine State.conclude_memoryInv (fun t ht => ?_)
      ((h.forgetAll (rs := bufferWrites .eval) (by decide)).congr rfl)
    obtain ⟨s2, s3, n, h1, h2, -, rfl⟩ := evalStages_eq_ok ht
    exact ((h.ftqStage.nnzStage.l1Stage h1).l2Stage h2).congr rfl
  | srst => exact (h.forgetAll (rs := [.nnz]) (by decide)).congr rfl

theorem State.Inv.finishOf {s : State} (h : s.Inv) (hb : s.status.busy = true) {i : Instr}
    (hi : s.inFlight = .ok i) : (finishOf i s).Inv where
  control := h.control.finishOf hb i
  flight := State.FlightInv.of_not_busy (finishOf_busy i s)
  table := h.table.finishOf i
  list := h.list.finishOf h.table h.control.count_le fun hc =>
    h.flight.table hb (by simpa [hi] using hc)
  memory := h.memory.finishOf i

/-! ### A transaction -/

/-- A write to a buffer keeps the invariant: the table is read-only, and a write to `ACT` makes the list
stale. -/
theorem State.Inv.writeBuffer {s : State} {r : Request} {g : Region} (h : s.Inv) (hw : BufferWrite r g)
    (hb : s.status.busy = false) : (s.writeBuffer r).Inv := by
  have hbytes := hw.sameBytesOutside s
  have keep (q : Region) (hq : q.writable = false) : AgreeOn q s (s.writeBuffer r) :=
    hbytes.agreeOn fun hmem => by
      rw [List.mem_singleton.1 hmem, hw.writable] at hq
      cases hq
  have hmemory : (s.writeBuffer r).MemoryInv := by
    obtain ⟨hlo, hhi⟩ := Request.within_of_regionOf hw.wf hw.region
    exact h.memory.put hw.buffer (s.writeBuffer_mem r) hlo (by rwa [Request.length_take_bytes hw.wf])
  rcases s.writeBuffer_cases r with ⟨-, hs⟩ | ⟨hact, hs⟩
  · exact {
      control :=
        { code_iff := by rw [hs]; exact h.control.code_iff
          code_le := by rw [hs]; exact h.control.code_le
          not_busy_err := by rw [hs]; exact h.control.not_busy_err
          busy_not_done := by rw [hs]; exact h.control.busy_not_done
          err_not_done := by rw [hs]; exact h.control.err_not_done
          info_zero := by rw [hs, State.writeBuffer_errinfo]; exact h.control.info_zero
          count_le := by rw [State.writeBuffer_nnzCount]; exact h.control.count_le
          in_reset := fun hr => by
            rw [hs, h.control.in_reset (by simpa using hr)]
            rfl }
      flight := State.FlightInv.of_not_busy (by rw [hs]; exact hb)
      table := h.table.of_agreeOn (keep .lut rfl) fun hv => by rwa [hs] at hv
      list := fun hf => by simp [hs] at hf
      memory := hmemory }
  · have hne : Region.act ∉ [g] := fun hmem => by
      rw [List.mem_singleton.1 hmem, regionOf_eq_some_iff.1 hw.region] at hact
      cases hact
    exact {
      control := h.control.congr hs (by simp) (by simp) (by simp)
      flight := h.flight.congr hs
      table := h.table.of_agreeOn (keep .lut rfl) fun hv => by rwa [hs] at hv
      list := h.list.of_agreeOn (hbytes.agreeOn hne) (keep .nnz rfl) (by simp) h.control.count_le
        (fun hf => by rwa [hs] at hf) fun hv => by rwa [hs]
      memory := hmemory }

theorem State.Inv.issue {s t : State} {w : Word} (h : s.Inv) (hr : s.inReset = false)
    (hb : s.status.busy = false) (ht : issue w s = .next t) : t.Inv := by
  rw [issue_next w hb] at ht
  cases ht
  cases decode w with
  | ok i => exact h.acceptOf hr hb i
  | error e => exact h.raise hr .illcmd w

theorem State.Inv.transact {s t : State} {r : Request} (h : s.Inv) (hr : s.inReset = false)
    (ht : transact r s = .next t) : t.Inv := by
  rcases transact_cases r s with ⟨-, he⟩ | ⟨-, -, he⟩ | ⟨hb, hw, -, he⟩ | ⟨hb, hw, ha, he⟩ <;>
    rw [he] at ht
  · cases ht
    exact h.respond _
  · cases ht
    exact h.respond _
  · exact (h.respond (.ok 0#32)).issue hr (not_busy_of_write hw hb) ht
  · cases ht
    obtain ⟨g, hg⟩ := bufferWrite_of_busError hb hw ha
    exact (h.writeBuffer hg (not_busy_of_write hw hb)).respond _

/-! ### A step -/

/-- Settles O55: each kind of step keeps the invariant. -/
theorem invariantKeptByStep : Obligations.InvariantKeptByStep := by
  intro s t h ht
  rcases step_cases s with ⟨-, hs⟩ | ⟨r, -, hs⟩ | ⟨-, hs⟩ | ⟨-, hs⟩ <;> rw [hs] at ht
  · rcases sequencer_cases ht with ⟨-, rfl⟩ | ⟨i, hb, hi, rfl⟩
    · exact h.taken
    · exact h.taken.finishOf hb hi
  · split at ht
    · cases ht
      exact h.taken
    next hr => exact h.taken.transact (by simpa using hr) ht
  · cases ht
    exact State.Inv.of_zero rfl rfl rfl rfl
  · cases ht
    exact h.taken.releaseReset

/-- A transaction always answers. -/
theorem exists_transact_next (r : Request) (s : State) : ∃ t, transact r s = .next t := by
  cases he : busError s r
  · obtain ⟨t, _, ht, -⟩ := transact_ok he
    exact ⟨t, ht⟩
  · exact ⟨_, if_pos he⟩

/-- Settles O56: only the sequencer can stop, where no command is in flight that it knows, and the
invariant rules that out. -/
theorem stepNeverStops : Obligations.StepNeverStops := by
  intro s h
  rcases step_cases s with ⟨-, hs⟩ | ⟨r, -, hs⟩ | ⟨-, hs⟩ | ⟨-, hs⟩ <;> rw [hs]
  · unfold sequencer
    split
    next hb =>
      obtain ⟨i, hi⟩ := h.taken.flight.decodes hb
      exact ⟨finishOf i s.taken, by rw [hi]; exact exec_of_busy i hb⟩
    next => exact ⟨_, rfl⟩
  · split
    · exact ⟨_, rfl⟩
    · exact exists_transact_next r s.taken
  · exact ⟨_, rfl⟩
  · exact ⟨_, rfl⟩

end Sys2Proof.Machine
end

section
/-! Reset and the two kinds of step that run a command (spec/00_scope.md R16, spec/10_state.md R36,
spec/60_exceptions.md R238, R242, spec/70_reset_and_hazards.md R260). -/

namespace Sys2Proof.Machine

/-! ### Decoding and reset -/

/-- Settles O1: each word's fields, evaluated. -/
theorem decodeMatchesVectors : Obligations.DecodeMatchesVectors := by
  unfold Obligations.DecodeMatchesVectors
  decide

/-- Settles O3: the fields of the reset state. -/
theorem resetControlState : Obligations.ResetControlState := by
  unfold Obligations.ResetControlState
  decide

theorem Status.word_zero : Status.zero.word = 0#32 := by decide

/-- While `rst_n` is low a request is not taken (R260). -/
theorem step_of_host_inReset {s : State} {r : Request} (h : s.nextMove (.host r))
    (hr : s.inReset = true) : step s = .next s.taken := by
  rw [step_of_nextMove h]
  exact if_pos hr

/-- Settles O4: the three moves that concern the reset pin. -/
theorem hardwareResetFromAnyState : Obligations.HardwareResetFromAnyState := by
  refine ⟨fun s h => ?_, fun s r hr h => step_of_host_inReset h hr, fun s _ h => ?_⟩
  · exact ⟨s.taken.hardwareReset, step_of_nextMove h, Status.word_zero, rfl, rfl, rfl, rfl, rfl, rfl, rfl⟩
  · exact ⟨s.taken.releaseReset, step_of_nextMove h, rfl, rfl, rfl, rfl, rfl, fun _ => rfl⟩

/-! ### The layout of `STATUS` -/

/-- The bits of `STATUS`, from bit 0 up (R36). -/
theorem Status.getLsbD_word (f : Status) {i : Nat} (hi : i < 32) : f.word.getLsbD i =
    if i < 8 then [f.busy, f.done, f.err, f.lutValid, f.nnzFresh].getD i false
    else if i < 12 then f.errcode.getLsbD (i - 8) else f.cur.getLsbD (i - 12) := by
  simp only [Status.word, BitVec.getLsbD_append]
  interval_cases i <;> simp

/-- Settles O18: the single bits, then the four fields bit by bit. -/
theorem statusWordLayout : Obligations.StatusWordLayout := by
  intro f
  refine ⟨f.getLsbD_word (by decide), f.getLsbD_word (by decide), f.getLsbD_word (by decide),
    f.getLsbD_word (by decide), f.getLsbD_word (by decide), ?_, ?_, ?_, ?_⟩ <;>
  · refine BitVec.eq_of_getLsbD_eq fun i hi => ?_
    rw [BitVec.getLsbD_extractLsb', f.getLsbD_word (by omega)]
    interval_cases i <;> simp

/-! ### The steps that run a command -/

/-- Settles O5: the bus lets the word through, and it is the command's own. -/
theorem commandWriteRunsDecoded : Obligations.CommandWriteRunsDecoded := by
  intro s w i h hr hb he hd
  obtain rfl := decode_eq_ok_iff.1 hd
  have hok : busError s (cmdWrite (encode i)) = false := by
    rw [← Bool.not_eq_true, busError_cmdWrite_iff]
    rintro (hbusy | ⟨herr, hne⟩)
    · simp [hb] at hbusy
    · rcases he with he | rfl
      · simp [he] at herr
      · exact hne rfl
  rw [step_of_cmdWrite h hr hok, issue_encode]

/-- Settles O6: the latched `CUR` names the command that the sequencer runs. -/
theorem sequencerStepRunsCommandInFlight : Obligations.SequencerStepRunsCommandInFlight := by
  refine ⟨fun s i h hrun => ?_, fun s h hb => ?_⟩
  · have hrun' : s.taken.runs i := hrun
    rw [step_of_sequencerNext h, sequencer_of_runs hrun', exec_of_busy i hrun'.1]
  · rw [step_of_sequencerNext h, sequencer, if_neg (by simp [hb])]

/-- Settles O9: the precondition of the statement is the command's own (R43). -/
theorem acceptedCommandIsInFlight : Obligations.AcceptedCommandIsInFlight :=
  fun s i h htable hlist hi =>
    exec_of_accepted h hi ((preconditionOf_eq_none_iff i s).2 ⟨htable, hlist⟩)

/-- Settles O11: acceptance of SRST is `acceptSrst`, whatever the error flags. -/
theorem srstAcceptedInErrorState : Obligations.SrstAcceptedInErrorState :=
  fun _ hb => exec_of_idle .srst hb

/-! ### What a written command word changes -/

theorem StatusOnly.raise (s : State) (k : ErrorKind) (w : Word) : StatusOnly s (s.raise k w) :=
  ⟨rfl, ⟨rfl, rfl, rfl, rfl⟩, rfl, rfl, rfl, rfl⟩

/-- A word written to `CMD` changes `STATUS` and `ERRINFO` only (R238). -/
theorem issue_statusOnly {w : Word} {s t : State} (hb : s.status.busy = false)
    (h : issue w s = .next t) : StatusOnly s t := by
  rw [issue_next w hb] at h
  cases h
  cases decode w with
  | ok i => exact acceptOf_statusOnly i s
  | error e => exact StatusOnly.raise s _ w

/-- Everything an answered transaction leaves of the bytes and of `LUT_VALID`: only an allowed write to
a buffer stores, and none changes the flag. -/
theorem transact_lutValid {r : Request} {s t : State} (h : transact r s = .next t) :
    t.status.lutValid = s.status.lutValid := by
  rcases transact_cases r s with ⟨-, ht⟩ | ⟨-, -, ht⟩ | ⟨hb, hw, -, ht⟩ | ⟨-, -, -, ht⟩ <;> rw [ht] at h
  · cases h; rfl
  · cases h; rfl
  · exact (issue_statusOnly (s := s.respond (.ok 0#32)) (not_busy_of_write hw hb) h).lutValid
  · cases h
    rcases s.writeBuffer_cases r with ⟨-, hs⟩ | ⟨-, hs⟩ <;> simp [hs]

/-- A transaction stores in the bytes of an allowed write only. -/
theorem transact_byteAt_ne {r : Request} {s t : State} (h : transact r s = .next t) {a : Nat}
    (hne : t.byteAt a ≠ s.byteAt a) :
    r.write = true ∧ busError s r = false ∧ r.addr.toNat ≤ a ∧ a < r.addr.toNat + r.bytes := by
  rcases transact_cases r s with ⟨-, ht⟩ | ⟨-, -, ht⟩ | ⟨hb, hw, -, ht⟩ | ⟨hb, hw, ha, ht⟩ <;> rw [ht] at h
  · cases h; exact absurd rfl hne
  · cases h; exact absurd rfl hne
  · have hissue := issue_statusOnly (s := s.respond (.ok 0#32)) (not_busy_of_write hw hb) h
    exact absurd (hissue.byteAt_eq a) hne
  · cases h
    obtain ⟨g, hg⟩ := bufferWrite_of_busError hb hw ha
    refine ⟨hw, hb, ?_⟩
    by_contra hout
    refine hne ?_
    rw [State.byteAt_respond, State.writeBuffer_byteAt, State.byteAt_writeBytes_out]
    rw [Request.length_take_bytes hg.wf]
    omega

/-! ### Events over all steps -/

/-- The table is valid after INIT, and stays so through every other command but SRST (R39). -/
theorem finishOf_lutValid_iff (i : Instr) (s : State) : (finishOf i s).status.lutValid = true ↔
    i = .init ∨ (s.status.lutValid = true ∧ i ≠ .srst) := by
  by_cases hinit : i = .init
  · subst hinit
    exact iff_of_true rfl (.inl rfl)
  · by_cases hsrst : i = .srst
    · subst hsrst
      exact iff_of_false (by simp [finishOf, finishSrst, Status.afterSrst, Status.zero]) (by simp)
    · simp [finishOf_lutValid ⟨hinit, hsrst⟩, hinit, hsrst]

/-- Settles O20: the flag after each kind of step. -/
theorem lutValidEvents : Obligations.LutValidEvents := by
  intro s t h
  rcases step_cases s with ⟨hq, hs⟩ | ⟨r, hm, hs⟩ | ⟨hm, hs⟩ | ⟨hm, hs⟩ <;> rw [hs] at h
  · have hreset := State.not_nextMove_of_sequencerNext hq (m := .assertReset) (by simp)
    rcases sequencer_cases h with ⟨hb, rfl⟩ | ⟨i, hb, hi, rfl⟩
    · change s.status.busy = false at hb
      simp [hreset, hb]
    · change s.status.busy = true at hb
      change s.inFlight = .ok i at hi
      simp [finishOf_lutValid_iff, hq, hreset, hb, hi]
  · have hq := State.not_sequencerNext_of_nextMove hm (by simp)
    have hkeep : t.status.lutValid = s.status.lutValid := by
      split at h
      · cases h; rfl
      · exact (transact_lutValid h :)
    simp [hq, hkeep, State.nextMove_iff_eq hm]
  · have hq := State.not_sequencerNext_of_nextMove hm (by simp)
    cases h
    simp [hq, hm, Status.zero]
  · have hq := State.not_sequencerNext_of_nextMove hm (by simp)
    cases h
    simp [hq, State.nextMove_iff_eq hm]

/-- No command writes the accumulators, the weights or the biases (R72). -/
theorem notMem_bufferWrites_of_input {r : Region}
    (hr : r ∈ [Region.us, .them, .l1w, .l1b, .l2w, .l2b, .l3w, .l3b]) (i : Instr) :
    r ∉ bufferWrites i := by
  revert r
  cases i <;> decide

/-- Settles O21: a completion keeps the inputs by its frame, and a transaction stores in the bytes of an
allowed write only. -/
theorem inputsChangeOnlyByHost : Obligations.InputsChangeOnlyByHost := by
  intro s t r a h hr ha hne
  rcases step_cases s with ⟨hq, hs⟩ | ⟨q, hm, hs⟩ | ⟨hm, hs⟩ | ⟨hm, hs⟩ <;> rw [hs] at h
  · rcases sequencer_cases h with ⟨-, rfl⟩ | ⟨i, -, -, rfl⟩
    · exact absurd rfl hne
    · exact absurd ((finishOf_sameBytesOutside i s.taken).byteAt_eq
        (notMem_bufferWrites_of_input hr i) ha) hne
  · split at h
    · cases h
      exact absurd rfl hne
    · exact .inr ⟨q, hm, transact_byteAt_ne h hne⟩
  · exact .inl hm
  · cases h
    exact absurd rfl hne

/-- In the error state the bus lets only SRST's word through to `CMD` (R66 (4), (7), R242). -/
theorem eq_cmdWrite_srst {s : State} {r : Request} (he : s.status.err = true)
    (hok : busError s r = false) (hw : r.write = true) (ha : r.addr.toNat = Region.cmd.base) :
    r = cmdWrite (encode .srst) := by
  have hregion : regionOf Region.cmd.base = some .cmd := by decide
  have hsize : r.size = 2#2 := by
    by_contra hne
    simp [busError, Request.hitsControl, ha, hregion, Region.isControl, hne] at hok
  have hdata : r.wdata = encode .srst := by
    by_contra hne
    simp [busError, Request.issuesOther, he, hw, ha, hne] at hok
  obtain ⟨write, addr, size, wdata⟩ := r
  subst hw hsize hdata
  obtain rfl : addr = BitVec.ofNat 16 Region.cmd.base := BitVec.eq_of_toNat_eq ha
  rfl

/-- Settles O12: of the steps with no command in flight only SRST's acceptance and reset clear `ERR`. -/
theorem errorLeftOnlyBySrstOrReset : Obligations.ErrorLeftOnlyBySrstOrReset := by
  intro s t h hb he ht
  rcases step_cases s with ⟨hq, hs⟩ | ⟨r, hm, hs⟩ | ⟨hm, hs⟩ | ⟨hm, hs⟩ <;> rw [hs] at h
  · rcases sequencer_cases h with ⟨-, rfl⟩ | ⟨i, hbusy, -, -⟩
    · exact absurd (he.symm.trans ht) (by simp)
    · exact absurd (hb.symm.trans hbusy) (by simp)
  · right
    split at h
    · cases h
      exact absurd (he.symm.trans ht) (by simp)
    · rcases transact_cases r s.taken with ⟨-, hr⟩ | ⟨-, -, hr⟩ | ⟨hok, hw, ha, -⟩ | ⟨-, -, -, hr⟩
      · rw [hr] at h
        cases h
        exact absurd (he.symm.trans ht) (by simp)
      · rw [hr] at h
        cases h
        exact absurd (he.symm.trans ht) (by simp)
      · rwa [← eq_cmdWrite_srst (s := s.taken) he hok hw ha]
      · rw [hr] at h
        cases h
        rcases s.taken.writeBuffer_cases r with ⟨-, hs⟩ | ⟨-, hs⟩ <;> simp [hs, he] at ht
  · exact .inl hm
  · cases h
    exact absurd (he.symm.trans ht) (by simp)

end Sys2Proof.Machine
end

section
/-! Reads and buffer writes on the port (spec/20_memory.md R62 to R71): the bytes of the word that a read
answers, the bytes that a write stores, and the accesses that the error state allows. -/

namespace Sys2Proof.Machine

/-! ### The bytes of a word -/

theorem getElem?_bytesOfWord (w : Word) {k : Nat} (hk : k < 4) :
    (bytesOfWord w)[k]? = some (w.extractLsb' (8 * k) 8) := by
  interval_cases k <;> rfl

/-- A word is fixed by its four bytes. -/
theorem word_ext {v w : Word} (h : ∀ k < 4, v.extractLsb' (8 * k) 8 = w.extractLsb' (8 * k) 8) : v = w := by
  rw [← wordOfBytes_bytesOfWord v, ← wordOfBytes_bytesOfWord w]
  exact congrArg₂ (fun hi lo => hi ++ lo)
    (congrArg₂ (fun hi lo => hi ++ lo) (congrArg₂ (fun hi lo => hi ++ lo) (h 3 (by decide)) (h 2 (by decide)))
      (h 1 (by decide))) (h 0 (by decide))

theorem extractLsb'_wordOfBytes (b0 b1 b2 b3 : Byte) {k : Nat} (hk : k < 4) :
    (wordOfBytes b0 b1 b2 b3).extractLsb' (8 * k) 8 = [b0, b1, b2, b3].getD k 0#8 := by
  refine BitVec.eq_of_getLsbD_eq fun i hi => ?_
  simp only [BitVec.getLsbD_extractLsb', hi, decide_true, Bool.true_and, wordOfBytes,
    BitVec.getLsbD_append]
  interval_cases k
  · simp [hi]
  · simp [show ¬8 + i < 8 by omega, show 8 + i - 8 = i by omega, hi]
  · simp [show ¬16 + i < 8 by omega, show ¬16 + i - 8 < 8 by omega, show 16 + i - 8 - 8 = i by omega, hi]
  · simp [show ¬24 + i < 8 by omega, show ¬24 + i - 8 < 8 by omega, show ¬24 + i - 8 - 8 < 8 by omega,
      show 24 + i - 8 - 8 - 8 = i by omega]

/-- The low `n` bytes of a word, zero-extended. -/
theorem extractLsb'_ofNat_mod (v : Word) (n : Nat) {k : Nat} (hk : k < 4) :
    (BitVec.ofNat 32 (v.toNat % 2 ^ (8 * n))).extractLsb' (8 * k) 8 =
      if k < n then v.extractLsb' (8 * k) 8 else 0#8 := by
  refine BitVec.eq_of_getLsbD_eq fun i hi => ?_
  have hlt : 8 * k + i < 32 := by omega
  simp only [BitVec.getLsbD_extractLsb', hi, decide_true, Bool.true_and, BitVec.getLsbD_ofNat, hlt,
    Nat.testBit_mod_two_pow, BitVec.testBit_toNat]
  split
  · simp [show 8 * k + i < 8 * n by omega, hi]
  · simp [show ¬8 * k + i < 8 * n by omega]

/-! ### Reads -/

/-- The sizes of a well-formed access. -/
theorem WellFormed.bytes_cases {r : Request} (hw : WellFormed.request r = true) :
    r.bytes = 1 ∨ r.bytes = 2 ∨ r.bytes = 4 := by
  have key : ∀ z : BitVec 2, z ≠ 3#2 → 2 ^ z.toNat = 1 ∨ 2 ^ z.toNat = 2 ∨ 2 ^ z.toNat = 4 := by decide
  exact key r.size ((WellFormed.request_iff r).1 hw).1

/-- Every byte of a well-formed access is in the range of the first one. -/
theorem Request.region_eq {r : Request} {g q : Region} (hw : WellFormed.request r = true)
    (hg : regionOf r.addr.toNat = some g) {k : Nat} (hk : k < r.bytes)
    (hin : q.contains (r.addr.toNat + k) = true) : g = q := by
  obtain ⟨hlo, hhi⟩ := Request.within_of_regionOf hw hg
  exact Region.disjoint ((Region.contains_iff g _).2 ⟨by omega, by omega⟩) hin

/-- The word of a read: the bytes from the address up, then zeros (R61, R64). -/
theorem State.hostBytes_byte (s : State) (a : Nat) {n k : Nat} (hn : n = 1 ∨ n = 2 ∨ n = 4)
    (hk : k < 4) : (s.hostBytes a n).extractLsb' (8 * k) 8 = if k < n then s.hostByte (a + k) else 0#8 := by
  rw [State.hostBytes, extractLsb'_wordOfBytes _ _ _ _ hk]
  rcases hn with rfl | rfl | rfl <;> interval_cases k <;> simp

/-- The bytes of a buffer read (R62, R71). -/
theorem State.readValue_byte (s : State) {r : Request} {g : Region} (hw : WellFormed.request r = true)
    (hg : regionOf r.addr.toNat = some g) (hc : g.isControl = false) {k : Nat} (hk : k < 4) :
    (s.readValue r).extractLsb' (8 * k) 8 =
      if k < r.bytes then s.hostByte (r.addr.toNat + k) else 0#8 := by
  rw [← s.hostBytes_byte _ (WellFormed.bytes_cases hw) hk]
  simp [State.readValue, hg, hc]

/-- A stored byte reads as it is, of `LUT` while the table is valid (R68, U5). -/
theorem State.hostByte_eq_byteAt {s : State} {a : Nat}
    (h : Region.lut.contains a = true → s.status.lutValid = true) : s.hostByte a = s.byteAt a := by
  rw [State.hostByte, if_neg]
  simpa using h

/-- An access to a buffer, out of the error state's and the run's locks, is allowed: any read, and a
write where the host may write (R66). -/
theorem busError_eq_false_of_buffer {s : State} {r : Request} {g : Region}
    (hw : WellFormed.request r = true) (hg : regionOf r.addr.toNat = some g)
    (hc : g.isControl = false) (hwr : r.write = true → g.writable = true)
    (hb : s.status.busy = false) : busError s r = false := by
  obtain ⟨hsize, halign⟩ := (WellFormed.request_iff r).1 hw
  obtain ⟨hlo, hhi⟩ := Request.within_of_regionOf hw hg
  have hhigh : ¬r.addr.toNat ≤ 0x0013 := by
    rw [← Request.hitsControl_iff, Request.hitsControl, hg]
    simp [hc]
  have hro : r.write = true → ¬ReadOnlyAddr r.addr.toNat := fun h => by
    rw [← Request.hitsReadOnly_iff, Request.hitsReadOnly, hg]
    simp [hwr h]
  have hres : ¬∃ k < r.bytes, ReservedAddr (r.addr.toNat + k) := by
    rw [← Request.hitsReserved_iff hsize halign, Request.hitsReserved, List.any_eq_true]
    rintro ⟨k, hk, hnone⟩
    have hin : g.contains (r.addr.toNat + k) = true :=
      (Region.contains_iff g _).2 ⟨by omega, by have := List.mem_range.1 hk; omega⟩
    rw [regionOf_eq_some_iff.2 hin] at hnone
    cases hnone
  rw [← Bool.not_eq_true, busError_iff_busCause]
  rintro (h | h | h | h | h | h | h)
  · exact hsize h
  · exact h halign
  · exact hres h
  · exact hhigh h.1
  · exact hro h.1 h.2
  · simp [hb] at h
  · exact hhigh (by omega)

/-- Settles O15: a register's word comes from its own arm, and a buffer's bytes are the stored ones. -/
theorem readsReturnRegistersAndBytes : Obligations.ReadsReturnRegistersAndBytes := by
  intro s r h hr hw hok
  obtain ⟨hwf, g, hg, -⟩ := busError_eq_false_region hok
  refine ⟨s.readValue r, step_of_read h hr hok hw, ?_, ?_, ?_, ?_, ?_, fun hlut _ hlo k hk => ?_⟩
  iterate 5
    intro ha
    rw [State.readValue, ha]
    rfl
  have hc : g.isControl = false := by
    have hnot : ¬r.hitsControl = true := by
      rw [Request.hitsControl_iff]
      omega
    simpa [Request.hitsControl, hg] using hnot
  rw [s.readValue_byte hwf hg hc hk]
  refine ite_congr rfl (fun hkn => State.hostByte_eq_byteAt fun hin => hlut ?_) fun _ => rfl
  obtain rfl := Request.region_eq hwf hg hkn hin
  have haddr := (Region.contains_iff .lut _).1 (regionOf_eq_some_iff.1 hg)
  simp only [Region.base, Region.bytes] at haddr
  omega

/-! ### Writes -/

/-- An allowed write outside `CMD` is the buffer write, then the response (R62). -/
theorem step_of_bufferWrite {s : State} {r : Request} (h : s.nextMove (.host r))
    (hr : s.inReset = false) (hok : busError s r = false) (hw : r.write = true)
    (ha : r.addr.toNat ≠ Region.cmd.base) :
    step s = .next ((s.taken.writeBuffer r).respond (.ok 0#32)) := by
  rw [step_of_host h hr, transact, if_neg (by simp [hok]), if_pos hw, if_neg ha]

/-- The bytes that a write stores (R62, R64). -/
theorem State.writeBuffer_byte (s : State) {r : Request} (hw : WellFormed.request r = true) {k : Nat}
    (hk : k < r.bytes) :
    (s.writeBuffer r).byteAt (r.addr.toNat + k) = r.wdata.extractLsb' (8 * k) 8 := by
  have hlen := Request.length_take_bytes hw
  have hk4 : k < 4 := by rcases WellFormed.bytes_cases hw with h | h | h <;> omega
  have hlt : k < ((bytesOfWord r.wdata).take r.bytes).length := by omega
  rw [State.writeBuffer_byteAt, State.byteAt_writeBytes_in _ _ _ _ hlt, List.getElem_eq_iff hlt,
    List.getElem?_take_of_lt hk, getElem?_bytesOfWord _ hk4]

/-- The status after a buffer write, in one expression (R38). -/
theorem State.writeBuffer_status (s : State) (r : Request) : (s.writeBuffer r).status = { s.status with
    nnzFresh := s.status.nnzFresh && !(0x3000 ≤ r.addr.toNat && r.addr.toNat ≤ 0x37FF) } := by
  have hact : (decide (0x3000 ≤ r.addr.toNat) && decide (r.addr.toNat ≤ 0x37FF)) =
      Region.act.contains r.addr.toNat := by
    rw [Bool.eq_iff_iff, Region.act_contains_iff]
    simp
  rw [hact]
  rcases s.writeBuffer_cases r with ⟨hin, hs⟩ | ⟨hout, hs⟩
  · rw [hs, hin, Bool.not_true, Bool.and_false]
    rfl
  · rw [hs, hout, Bool.not_false, Bool.and_true]

theorem Request.addr_ne_cmd {r : Request} (h : r.addr ≠ 0x0000#16) :
    r.addr.toNat ≠ Region.cmd.base := fun he => h (BitVec.eq_of_toNat_eq he)

/-- Settles O16: the bytes and the flag of a buffer write. -/
theorem bufferWriteEffect : Obligations.BufferWriteEffect := by
  intro s r h hr hw hok ha
  have hwf := (busError_eq_false_region hok).1
  refine ⟨_, step_of_bufferWrite h hr hok hw (Request.addr_ne_cmd ha), rfl,
    fun k hk => s.taken.writeBuffer_byte hwf hk, fun a hout => ?_, s.taken.writeBuffer_status r,
    by simp, by simp, by simp, by simp [hr], by simp⟩
  rw [State.byteAt_respond, State.writeBuffer_byteAt, State.byteAt_writeBytes_out]
  · rfl
  · rw [Request.length_take_bytes hwf]
    exact hout

/-- Settles O17: the read is allowed where the write was, and its bytes are those stored. -/
theorem writeThenReadBack : Obligations.WriteThenReadBack := by
  intro s a size v hsched hr hok ha
  obtain ⟨g, hwf, hg, hwr, hc⟩ := bufferWrite_of_busError hok rfl (Request.addr_ne_cmd ha)
  have hfirst := step_of_bufferWrite (s := s) (r := ⟨true, a, size, v⟩) (by simp [State.nextMove, hsched]) hr hok rfl
    (Request.addr_ne_cmd ha)
  have hbusy : s.status.busy = false := not_busy_of_write rfl hok
  obtain ⟨t, ht⟩ : ∃ t, t = (s.taken.writeBuffer ⟨true, a, size, v⟩).respond (.ok 0#32) := ⟨_, rfl⟩
  have hnext : t.nextMove (.host ⟨false, a, size, 0#32⟩) := by
    simp [State.nextMove, ht, hsched]
  have htreset : t.inReset = false := by simp [ht, hr]
  have htbusy : t.status.busy = false := by
    rw [ht, State.respond_status, State.writeBuffer_status]
    exact hbusy
  have hread : busError t ⟨false, a, size, 0#32⟩ = false :=
    busError_eq_false_of_buffer (r := ⟨false, a, size, 0#32⟩) hwf hg hc (by simp) htbusy
  refine ⟨t, _, ht ▸ hfirst, step_of_read hnext htreset hread rfl, ?_⟩
  refine congrArg (fun w => some (Response.ok w)) (word_ext fun k hk => ?_)
  rw [t.readValue_byte (r := ⟨false, a, size, 0#32⟩) hwf hg hc hk, extractLsb'_ofNat_mod _ _ hk]
  refine ite_congr rfl (fun hkn => ?_) fun _ => rfl
  calc t.hostByte (a.toNat + k) = t.byteAt (a.toNat + k) := State.hostByte_eq_byteAt fun hin => by
        obtain rfl := Request.region_eq hwf hg hkn hin
        cases hwr
    _ = v.extractLsb' (8 * k) 8 := by
        rw [ht, State.byteAt_respond]
        exact s.taken.writeBuffer_byte hwf hkn

/-- A range that is no control register is not that of `CMD`. -/
theorem Request.addr_ne_cmd_of_buffer {r : Request} {g : Region} (hg : regionOf r.addr.toNat = some g)
    (hc : g.isControl = false) : r.addr.toNat ≠ Region.cmd.base := by
  intro ha
  rw [ha, show regionOf Region.cmd.base = some .cmd from by decide] at hg
  cases hg
  cases hc

/-- Settles O10: the bus refuses every command word but SRST's, and an access to a buffer meets none of
the causes. -/
theorem errorStateAcceptsOnlySrst : Obligations.ErrorStateAcceptsOnlySrst := by
  rintro s ⟨hbusy, -, herr, -⟩ hr
  refine ⟨fun w hw h => step_of_busError h hr ((busError_cmdWrite_iff s w).2 (.inr ⟨herr, hw⟩)),
    fun r g hread h hwf hg hc => ?_, fun r g hwrite h hwf hg hc hwr => ?_, fun h => ?_⟩
  · have hok := busError_eq_false_of_buffer hwf hg hc (by simp [hread]) hbusy
    exact ⟨_, step_of_read h hr hok hread⟩
  · have hok := busError_eq_false_of_buffer hwf hg hc (fun _ => hwr) hbusy
    exact ⟨_, step_of_bufferWrite h hr hok hwrite (Request.addr_ne_cmd_of_buffer hg hc), rfl,
      fun k hk => s.taken.writeBuffer_byte hwf hk⟩
  · have hok : busError s (cmdWrite (encode .srst)) = false := by
      rw [← Bool.not_eq_true, busError_cmdWrite_iff, hbusy]
      simp [show encode .srst = 0x0000000F#32 from rfl]
    rw [step_of_cmdWrite h hr hok, issue_encode]
    exact ⟨_, exec_of_idle .srst (s := s.taken.respond (.ok 0#32)) hbusy, rfl, rfl, rfl⟩

end Sys2Proof.Machine
end

section
/-! The integer primitives' closed forms and bounds (spec/40_numerics.md R121 to R126,
spec/42_feature_transform.md R161). -/

namespace Sys2Proof.Machine

theorem ftClip0_eq (a : Int) : ftClip0 a = if a < 0 then 0 else if 255 < a then 255 else a := rfl

theorem ftClip1_eq (b : Int) : ftClip1 b = if 255 < b then 255 else b := by
  rw [ftClip1, Config.ftQuant_eq]
  split <;> omega

theorem ftClip0_bounds (a : Int) : 0 ≤ ftClip0 a ∧ ftClip0 a ≤ 255 := by
  rw [ftClip0_eq]
  split
  · omega
  · split <;> omega

/-- The pre-shift by 6 and the high word of the product divide the product of the clips by 1024. -/
theorem mulhi16_ftShl (x y : Int) : mulhi16 (ftShl x) y = x * y / 1024 := by
  have h : x * 2 ^ 6 * y = 64 * (x * y) := by ring
  rw [mulhi16, asr, ftShl, Config.ftLshift_eq, h]
  omega

/-- Settles O28: for a positive second clip the quotient is in range of the pack, and else it is at most
0. -/
theorem ftqPairClosedForm : Obligations.FtqPairClosedForm := by
  intro a b a0 b1
  obtain ⟨hlo, hhi⟩ := ftClip0_bounds a
  have hle : ftClip1 b ≤ 255 := min_le_right _ _
  rw [← show ftClip0 a = a0 from ftClip0_eq a, ← show ftClip1 b = b1 from ftClip1_eq b, ftqPair, satU8,
    mulhi16_ftShl, clamp]
  by_cases hpos : 0 < ftClip1 b
  · have hprod : 0 ≤ ftClip0 a * ftClip1 b := mul_nonneg hlo hpos.le
    have hmax : ftClip0 a * ftClip1 b ≤ 255 * 255 := mul_le_mul hhi hle hpos.le (by decide)
    rw [if_pos hpos, if_neg (by omega), if_neg (by omega)]
    omega
  · have hprod : ftClip0 a * ftClip1 b ≤ 0 := mul_nonpos_of_nonneg_of_nonpos hlo (not_lt.1 hpos)
    rw [if_neg hpos]
    split
    · omega
    · rw [if_neg (by omega)]
      omega

/-- Settles O36: 512 times the extremes of one contribution. -/
theorem l1SumFitsWord : Obligations.L1SumFitsWord := by
  intro s gs j hlen
  obtain ⟨hlo, hhi⟩ := l1Sum_bounds s gs j
  exact ⟨by omega, by omega, toInt_ofInt_l1Sum s hlen j⟩

end Sys2Proof.Machine
end

section
/-! The binary32 format (spec/40_numerics.md R127): the patterns as a sign and 31 bits, the values that
have a pattern, and that a pattern is the one of its value. -/

namespace Sys2Proof.Machine

/-! ### Patterns -/

theorem F32.toNat_assemble (neg : Bool) {M : Nat} (hM : M < 2 ^ 31) :
    (F32.assemble neg M).toNat = 2 ^ 31 * neg.toNat + M := by
  rw [F32.assemble, BitVec.toNat_append, BitVec.toNat_ofNat, Nat.mod_eq_of_lt hM,
    ← Nat.shiftLeft_add_eq_or_of_lt hM, Nat.shiftLeft_eq, BitVec.toNat_ofBool, Nat.mul_comm]

/-- Every word is a sign and 31 bits. -/
theorem F32.exists_eq_assemble (w : Word) : ∃ neg M, M < 2 ^ 31 ∧ w = F32.assemble neg M := by
  have hlt : w.toNat % 2 ^ 31 < 2 ^ 31 := Nat.mod_lt _ (Nat.two_pow_pos _)
  have hw : w.toNat < 2 ^ 32 := w.isLt
  refine ⟨decide (2 ^ 31 ≤ w.toNat), w.toNat % 2 ^ 31, hlt, BitVec.eq_of_toNat_eq ?_⟩
  rw [F32.toNat_assemble _ hlt]
  by_cases h : 2 ^ 31 ≤ w.toNat
  · simp only [h, decide_true, Bool.toNat_true]
    omega
  · simp only [h, decide_false, Bool.toNat_false]
    omega

/-- The value of a pattern by its exponent and its fraction (R127). -/
theorem F32.unpack_assemble (neg : Bool) {M : Nat} (hM : M < 2 ^ 31) : F32.unpack (F32.assemble neg M) =
    if M / 2 ^ 23 = 255 then (if M % 2 ^ 23 = 0 then .inf neg else .nan)
    else if M / 2 ^ 23 = 0 then .fin neg (M % 2 ^ 23)
    else .fin neg ((2 ^ 23 + M % 2 ^ 23) * 2 ^ (M / 2 ^ 23 - 1)) := by
  have hneg : (F32.assemble neg M).getLsbD 31 = neg := by
    rw [F32.assemble, BitVec.getLsbD_append]
    simp
  have he : ((F32.assemble neg M).extractLsb' 23 8).toNat = M / 2 ^ 23 := by
    rw [BitVec.extractLsb'_toNat, F32.toNat_assemble neg hM, Nat.shiftRight_eq_div_pow]
    have := neg.toNat_le
    omega
  have hf : ((F32.assemble neg M).extractLsb' 0 23).toNat = M % 2 ^ 23 := by
    rw [BitVec.extractLsb'_toNat, F32.toNat_assemble neg hM, Nat.shiftRight_zero]
    omega
  simp only [F32.unpack, hneg, he, hf]

/-! ### The values that have a pattern -/

/-- `m × 2^e` units in the normal form of a finite binary32 value: 24 bits, the top one set unless the
value is subnormal. -/
structure F32.Normal (m e : Nat) : Prop where
  lt : m < 2 ^ 24
  le : e ≤ 253
  top : e = 0 ∨ 2 ^ 23 ≤ m

/-- `u` units are a finite binary32 magnitude. -/
def F32.Representable (u : Nat) : Prop := ∃ m e, F32.Normal m e ∧ u = m * 2 ^ e

/-- 24 bits at any place of the exponent's range. -/
theorem F32.representable_of_lt {m e : Nat} (hm : m < 2 ^ 24) (he : e ≤ 253) :
    F32.Representable (m * 2 ^ e) := by
  induction e generalizing m with
  | zero => exact ⟨m, 0, ⟨hm, he, .inl rfl⟩, rfl⟩
  | succ e ih =>
    rcases Nat.lt_or_ge m (2 ^ 23) with h | h
    · rw [show m * 2 ^ (e + 1) = 2 * m * 2 ^ e by ring]
      exact ih (by omega) (by omega)
    · exact ⟨m, e + 1, ⟨hm, he, .inr h⟩, rfl⟩

theorem F32.Representable.le {u : Nat} (h : F32.Representable u) : u ≤ (2 ^ 24 - 1) * 2 ^ 253 := by
  obtain ⟨m, e, ⟨hm, he, -⟩, rfl⟩ := h
  exact Nat.mul_le_mul (by omega) (Nat.pow_le_pow_right (by decide) he)

/-- The exponent of the normal form is read off the magnitude. -/
theorem F32.Normal.log2_sub {m e : Nat} (h : F32.Normal m e) : (m * 2 ^ e).log2 - 23 = e := by
  obtain ⟨hm, -, htop⟩ := h
  rcases Nat.eq_zero_or_pos m with rfl | hpos
  · have he : e = 0 := by omega
    subst he
    rfl
  have hne : m * 2 ^ e ≠ 0 := (Nat.mul_pos hpos (Nat.two_pow_pos e)).ne'
  have hlt : (m * 2 ^ e).log2 < 24 + e := by
    rw [Nat.log2_lt hne, pow_add]
    exact Nat.mul_lt_mul_of_pos_right hm (Nat.two_pow_pos e)
  rcases htop with rfl | htop
  · omega
  · have hge : 23 + e ≤ (m * 2 ^ e).log2 := by
      rw [Nat.le_log2 hne, pow_add]
      exact Nat.mul_le_mul_right _ htop
    omega

/-- The pattern of a value in normal form (R13). -/
theorem F32.Normal.pack_eq {m e : Nat} (h : F32.Normal m e) (neg : Bool) :
    F32.pack (.fin neg (m * 2 ^ e)) = F32.assemble neg (e * 2 ^ 23 + m) := by
  simp only [F32.pack, h.log2_sub, Nat.mul_div_cancel _ (Nat.two_pow_pos e)]

theorem F32.Normal.unpack_pack {m e : Nat} (h : F32.Normal m e) (neg : Bool) :
    F32.unpack (F32.pack (.fin neg (m * 2 ^ e))) = .fin neg (m * 2 ^ e) := by
  obtain ⟨hm, he, htop⟩ := id h
  rw [h.pack_eq, F32.unpack_assemble neg (by omega), if_neg (by omega)]
  rcases Nat.lt_or_ge m (2 ^ 23) with hlt | hge
  · have he0 : e = 0 := by omega
    subst he0
    rw [if_pos (by omega), show (0 * 2 ^ 23 + m) % 2 ^ 23 = m * 2 ^ 0 by omega]
  · rw [if_neg (by omega), show (e * 2 ^ 23 + m) / 2 ^ 23 - 1 = e by omega,
      show 2 ^ 23 + (e * 2 ^ 23 + m) % 2 ^ 23 = m by omega]

/-- A finite value that a pattern has is representable, in the normal form of its fields. -/
theorem F32.representable_of_unpack {w : Word} {neg : Bool} {u : Nat} (h : F32.unpack w = .fin neg u) :
    F32.Representable u := by
  obtain ⟨n, M, hM, rfl⟩ := F32.exists_eq_assemble w
  rw [F32.unpack_assemble n hM] at h
  split at h
  · split at h <;> cases h
  next hinf =>
  split at h
  · cases h
    exact ⟨M % 2 ^ 23, 0, ⟨by omega, by omega, .inl rfl⟩, by omega⟩
  next hsub =>
    cases h
    exact ⟨_, _, ⟨by omega, by omega, .inr (by omega)⟩, rfl⟩

theorem F32.exists_unpack_iff (neg : Bool) (u : Nat) :
    (∃ w, F32.unpack w = .fin neg u) ↔ F32.Representable u := by
  refine ⟨fun ⟨w, h⟩ => F32.representable_of_unpack h, ?_⟩
  rintro ⟨m, e, h, rfl⟩
  exact ⟨_, h.unpack_pack neg⟩

/-- Settles O53: for each class of patterns but the NaNs the fields are found again. -/
theorem floatPatternRoundTrip : Obligations.FloatPatternRoundTrip := by
  intro w hw
  obtain ⟨neg, M, hM, rfl⟩ := F32.exists_eq_assemble w
  rw [F32.unpack_assemble neg hM] at hw ⊢
  split at hw
  next hinf =>
    split at hw
    next hzero =>
      rw [if_pos hinf, if_pos hzero, F32.pack]
      congr 1
      omega
    next => cases hw
  next hinf =>
    rw [if_neg hinf]
    split
    next hsub =>
      have hnormal : F32.Normal (M % 2 ^ 23) 0 := ⟨by omega, by omega, .inl rfl⟩
      have hpack := hnormal.pack_eq neg
      rw [pow_zero, Nat.mul_one] at hpack
      rw [hpack]
      congr 1
      omega
    next hsub =>
      have hnormal : F32.Normal (2 ^ 23 + M % 2 ^ 23) (M / 2 ^ 23 - 1) :=
        ⟨by omega, by omega, .inr (by omega)⟩
      rw [hnormal.pack_eq]
      congr 1
      omega

end Sys2Proof.Machine
end

section
/-! Rounding to nearest, ties to even (spec/40_numerics.md R127, R128), and what follows for the
operations that round once, the conversions (R129, R131) and the clip-square (R130). -/

namespace Sys2Proof.Machine

/-! ### The quotient rounded to nearest -/

/-- The rounded quotient is within half a divisor, and is even where it is half a divisor away. -/
theorem roundShift_spec (x sh : Nat) :
    2 * x ≤ 2 * (roundShift x sh * 2 ^ sh) + 2 ^ sh ∧
    2 * (roundShift x sh * 2 ^ sh) ≤ 2 * x + 2 ^ sh ∧
    (2 * x = 2 * (roundShift x sh * 2 ^ sh) + 2 ^ sh ∨
      2 * (roundShift x sh * 2 ^ sh) = 2 * x + 2 ^ sh → roundShift x sh % 2 = 0) := by
  have hx : x / 2 ^ sh * 2 ^ sh + x % 2 ^ sh = x := Nat.div_add_mod' x (2 ^ sh)
  have hr : x % 2 ^ sh < 2 ^ sh := Nat.mod_lt _ (Nat.two_pow_pos sh)
  simp only [roundShift]
  split
  · rw [Nat.add_mul, Nat.one_mul]
    omega
  · omega

/-- No multiple of the divisor is nearer, and of two that are as near the even one is taken. -/
theorem roundShift_nearest (x sh p : Nat) :
    ((x : Int) - (roundShift x sh * 2 ^ sh : Nat)).natAbs ≤ ((x : Int) - (p * 2 ^ sh : Nat)).natAbs ∧
    (((x : Int) - (roundShift x sh * 2 ^ sh : Nat)).natAbs = ((x : Int) - (p * 2 ^ sh : Nat)).natAbs →
      p ≠ roundShift x sh → roundShift x sh % 2 = 0) := by
  obtain ⟨hlo, hhi, htie⟩ := roundShift_spec x sh
  rcases Nat.lt_trichotomy p (roundShift x sh) with h | rfl | h
  · have hmul : p * 2 ^ sh + 2 ^ sh ≤ roundShift x sh * 2 ^ sh := by
      rw [← Nat.succ_mul]
      exact Nat.mul_le_mul_right _ h
    omega
  · simp
  · have hmul : roundShift x sh * 2 ^ sh + 2 ^ sh ≤ p * 2 ^ sh := by
      rw [← Nat.succ_mul]
      exact Nat.mul_le_mul_right _ h
    omega

/-! ### The quantum and the rounded significand -/

/-- The exponent of the quantum at the exact magnitude `x`, in units of `2^-298` (R127). -/
def F32.quantum (x : Nat) : Nat := max (x.log2 - 23) 149

/-- The exact magnitude as a rounded number of quanta. -/
def F32.quanta (x : Nat) : Nat := roundShift x (F32.quantum x)

theorem F32.round_eq (neg : Bool) (x : Nat) : F32.round neg x =
    if 2 ^ 277 ≤ F32.quanta x * 2 ^ (F32.quantum x - 149) then .inf neg
    else .fin neg (F32.quanta x * 2 ^ (F32.quantum x - 149)) := rfl

theorem F32.quantum_ge (x : Nat) : 149 ≤ F32.quantum x := le_max_right _ _

/-- The magnitude is below `2^24` quanta. -/
theorem F32.lt_two_pow_quantum (x : Nat) : x < 2 ^ 24 * 2 ^ F32.quantum x := by
  rw [← pow_add]
  refine Nat.lt_log2_self.trans_le (Nat.pow_le_pow_right (by decide) ?_)
  have : x.log2 - 23 ≤ F32.quantum x := le_max_left _ _
  omega

/-- Above the least quantum the magnitude is at least `2^23` quanta. -/
theorem F32.two_pow_quantum_le {x : Nat} (h : 149 < F32.quantum x) : 2 ^ 23 * 2 ^ F32.quantum x ≤ x := by
  have hlog : F32.quantum x + 23 = x.log2 := by
    simp only [F32.quantum] at h ⊢
    omega
  have hne : x ≠ 0 := by
    rintro rfl
    simp at hlog
  rw [← pow_add, Nat.add_comm, hlog]
  exact Nat.log2_self_le hne

theorem F32.quanta_le (x : Nat) : F32.quanta x ≤ 2 ^ 24 := by
  have hdiv : x / 2 ^ F32.quantum x < 2 ^ 24 :=
    (Nat.div_lt_iff_lt_mul (Nat.two_pow_pos _)).2 (F32.lt_two_pow_quantum x)
  have := roundShift_le x (F32.quantum x)
  simp only [F32.quanta]
  omega

theorem F32.le_quanta {x : Nat} (h : 149 < F32.quantum x) : 2 ^ 23 ≤ F32.quanta x := by
  have hdiv : 2 ^ 23 ≤ x / 2 ^ F32.quantum x :=
    (Nat.le_div_iff_mul_le (Nat.two_pow_pos _)).2 (F32.two_pow_quantum_le h)
  refine hdiv.trans ?_
  simp only [F32.quanta, roundShift]
  split <;> omega

/-- The rounded magnitude, back in units of `2^-298`. -/
theorem F32.quanta_mul (x : Nat) : F32.quanta x * 2 ^ (F32.quantum x - 149) * 2 ^ 149 =
    F32.quanta x * 2 ^ F32.quantum x := by
  rw [Nat.mul_assoc, ← pow_add, Nat.sub_add_cancel (F32.quantum_ge x)]

/-- The rounded magnitude in normal form, where it does not overflow; an even number of quanta has an
even significand there (the carry to `2^24` quanta gives `2^23` of the next quantum). -/
theorem F32.exists_normal_quanta {x : Nat} (h : F32.quanta x * 2 ^ (F32.quantum x - 149) < 2 ^ 277) :
    ∃ m e, F32.Normal m e ∧ F32.quanta x * 2 ^ (F32.quantum x - 149) = m * 2 ^ e ∧
      (F32.quanta x % 2 = 0 → m % 2 = 0) := by
  have hge := F32.quantum_ge x
  have hexp (k : Nat) (hk : 2 ^ k ≤ F32.quanta x) : k + (F32.quantum x - 149) < 277 := by
    rw [← pow_lt_pow_iff_right₀ (a := 2) Nat.one_lt_two, pow_add]
    exact (Nat.mul_le_mul_right _ hk).trans_lt h
  rcases (F32.quanta_le x).lt_or_eq with hlt | heq
  · rcases hge.eq_or_lt with hq | hq
    · exact ⟨F32.quanta x, F32.quantum x - 149, ⟨hlt, by omega, .inl (by omega)⟩, rfl, id⟩
    · have := hexp 23 (F32.le_quanta hq)
      exact ⟨F32.quanta x, F32.quantum x - 149, ⟨hlt, by omega, .inr (F32.le_quanta hq)⟩, rfl, id⟩
  · have := hexp 24 heq.ge
    refine ⟨2 ^ 23, F32.quantum x - 149 + 1, ⟨by decide, by omega, .inr le_rfl⟩, ?_, fun _ => rfl⟩
    rw [heq]
    ring

/-! ### Overflow -/

/-- The rounded magnitude overflows exactly from half a unit above the largest finite value on. -/
theorem F32.overflow_iff (x : Nat) : 2 ^ 277 ≤ F32.quanta x * 2 ^ (F32.quantum x - 149) ↔
    (2 ^ 25 - 1) * 2 ^ 401 ≤ x := by
  have hscale : 2 ^ 277 ≤ F32.quanta x * 2 ^ (F32.quantum x - 149) ↔
      2 ^ 426 ≤ F32.quanta x * 2 ^ F32.quantum x := by
    rw [← F32.quanta_mul, show (2 : Nat) ^ 426 = 2 ^ 277 * 2 ^ 149 by rw [← pow_add],
      Nat.mul_le_mul_right_iff (Nat.two_pow_pos 149)]
  have hle := F32.quanta_le x
  obtain ⟨hlo, hhi, htie⟩ := roundShift_spec x (F32.quantum x)
  change 2 * x ≤ 2 * (F32.quanta x * 2 ^ F32.quantum x) + _ at hlo
  change 2 * (F32.quanta x * 2 ^ F32.quantum x) ≤ _ at hhi
  change 2 * x = 2 * (F32.quanta x * 2 ^ F32.quantum x) + _ ∨
    2 * (F32.quanta x * 2 ^ F32.quantum x) = _ → F32.quanta x % 2 = 0 at htie
  rw [hscale]
  rcases Nat.lt_trichotomy (F32.quantum x) 402 with hq | hq | hq
  · have hpow : 2 ^ F32.quantum x ≤ 2 ^ 401 := pow_le_pow_right₀ one_le_two (by omega)
    have hx := F32.lt_two_pow_quantum x
    have hmul : F32.quanta x * 2 ^ F32.quantum x ≤ 2 ^ 24 * 2 ^ 401 := by gcongr
    refine iff_of_false (by omega) (by omega)
  · rw [hq] at hlo hhi htie ⊢
    omega
  · have hpow : 2 ^ 403 ≤ 2 ^ F32.quantum x := pow_le_pow_right₀ one_le_two hq
    have hx := F32.two_pow_quantum_le (x := x) (by omega)
    have hmul : 2 ^ 23 * 2 ^ 403 ≤ F32.quanta x * 2 ^ F32.quantum x :=
      Nat.mul_le_mul (F32.le_quanta (by omega)) hpow
    refine iff_of_true (by omega) (by omega)

/-! ### Nearest -/

/-- A binary32 magnitude is a whole number of quanta, or lies below `2^23` of them, where the exact
magnitude does not. -/
theorem F32.Representable.quanta_or_lt {v : Nat} (h : F32.Representable v) (x : Nat) :
    (∃ p, v * 2 ^ 149 = p * 2 ^ F32.quantum x) ∨
      (v * 2 ^ 149 < 2 ^ 23 * 2 ^ F32.quantum x ∧ 2 ^ 23 * 2 ^ F32.quantum x ≤ x) := by
  obtain ⟨m, e, ⟨hm, -, -⟩, rfl⟩ := h
  rcases Nat.lt_or_ge (e + 149) (F32.quantum x) with hlt | hge
  · refine .inr ⟨?_, F32.two_pow_quantum_le (by omega)⟩
    calc m * 2 ^ e * 2 ^ 149 = m * 2 ^ (e + 149) := by rw [Nat.mul_assoc, ← pow_add]
      _ < 2 ^ 24 * 2 ^ (e + 149) := Nat.mul_lt_mul_of_pos_right hm (Nat.two_pow_pos _)
      _ = 2 ^ 23 * 2 ^ (e + 149 + 1) := by ring
      _ ≤ 2 ^ 23 * 2 ^ F32.quantum x :=
        Nat.mul_le_mul_left _ (Nat.pow_le_pow_right (by decide) hlt)
  · obtain ⟨d, hd⟩ := Nat.exists_eq_add_of_le hge
    refine .inl ⟨m * 2 ^ d, ?_⟩
    rw [Nat.mul_assoc, ← pow_add, hd, pow_add]
    ring

/-- No binary32 magnitude is nearer than the rounded one, and of two as near it is the even one. -/
theorem F32.quanta_nearest (x : Nat) {v : Nat} (hv : F32.Representable v) :
    ((x : Int) - (F32.quanta x * 2 ^ F32.quantum x : Nat)).natAbs ≤
        ((x : Int) - (v * 2 ^ 149 : Nat)).natAbs ∧
      (((x : Int) - (F32.quanta x * 2 ^ F32.quantum x : Nat)).natAbs =
          ((x : Int) - (v * 2 ^ 149 : Nat)).natAbs →
        v * 2 ^ 149 ≠ F32.quanta x * 2 ^ F32.quantum x → F32.quanta x % 2 = 0) := by
  rcases hv.quanta_or_lt x with ⟨p, hp⟩ | ⟨hlt, hle⟩
  · rw [hp]
    obtain ⟨hnear, heven⟩ := roundShift_nearest x (F32.quantum x) p
    exact ⟨hnear, fun heq hne => heven heq fun h => hne (by rw [h, F32.quanta])⟩
  · have hnear : ((x : Int) - (F32.quanta x * 2 ^ F32.quantum x : Nat)).natAbs ≤
        ((x : Int) - (2 ^ 23 * 2 ^ F32.quantum x : Nat)).natAbs := (roundShift_nearest x _ (2 ^ 23)).1
    omega

/-- An even significand has an even pattern. -/
theorem F32.Normal.getLsbD_pack {m e : Nat} (h : F32.Normal m e) (hm : m % 2 = 0) (neg : Bool) :
    (F32.pack (.fin neg (m * 2 ^ e))).getLsbD 0 = false := by
  obtain ⟨hlt, he, -⟩ := id h
  rw [h.pack_eq, ← BitVec.testBit_toNat, F32.toNat_assemble neg (by omega), Nat.testBit_zero]
  simp only [decide_eq_false_iff_not]
  omega

/-- The rounding is correct (R127). -/
theorem F32.correctlyRounded_round (neg : Bool) (x : Nat) : F32.CorrectlyRounded neg x (F32.round neg x) := by
  rw [F32.round_eq]
  split
  next hover => exact .inl ⟨rfl, (F32.overflow_iff x).1 hover⟩
  next hfin =>
  obtain ⟨m, e, hnormal, hu, heven⟩ := F32.exists_normal_quanta (Nat.not_le.1 hfin)
  refine .inr ⟨Nat.not_le.1 (mt (F32.overflow_iff x).2 hfin), _, rfl,
    (F32.exists_unpack_iff neg _).2 ⟨m, e, hnormal, hu⟩, fun w v hw => ?_⟩
  obtain ⟨hnear, htie⟩ := F32.quanta_nearest x (F32.representable_of_unpack hw)
  rw [← F32.quanta_mul] at hnear htie
  push_cast at hnear htie ⊢
  refine ⟨hnear, fun heq hne => ?_⟩
  rw [hu]
  refine hnormal.getLsbD_pack (heven (htie heq fun h => hne ?_)) neg
  exact Nat.eq_of_mul_eq_mul_right (Nat.two_pow_pos 149) h

/-- Settles O49. -/
theorem roundsToNearestEven : Obligations.RoundsToNearestEven := F32.correctlyRounded_round

/-! ### One rounding -/

theorem F32.correctlyRounded_ofExact {z : Int} (h : z ≠ 0) (neg : Bool) :
    F32.CorrectlyRounded (decide (z < 0)) z.natAbs (F32.ofExact z neg) := by
  rw [F32.ofExact, if_neg h]
  exact F32.correctlyRounded_round _ _

theorem signed_bne_mul (s t : Bool) (x y : Nat) : signed (s != t) (x * y) = signed s x * signed t y := by
  cases s <;> cases t <;> simp [signed]

/-- Settles O57: the three operations round their exact result, the product as a magnitude. -/
theorem arithmeticRoundsOnce : Obligations.ArithmeticRoundsOnce := by
  refine ⟨fun s t x y => ⟨fun h => F32.correctlyRounded_ofExact h _, fun h => if_pos h⟩,
    fun s t x y => F32.correctlyRounded_round _ _, fun s t n x y z => ?_⟩
  rw [← signed_bne_mul]
  exact ⟨fun h => F32.correctlyRounded_ofExact h _, fun h => if_pos h⟩

/-! ### Exact results -/

/-- A binary32 magnitude is its own rounding. -/
theorem F32.round_of_representable {u : Nat} (h : F32.Representable u) (neg : Bool) :
    F32.round neg (u * 2 ^ 149) = .fin neg u := by
  have hle := h.le
  rcases F32.correctlyRounded_round neg (u * 2 ^ 149) with ⟨-, hover⟩ | ⟨-, v, hv, -, hnear⟩
  · omega
  · obtain ⟨w, hw⟩ := (F32.exists_unpack_iff neg u).2 h
    have hdist := (hnear w u hw).1
    push_cast at hdist
    rw [hv, show v = u by omega]

/-- Settles O50: up to `2^24` an integer is representable, so its rounding is itself. -/
theorem intToFloatExact : Obligations.IntToFloatExact := by
  intro n hn
  by_cases h0 : n = 0
  · rw [F32.ofInt, F32.ofExact, if_pos (mul_eq_zero_of_left h0 _), h0]
    rfl
  have hrep : F32.Representable (n.natAbs * 2 ^ 149) := by
    rcases hn.lt_or_eq with hlt | heq
    · exact F32.representable_of_lt hlt (by decide)
    · rw [heq, show (2 : Nat) ^ 24 * 2 ^ 149 = 2 ^ 23 * 2 ^ 150 by rw [← pow_add, ← pow_add]]
      exact F32.representable_of_lt (by decide) (by decide)
  have hne : n * 2 ^ 298 ≠ 0 := mul_ne_zero h0 (pow_ne_zero _ two_ne_zero)
  have hneg : decide (n * 2 ^ 298 < 0) = decide (n < 0) :=
    decide_eq_decide.2 (by omega)
  rw [F32.ofInt, F32.ofExact, if_neg hne, hneg, natAbs_mul_two_pow,
    show (298 : Nat) = 149 + 149 from rfl, pow_add, ← Nat.mul_assoc, F32.round_of_representable hrep]

end Sys2Proof.Machine
end

section
/-! The conversion to an integer (spec/40_numerics.md R131), the clip-square (R130), and the NaNs and
infinities of the arithmetic (R128). -/

namespace Sys2Proof.Machine

/-! ### Truncation -/

/-- The range check, on the magnitude (R131). -/
theorem F32.truncates_range_iff (neg : Bool) (u : Nat) :
    (2 ^ 180 ≤ signed neg u ∨ signed neg u < -(2 ^ 180)) ↔
      (neg = false ∧ 2 ^ 31 * 2 ^ 149 ≤ u) ∨ (neg = true ∧ 2 ^ 31 * 2 ^ 149 < u) := by
  cases neg <;> simp only [signed, Bool.false_eq_true, if_false, if_true, true_and, false_and,
    Bool.true_eq_false, or_false, false_or] <;> omega

theorem F32.i32Trunc_eq_nan_iff (v : F32) : v.i32Trunc = .error .nan ↔ v = .nan := by
  cases v with
  | nan => simp [F32.i32Trunc]
  | inf neg => simp [F32.i32Trunc]
  | fin neg u =>
    simp only [F32.i32Trunc]
    split <;> simp

theorem F32.i32Trunc_eq_range_iff (v : F32) : v.i32Trunc = .error .range ↔
    (∃ neg, v = .inf neg) ∨ (∃ u, v = .fin false u ∧ 2 ^ 31 * 2 ^ 149 ≤ u) ∨
      ∃ u, v = .fin true u ∧ 2 ^ 31 * 2 ^ 149 < u := by
  cases v with
  | nan => simp [F32.i32Trunc]
  | inf neg => simp [F32.i32Trunc]
  | fin neg u =>
    have hiff := F32.truncates_range_iff neg u
    simp only [F32.i32Trunc]
    split
    next h => simpa using hiff.1 h
    next h => simpa using mt hiff.2 h

/-- A value in range converts to the signed quotient (R131). -/
theorem F32.i32Trunc_eq_ok {neg : Bool} {u : Nat} (hpos : neg = false → u < 2 ^ 31 * 2 ^ 149)
    (hneg : neg = true → u ≤ 2 ^ 31 * 2 ^ 149) :
    (F32.fin neg u).i32Trunc = .ok (signed neg (u / 2 ^ 149)) := by
  refine if_neg ?_
  rw [F32.truncates_range_iff]
  rintro (⟨h, hu⟩ | ⟨h, hu⟩)
  · exact absurd (hpos h) (Nat.not_lt.2 hu)
  · exact absurd (hneg h) (Nat.not_le.2 hu)

theorem natAbs_signed (neg : Bool) (u : Nat) : (signed neg u).natAbs = u := by
  cases neg <;> simp [signed]

/-- Settles O51: the two errors, and the quotient of the magnitude otherwise. -/
theorem truncatesTowardZero : Obligations.TruncatesTowardZero := by
  refine ⟨F32.i32Trunc_eq_nan_iff, F32.i32Trunc_eq_range_iff, fun neg u hpos hneg => ?_⟩
  refine ⟨_, F32.i32Trunc_eq_ok hpos hneg, ?_⟩
  rw [natAbs_signed]
  cases neg with
  | false =>
    have hu := hpos rfl
    simp [signed]
    omega
  | true =>
    have hu := hneg rfl
    simp [signed]
    omega

/-! ### The clip-square -/

/-- `1.0` has a pattern. -/
theorem F32.representable_one : F32.Representable (2 ^ 149) :=
  ⟨2 ^ 23, 126, ⟨by decide, by decide, .inr le_rfl⟩, by rw [← pow_add]⟩

theorem F32.mul_one_one : F32.mul F32.one F32.one = F32.one :=
  F32.round_of_representable F32.representable_one false

theorem F32.round_zero (neg : Bool) : F32.round neg 0 = .fin neg 0 := by
  simpa using F32.round_of_representable (F32.representable_of_lt (m := 0) (e := 0) (by decide)
    (by decide)) neg

theorem F32.mul_zero_zero : F32.mul F32.zero F32.zero = F32.zero := F32.round_zero false

theorem F32.csq_inf_true : (F32.inf true).csq = some (.fin false 0) := congrArg some F32.mul_zero_zero

theorem F32.csq_inf_false : (F32.inf false).csq = some (.fin false (2 ^ 149)) :=
  congrArg some F32.mul_one_one

theorem F32.csq_fin_true (u : Nat) : (F32.fin true u).csq = some (.fin false 0) := by
  by_cases h : u = 0
  · subst h
    exact congrArg some (F32.round_zero false)
  · simp only [F32.csq, F32.clip01, h, if_true, if_false]
    exact congrArg some F32.mul_zero_zero

/-- From 0 to 1 the clip changes nothing (R130). -/
theorem F32.csq_fin_false {u : Nat} (h : u ≤ 2 ^ 149) :
    (F32.fin false u).csq = some (F32.round false (u * u)) := by
  simp only [F32.csq, F32.clip01, Bool.false_eq_true, if_false, if_neg (Nat.not_lt.2 h)]
  rfl

theorem F32.csq_fin_false_of_gt {u : Nat} (h : 2 ^ 149 < u) :
    (F32.fin false u).csq = some (.fin false (2 ^ 149)) := by
  simp only [F32.csq, F32.clip01, Bool.false_eq_true, if_false, if_pos h]
  exact F32.csq_inf_false

/-- The rounding of a magnitude up to 1 is at most 1: `1.0` itself would be nearer. -/
theorem F32.round_le_one {x : Nat} (h : x ≤ 2 ^ 149 * 2 ^ 149) :
    ∃ u, F32.round false x = .fin false u ∧ u ≤ 2 ^ 149 := by
  rcases F32.correctlyRounded_round false x with ⟨-, hover⟩ | ⟨-, u, hu, -, hnear⟩
  · omega
  · obtain ⟨w, hw⟩ := (F32.exists_unpack_iff false (2 ^ 149)).2 F32.representable_one
    have hdist := (hnear w _ hw).1
    push_cast at hdist
    exact ⟨u, hu, by omega⟩

theorem F32.csq_range {v r : F32} (h : v.csq = some r) : ∃ u, r = .fin false u ∧ u ≤ 2 ^ 149 := by
  cases v with
  | nan => cases h
  | inf neg =>
    cases neg
    · rw [F32.csq_inf_false] at h
      cases h
      exact ⟨_, rfl, le_rfl⟩
    · rw [F32.csq_inf_true] at h
      cases h
      exact ⟨_, rfl, Nat.zero_le _⟩
  | fin neg u =>
    cases neg
    · rcases Nat.lt_or_ge (2 ^ 149) u with hgt | hle
      · rw [F32.csq_fin_false_of_gt hgt] at h
        cases h
        exact ⟨_, rfl, le_rfl⟩
      · rw [F32.csq_fin_false hle] at h
        rw [← Option.some.inj h]
        exact F32.round_le_one (Nat.mul_le_mul hle hle)
    · rw [F32.csq_fin_true] at h
      cases h
      exact ⟨_, rfl, Nat.zero_le _⟩

/-- Settles O52. -/
theorem clipSquareRange : Obligations.ClipSquareRange :=
  ⟨F32.csq_eq_none_iff, F32.csq_inf_true, F32.csq_inf_false, F32.csq_fin_true,
    fun _ h => F32.csq_fin_false_of_gt h,
    fun _ h => ⟨_, F32.csq_fin_false h, F32.correctlyRounded_round _ _⟩, fun _ _ => F32.csq_range⟩

/-! ### NaNs and infinities -/

/-- `a × b` is an infinity of sign `p` because an operand is one (R128). -/
def F32.InfiniteProduct (a b : F32) (p : Bool) : Prop :=
  (∃ q, a = .inf q ∧ b = .inf (q != p)) ∨
  (∃ q u, u ≠ 0 ∧ a = .inf q ∧ b = .fin (q != p) u) ∨
  ∃ q u, u ≠ 0 ∧ a = .fin (q != p) u ∧ b = .inf q

/-- `a × b` is a zero times an infinity. -/
def F32.ZeroTimesInf (a b : F32) : Prop :=
  ∃ q p, (a = .fin q 0 ∧ b = .inf p) ∨ (a = .inf p ∧ b = .fin q 0)

theorem F32.ne_nan_of_isNaN {v : F32} (h : v.isNaN = false) : v ≠ .nan := by
  rintro rfl
  cases h

theorem F32.add_eq_nan_iff (a b : F32) :
    F32.add a b = .nan ↔ a = .nan ∨ b = .nan ∨ ∃ q, a = .inf q ∧ b = .inf !q := by
  cases a with
  | nan => simp
  | inf p =>
    cases b with
    | nan => simp
    | inf q => cases p <;> cases q <;> simp [F32.add]
    | fin t y => simp [F32.add]
  | fin s x =>
    cases b with
    | nan => simp
    | inf q => simp [F32.add]
    | fin t y => simpa [F32.add] using F32.ne_nan_of_isNaN (F32.isNaN_ofExact _ _)

theorem F32.mul_eq_nan_iff (a b : F32) :
    F32.mul a b = .nan ↔ a = .nan ∨ b = .nan ∨ F32.ZeroTimesInf a b := by
  cases a with
  | nan => simp
  | inf p =>
    cases b with
    | nan => simp
    | inf q => simp [F32.mul, F32.ZeroTimesInf]
    | fin t y => simp [F32.mul, F32.ZeroTimesInf]
  | fin s x =>
    cases b with
    | nan => simp
    | inf q => simp [F32.mul, F32.ZeroTimesInf]
    | fin t y => simpa [F32.mul, F32.ZeroTimesInf] using F32.ne_nan_of_isNaN (F32.isNaN_round _ _)

theorem bne_bne_swap (p q : Bool) : (q != (p != q)) = p := by
  cases p <;> cases q <;> rfl

theorem F32.mul_of_infiniteProduct {a b : F32} {p : Bool} (h : F32.InfiniteProduct a b p) :
    F32.mul a b = .inf p := by
  rcases h with ⟨q, rfl, rfl⟩ | ⟨q, u, hu, rfl, rfl⟩ | ⟨q, u, hu, rfl, rfl⟩
  · simp [F32.mul]
  · simp [F32.mul, hu]
  · simp [F32.mul, hu, bne_bne_swap]

/-- A product is infinite otherwise only by overflow, which takes two finite operands. -/
theorem F32.infiniteProduct_of_mul {a b : F32} {p : Bool} (h : F32.mul a b = .inf p)
    (hfin : ¬∃ s x t y, a = .fin s x ∧ b = .fin t y) : F32.InfiniteProduct a b p := by
  cases a with
  | nan => simp at h
  | inf q =>
    cases b with
    | nan => simp at h
    | inf q' =>
      simp only [F32.mul, F32.inf.injEq] at h
      exact .inl ⟨q, rfl, by simp [← h]⟩
    | fin t y =>
      by_cases hy : y = 0
      · simp [F32.mul, hy] at h
      · simp only [F32.mul, if_neg hy, F32.inf.injEq] at h
        exact .inr (.inl ⟨q, y, hy, rfl, by simp [← h]⟩)
  | fin s x =>
    cases b with
    | nan => simp at h
    | inf q =>
      by_cases hx : x = 0
      · simp [F32.mul, hx] at h
      · simp only [F32.mul, if_neg hx, F32.inf.injEq] at h
        exact .inr (.inr ⟨q, x, hx, by rw [← h, bne_bne_swap], rfl⟩)
    | fin t y => exact absurd ⟨s, x, t, y, rfl, rfl⟩ hfin

/-- Unless both factors are finite, the fused operation is the product, then the sum (R128). -/
theorem F32.fma_eq_add_mul {a b : F32} (hfin : ¬∃ s x t y, a = .fin s x ∧ b = .fin t y) (c : F32) :
    F32.fma a b c = F32.add (F32.mul a b) c := by
  cases a with
  | nan => rfl
  | inf q => rfl
  | fin s x =>
    cases b with
    | nan => rfl
    | inf q => rfl
    | fin t y => exact absurd ⟨s, x, t, y, rfl, rfl⟩ hfin

theorem F32.InfiniteProduct.not_fin {a b : F32} {p : Bool} (h : F32.InfiniteProduct a b p) :
    ¬∃ s x t y, a = .fin s x ∧ b = .fin t y := by
  rintro ⟨s, x, t, y, rfl, rfl⟩
  simp [F32.InfiniteProduct] at h

theorem F32.fma_eq_nan_iff (a b c : F32) : F32.fma a b c = .nan ↔
    a = .nan ∨ b = .nan ∨ c = .nan ∨ F32.ZeroTimesInf a b ∨
      ∃ q, F32.InfiniteProduct a b q ∧ c = .inf !q := by
  by_cases hfin : ∃ s x t y, a = .fin s x ∧ b = .fin t y
  · obtain ⟨s, x, t, y, rfl, rfl⟩ := hfin
    rw [← F32.isNaN_eq_true_iff, F32.isNaN_fma_fin, F32.isNaN_eq_true_iff]
    simp [F32.ZeroTimesInf, F32.InfiniteProduct]
  · have hinf (q : Bool) : F32.mul a b = .inf q ↔ F32.InfiniteProduct a b q :=
      ⟨fun h => F32.infiniteProduct_of_mul h hfin, F32.mul_of_infiniteProduct⟩
    rw [F32.fma_eq_add_mul hfin, F32.add_eq_nan_iff, F32.mul_eq_nan_iff]
    simp only [hinf]
    tauto

/-- An infinity absorbs what is neither a NaN nor the opposite infinity. -/
theorem F32.add_inf {b : F32} {q : Bool} (h : b = .inf q ∨ ∃ s u, b = .fin s u) :
    F32.add (.inf q) b = .inf q ∧ F32.add b (.inf q) = .inf q := by
  rcases h with rfl | ⟨s, u, rfl⟩
  · exact ⟨if_pos rfl, if_pos rfl⟩
  · exact ⟨rfl, rfl⟩

theorem F32.fma_of_infiniteProduct {a b c : F32} {q : Bool} (h : F32.InfiniteProduct a b q)
    (hc : c = .inf q ∨ ∃ s u, c = .fin s u) : F32.fma a b c = .inf q := by
  rw [F32.fma_eq_add_mul h.not_fin, F32.mul_of_infiniteProduct h]
  exact (F32.add_inf hc).1

/-- Settles O58. -/
theorem arithmeticSpecialValues : Obligations.ArithmeticSpecialValues :=
  ⟨F32.add_eq_nan_iff, F32.mul_eq_nan_iff, F32.fma_eq_nan_iff, fun _ _ => F32.add_inf,
    fun _ _ _ => F32.mul_of_infiniteProduct, fun _ _ _ _ => F32.fma_of_infiniteProduct,
    fun _ _ _ _ _ => rfl⟩

end Sys2Proof.Machine
end

section
/-! Error entry of L1, L2, L3 and EVAL (spec/43_l1.md, spec/44_l2.md, spec/45_l3_eval.md,
spec/60_exceptions.md R234, R235, R239): which error a run ends in, and its frame. -/

namespace Sys2Proof.Machine

/-- There is one lowest lane. -/
theorem lowest_unique {p : Nat → Prop} {j k : Nat} (hj : p j) (hj' : ∀ m < j, ¬p m) (hk : p k)
    (hk' : ∀ m < k, ¬p m) : j = k := by
  rcases Nat.lt_trichotomy j k with h | h | h
  · exact absurd hj (hk' j h)
  · exact h
  · exact absurd hk (hj' k h)

/-- Error entry from `s` with what it lost: `STATUS` after R239. -/
theorem State.raise_status_of_eq {s t : State} (h : t.status = s.status) (k : ErrorKind) (w : Word) :
    (t.raise k w).status = { s.status with err := true, errcode := k.code, done := false, busy := false } := by
  rw [State.raise_status, h]
  rfl

/-! ### L1 -/

/-- A NaN bias makes the stage raise `E_NAN` for the lowest such lane (R184, R234). -/
theorem l1Stage_of_nan_bias {s : State} {gs : List Nat} (hlen : gs.length ≤ 2 ^ 32) {j : Nat} (hj : j < 16)
    (hnan : (s.l1b j).isNaN = true) (hlow : ∀ k < j, (s.l1b k).isNaN = false) :
    l1Stage s gs = .error { kind := .nan, info := BitVec.ofNat 32 (0x100 + j) } := by
  have hnone (k : Nat) : (l1Pre s gs k).csq = none ↔ (s.l1b k).isNaN = true := by
    rw [F32.csq_eq_none_iff, ← F32.isNaN_eq_true_iff, isNaN_l1Pre s hlen]
  cases ht : l1Stage s gs with
  | ok t =>
    obtain ⟨r, hr, -⟩ := l1Stage_l1out ht hj
    rw [(hnone j).2 hnan] at hr
    cases hr
  | error f =>
    obtain ⟨k, -, hk, hk', rfl⟩ := l1Stage_eq_error ht
    have hjk : k = j := lowest_unique (p := fun m => (s.l1b m).isNaN = true) ((hnone k).1 hk)
      (fun m hm => mt (hnone m).2 (hk' m hm)) hnan fun m hm => by simp [hlow m hm]
    rw [hjk]

/-- Settles O35: both commands are the stage over a list of groups, whose error is the bias's. -/
theorem l1NanBiasRaises : Obligations.L1NanBiasRaises := by
  intro s i j hi hrun hj hnan hlow
  obtain ⟨gs, hlen, hend⟩ := finishOf_l1 hi s
  rw [l1Stage_of_nan_bias hlen hj hnan hlow, State.conclude_error] at hend
  have hne : (i ≠ .nnz ∧ i ≠ .ft ∧ i ≠ .eval ∧ i ≠ .srst) ∧ i ≠ .l3 ∧
      bufferWrites i = [.l1acc, .l1out] := by rcases hi with rfl | rfl <;> decide
  obtain ⟨hcount, hscore, hwrites⟩ := hne
  refine ⟨finishOf i s, exec_of_busy i hrun.1, ?_, ?_, hwrites ▸ finishOf_sameBytesOutside i s,
    finishOf_samePort i s, finishOf_nnzCount hcount s, finishOf_score ⟨hscore, hcount.2.2⟩ s⟩
  · rw [hend]
    exact State.raise_status_of_eq (s.forgetAll_status _) .nan _
  · rw [hend, State.raise_errinfo]

/-! ### L2 -/

/-- A NaN lane makes the stage raise `E_NAN` for the lowest such lane (R203, R234). -/
theorem l2Stage_of_nan_lane {s : State} {j : Nat} (hj : j < 32) (hnan : (l2Pre s j).isNaN = true)
    (hlow : ∀ k < j, (l2Pre s k).isNaN = false) :
    l2Stage s = .error { kind := .nan, info := BitVec.ofNat 32 (0x200 + j) } := by
  have hnone (k : Nat) : (l2Pre s k).csq = none ↔ (l2Pre s k).isNaN = true := by
    rw [F32.csq_eq_none_iff, ← F32.isNaN_eq_true_iff]
  cases ht : l2Stage s with
  | ok t =>
    obtain ⟨r, hr, -⟩ := l2Stage_l2out ht hj
    rw [(hnone j).2 hnan] at hr
    cases hr
  | error f =>
    obtain ⟨k, -, hk, hk', rfl⟩ := l2Stage_eq_error ht
    have hjk : k = j := lowest_unique (p := fun m => (l2Pre s m).isNaN = true) ((hnone k).1 hk)
      (fun m hm => mt (hnone m).2 (hk' m hm)) hnan fun m hm => by simp [hlow m hm]
    rw [hjk]

/-- Settles O39: the lanes of the statement are `l2Pre`. -/
theorem l2NanLaneRaises : Obligations.L2NanLaneRaises := by
  intro s j hrun hj pre hnan hlow
  have hend : finishOf .l2 s =
      (s.forgetAll [.l2out]).raise .nan (BitVec.ofNat 32 (0x200 + j)) := by
    rw [finishOf, finishL2, l2Stage_of_nan_lane hj hnan hlow, State.conclude_error, bufferWrites]
  refine ⟨finishOf .l2 s, exec_of_busy .l2 hrun.1, ?_, ?_, finishOf_sameBytesOutside .l2 s,
    finishOf_samePort .l2 s, finishOf_nnzCount (i := .l2) (by decide) s,
    finishOf_score (i := .l2) (by decide) s⟩
  · rw [hend]
    exact State.raise_status_of_eq (s.forgetAll_status _) .nan _
  · rw [hend, State.raise_errinfo]

/-! ### L3 -/

/-- L3 in flight, its conversion in error `k`, ends in that error and keeps every buffer (R212, R239). -/
theorem exec_l3_of_error {s : State} {k : ErrorKind} (hbusy : s.status.busy = true)
    (h : (l3Scaled s).i32Trunc = .error k) :
    ∃ t, exec .l3 s = .next t ∧
      t.status = { s.status with err := true, errcode := k.code, done := false, busy := false } ∧
      t.errinfo = l3Detail k (l3Scaled s) ∧ (∀ a, t.byteAt a = s.byteAt a) ∧ SamePort s t ∧
      t.nnzCount = s.nnzCount := by
  have hend : finishOf .l3 s = (loseScore s).raise k (l3Detail k (l3Scaled s)) := by
    rw [finishOf, finishL3, l3Stage, h, State.conclude_error]
  refine ⟨finishOf .l3 s, exec_of_busy .l3 hbusy, ?_, ?_,
    fun a => finishOf_sameBytesOutside .l3 s a fun _ hr => absurd hr List.not_mem_nil,
    finishOf_samePort .l3 s, finishOf_nnzCount (i := .l3) (by decide) s⟩
  · rw [hend]
    exact State.raise_status_of_eq (loseScore_status s) k _
  · rw [hend, State.raise_errinfo]

/-- Settles O41: the scaled value of the statement is `l3Scaled`, and its two kinds of error are the
conversion's. -/
theorem l3ErrorsRaise : Obligations.L3ErrorsRaise := by
  intro s hrun dot v2
  refine ⟨fun hnan => ?_, fun hrange => ?_⟩
  · exact exec_l3_of_error hrun.1 ((F32.i32Trunc_eq_nan_iff (l3Scaled s)).2 hnan)
  · exact exec_l3_of_error hrun.1 ((F32.i32Trunc_eq_range_iff (l3Scaled s)).2 hrange)

/-! ### EVAL -/

/-- EVAL in flight whose stages raise an error loses its destinations (R239). -/
theorem finishEval_of_error {s : State} {f : Failure} (h : evalStages s = .error f) :
    finishEval s = (loseEval s).raise f.kind f.info := by
  rw [finishEval, h, State.conclude_error]

/-- Settles O43: error entry with what EVAL loses. -/
theorem evalErrorEntry : Obligations.EvalErrorEntry := by
  intro s f hrun hf
  have hend : finishOf .eval s = (loseEval s).raise f.kind f.info := finishEval_of_error hf
  refine ⟨finishOf .eval s, exec_of_busy .eval hrun.1, ?_, ?_, ?_, finishOf_sameBytesOutside .eval s,
    finishOf_samePort .eval s⟩
  · rw [hend, State.raise_status, loseEval_status]
    rfl
  · rw [hend, State.raise_errinfo]
  · rw [hend, State.raise_nnzCount]
    exact loseEval_nnzCount_le s

end Sys2Proof.Machine
end

section
/-! Commands in sequence (spec/30_encoding.md R108): no stage reads `STATUS`, so a run of a command is
its stage with the status of the command on it. FT is FTQ then NNZ, EVAL is FT, L1S, L2 and L3, and L1D
is L1S over more groups. -/

namespace Sys2Proof.Machine

/-! ### Status is not read -/

@[simp] theorem State.setStatus_setStatus (s : State) (f g : Status) :
    (s.setStatus f).setStatus g = s.setStatus g := rfl

theorem State.setStatus_samePort (s : State) (f : Status) : SamePort s (s.setStatus f) :=
  ⟨rfl, rfl, rfl, rfl⟩

/-- A stage whose result does not depend on `STATUS`, which it keeps. -/
def StatusFree (stage : State → Except Failure State) : Prop :=
  ∀ s f, stage (s.setStatus f) = (stage s).map (·.setStatus f)

theorem ftqStage_setStatus (s : State) (f : Status) :
    ftqStage (s.setStatus f) = (ftqStage s).setStatus f := rfl

theorem encoderOutput_setStatus (s : State) (f : Status) :
    encoderOutput (s.setStatus f) = encoderOutput s := rfl

theorem nnzStage_setStatus (s : State) (f : Status) :
    nnzStage (s.setStatus f) = (nnzStage s).setStatus f := by
  rw [nnzStage, nnzStage, encoderOutput_setStatus]
  rfl

theorem l1Pre_setStatus (s : State) (f : Status) : l1Pre (s.setStatus f) = l1Pre s := rfl
theorem l1Sum_setStatus (s : State) (f : Status) : l1Sum (s.setStatus f) = l1Sum s := rfl
theorem l2Pre_setStatus (s : State) (f : Status) : l2Pre (s.setStatus f) = l2Pre s := rfl
theorem l3Scaled_setStatus (s : State) (f : Status) : l3Scaled (s.setStatus f) = l3Scaled s := rfl
theorem State.nnzList_setStatus (s : State) (f : Status) : (s.setStatus f).nnzList = s.nnzList := rfl

theorem l1Stage_setStatus (s : State) (f : Status) (gs : List Nat) :
    l1Stage (s.setStatus f) gs = (l1Stage s gs).map (·.setStatus f) := by
  simp only [l1Stage, l1Pre_setStatus, l1Sum_setStatus]
  split <;> rfl

theorem l1Stage_statusFree (gs : List Nat) : StatusFree fun s => l1Stage s gs :=
  fun s f => l1Stage_setStatus s f gs

/-- L1S's stage reads its list from the state. -/
theorem l1sStage_statusFree : StatusFree fun s => l1Stage s s.nnzList :=
  fun s f => l1Stage_setStatus s f s.nnzList

theorem l2Stage_statusFree : StatusFree l2Stage := by
  intro s f
  simp only [l2Stage, l2Pre_setStatus]
  split <;> rfl

theorem l3Stage_statusFree : StatusFree l3Stage := by
  intro s f
  simp only [l3Stage, l3Scaled_setStatus]
  split <;> rfl

theorem State.forgetAll_setStatus (s : State) (f : Status) (rs : List Region) :
    (s.setStatus f).forgetAll rs = (s.forgetAll rs).setStatus f := by
  have key (t : State) : rs.foldl State.forget (t.setStatus f) = (rs.foldl State.forget t).setStatus f := by
    induction rs generalizing t with
    | nil => rfl
    | cons r rs ih => exact ih (t.forget r)
  rw [State.forgetAll, State.forgetAll, key]
  rfl

/-! ### A run of a command from an idle state -/

/-- From an idle state that meets the command's precondition, a run is the command's effect on the state
with the status of its acceptance (R238, R240). -/
theorem runCommand_of_idle {s : State} {i : Instr} (h : s.idle) (hi : i ≠ .srst)
    (hp : preconditionOf i s = none) :
    runCommand i s = .next (finishOf i (s.setStatus (s.status.accepted (curOf i)))) :=
  runCommand_of_accepted (exec_of_accepted h hi hp) rfl

/-- In the error state a command other than SRST changes nothing (R242). -/
theorem runCommand_of_failed {s : State} {i : Instr} (hb : s.status.busy = false)
    (he : s.status.err = true) (hi : i ≠ .srst) : runCommand i s = .next s := by
  have hexec : exec i s = .next s := by
    rw [exec_of_idle i hb, acceptOf, if_neg hi, State.accept_failed _ _ he]
  simp [runCommand, hexec, hb]

/-- The status at the end of a run of `i` from `f` without an error. -/
def Status.ran (f : Status) (i : Instr) : Status := (f.accepted (curOf i)).completed

/-- A run of FTQ, NNZ and FT (R162, R167, R169). -/
theorem runCommand_ftq {s : State} (h : s.idle) :
    runCommand .ftq s = .next ((ftqStage s).setStatus ((s.status.ran .ftq).withFresh false)) :=
  runCommand_of_idle h (by decide) rfl

theorem runCommand_nnz {s : State} (h : s.idle) (hv : s.status.lutValid = true) :
    runCommand .nnz s = .next ((nnzStage s).setStatus ((s.status.ran .nnz).withFresh true)) := by
  rw [runCommand_of_idle h (by decide) ((preconditionOf_eq_none_iff _ _).2 ⟨fun _ => hv, by simp⟩),
    finishOf, finishNnz, nnzStage_setStatus]
  rfl

theorem runCommand_ft {s : State} (h : s.idle) (hv : s.status.lutValid = true) :
    runCommand .ft s =
      .next ((nnzStage (ftqStage s)).setStatus ((s.status.ran .ft).withFresh true)) := by
  rw [runCommand_of_idle h (by decide) ((preconditionOf_eq_none_iff _ _).2 ⟨fun _ => hv, by simp⟩),
    finishOf, finishFt, ftqStage_setStatus, nnzStage_setStatus]
  rfl

/-- Settles O32: both runs put a status on the encoder's result on the quantizer's, and the two statuses
differ in `CUR`. -/
theorem ftIsFtqThenNnz : Obligations.FtIsFtqThenNnz := by
  intro s h hv
  exact ⟨_, _, _, runCommand_ft h hv, runCommand_ftq h,
    (runCommand_nnz (s := (ftqStage s).setStatus ((s.status.ran .ftq).withFresh false)) ⟨rfl, h.2⟩ hv).trans
      (by rw [nnzStage_setStatus, State.setStatus_setStatus]), ⟨rfl, h.2, rfl⟩, rfl⟩

/-! ### A run that can end in an error -/

/-- The end of a run from `s` with another status: the stage's result, or what is lost, with the status
of that end. -/
theorem State.conclude_setStatus {stage : State → Except Failure State} (hstage : StatusFree stage)
    (s : State) (f : Status) (rs : List Region) :
    (s.setStatus f).conclude (stage (s.setStatus f)) (fun s => s.forgetAll rs) =
      match stage s with
      | .ok t => t.setStatus (f.completed)
      | .error e => ((s.forgetAll rs).setStatus (f.raised e.kind)).setErrinfo e.info := by
  rw [hstage]
  cases stage s with
  | ok t => rfl
  | error e =>
    show ((s.setStatus f).forgetAll rs).raise e.kind e.info = _
    rw [State.forgetAll_setStatus]
    rfl

/-- The state `t` records the failure `e`, with no command in flight (R239). -/
structure Records (t : State) (e : Failure) : Prop where
  busy : t.status.busy = false
  err : t.status.err = true
  errcode : t.status.errcode = e.kind.code
  errinfo : t.errinfo = e.info

theorem State.raise_records (s : State) (e : Failure) : Records (s.raise e.kind e.info) e :=
  ⟨rfl, rfl, rfl, rfl⟩

/-- A failure once recorded stays through every command but SRST (R242). -/
theorem Records.runCommand {t : State} {e : Failure} (h : Records t e) {i : Instr} (hi : i ≠ .srst) :
    runCommand i t = .next t := runCommand_of_failed h.busy h.err hi

/-- How a run of a command over a stage ends: with the stage's result and status `ran`, or recording the
stage's failure. -/
def RunsStage (i : Instr) (s : State) : Except Failure State → Prop
  | .ok t => runCommand i s = .next (t.setStatus (s.status.ran i))
  | .error e => ∃ t, runCommand i s = .next t ∧ Records t e

theorem runsStage_of_conclude {s : State} {i : Instr} {stage : State → Except Failure State}
    {lose : State → State} (hstage : StatusFree stage) (h : s.idle) (hi : i ≠ .srst)
    (hp : preconditionOf i s = none) (hfinish : ∀ t, finishOf i t = t.conclude (stage t) lose) :
    RunsStage i s (stage s) := by
  have hrun := runCommand_of_idle h hi hp
  rw [hfinish, hstage] at hrun
  cases hs : stage s with
  | ok t =>
    rw [hs] at hrun
    exact hrun
  | error e =>
    rw [hs] at hrun
    exact ⟨_, hrun, State.raise_records _ e⟩

theorem runsStage_l1s {s : State} (h : s.idle) (hf : s.status.nnzFresh = true) :
    RunsStage .l1s s (l1Stage s s.nnzList) :=
  runsStage_of_conclude l1sStage_statusFree h (by decide)
    ((preconditionOf_eq_none_iff _ _).2 ⟨by simp, fun _ => hf⟩) fun _ => by rw [finishOf, finishL1s]

theorem runsStage_l2 {s : State} (h : s.idle) : RunsStage .l2 s (l2Stage s) :=
  runsStage_of_conclude l2Stage_statusFree h (by decide) rfl fun _ => by rw [finishOf, finishL2]

theorem runsStage_l3 {s : State} (h : s.idle) : RunsStage .l3 s (l3Stage s) :=
  runsStage_of_conclude l3Stage_statusFree h (by decide) rfl fun _ => by rw [finishOf, finishL3]

/-! ### EVAL and its stages -/

theorem evalStages_setStatus (s : State) (f : Status) :
    evalStages (s.setStatus f) = (evalStages s).map (·.setStatus (f.withFresh true)) := by
  simp only [evalStages, ftqStage_setStatus, nnzStage_setStatus, State.nnzList_setStatus]
  rw [l1Stage_setStatus]
  cases l1Stage (nnzStage (ftqStage s)) (nnzStage (ftqStage s)).nnzList with
  | error e => rfl
  | ok s2 =>
    simp only [Except.map, l2Stage_statusFree s2 f]
    cases l2Stage s2 with
    | error e => rfl
    | ok s3 =>
      simp only [Except.map, l3Stage_statusFree s3 f]
      cases l3Stage s3 <;> rfl

/-- EVAL runs its stages and sets `NNZ_FRESH` where they raise no error (R214). -/
theorem runCommand_eval {s : State} (h : s.idle) (hv : s.status.lutValid = true) :
    match evalStages s with
    | .ok t => runCommand .eval s = .next (t.setStatus ((s.status.ran .eval).withFresh true))
    | .error e => ∃ t, runCommand .eval s = .next t ∧ Records t e := by
  have hrun := runCommand_of_idle h (i := .eval) (by decide)
    ((preconditionOf_eq_none_iff _ _).2 ⟨fun _ => hv, by simp⟩)
  rw [finishOf, finishEval, evalStages_setStatus] at hrun
  cases hs : evalStages s with
  | ok t =>
    rw [hs] at hrun
    exact hrun
  | error e =>
    rw [hs] at hrun
    exact ⟨_, hrun, State.raise_records _ e⟩

/-- Two runs that record the same failure report the same error. -/
theorem Records.same_error {d t : State} {e : Failure} (hd : Records d e) (ht : Records t e) :
    d.status.err = t.status.err ∧ d.status.errcode = t.status.errcode ∧ d.errinfo = t.errinfo ∧
      (t.status.err = false → d.withCur .eval = t) :=
  ⟨hd.err.trans ht.err.symm, hd.errcode.trans ht.errcode.symm, hd.errinfo.trans ht.errinfo.symm,
    fun h => absurd (ht.err.symm.trans h) (by decide)⟩

/-- Settles O44: stage by stage; the first error ends both runs with the same record, and without one
both end in the last stage's result with statuses that differ in `CUR`. -/
theorem evalIsStagesInSequence : Obligations.EvalIsStagesInSequence := by
  intro s h hv
  have heval := runCommand_eval h hv
  obtain ⟨fa, hfa⟩ : ∃ fa, fa = (s.status.ran .ft).withFresh true := ⟨_, rfl⟩
  have ha := runCommand_ft h hv
  rw [← hfa] at ha
  have hidle (r : State) (f : Status) (hf : f.busy = false ∧ f.err = s.status.err) :
      (r.setStatus f).idle := ⟨hf.1, hf.2.trans h.2⟩
  have hl1s := runsStage_l1s (hidle (nnzStage (ftqStage s)) fa (by rw [hfa]; exact ⟨rfl, rfl⟩))
    (by rw [hfa]; rfl)
  rw [State.nnzList_setStatus, l1Stage_setStatus] at hl1s
  simp only [evalStages] at heval
  cases h1 : l1Stage (nnzStage (ftqStage s)) (nnzStage (ftqStage s)).nnzList with
  | error e =>
    rw [h1] at hl1s heval
    obtain ⟨t, ht, hte⟩ := heval
    obtain ⟨b, hb, hbe⟩ := hl1s
    exact ⟨t, _, b, b, b, ht, ha, hb, hbe.runCommand (by decide), hbe.runCommand (by decide),
      hbe.same_error hte⟩
  | ok s2 =>
    rw [h1] at hl1s
    simp only [h1] at heval
    have hl2 := runsStage_l2 (hidle s2 (fa.ran .l1s) (by rw [hfa]; exact ⟨rfl, rfl⟩))
    rw [l2Stage_statusFree s2] at hl2
    cases h2 : l2Stage s2 with
    | error e =>
      rw [h2] at hl2
      simp only [h2] at heval
      obtain ⟨t, ht, hte⟩ := heval
      obtain ⟨c, hc, hce⟩ := hl2
      exact ⟨t, _, _, c, c, ht, ha, hl1s, hc, hce.runCommand (by decide), hce.same_error hte⟩
    | ok s3 =>
      rw [h2] at hl2
      simp only [h2] at heval
      have hl3 := runsStage_l3 (hidle s3 ((fa.ran .l1s).ran .l2) (by rw [hfa]; exact ⟨rfl, rfl⟩))
      rw [l3Stage_statusFree s3] at hl3
      cases h3 : l3Stage s3 with
      | error e =>
        rw [h3] at hl3
        simp only [h3] at heval
        obtain ⟨t, ht, hte⟩ := heval
        obtain ⟨d, hd, hde⟩ := hl3
        exact ⟨t, _, _, _, d, ht, ha, hl1s, hl2, hd, hde.same_error hte⟩
      | ok s4 =>
        rw [h3] at hl3
        simp only [h3] at heval
        subst hfa
        exact ⟨_, _, _, _, _, heval, ha, hl1s, hl2, hl3, rfl, rfl, rfl, fun _ => rfl⟩

/-! ### Sparse equals dense -/

/-- The word view of the activations (R23). -/
theorem State.actw_eq (s : State) (g : Nat) : s.actw g =
    wordOfBytes (s.act (4 * g)) (s.act (4 * g + 1)) (s.act (4 * g + 2)) (s.act (4 * g + 3)) := by
  have haddr (i : Nat) : s.act i = s.byteAt (Region.act.base + i) := by
    rw [State.act, Region.elem, Region.elemBytes, Nat.one_mul]
  simp only [haddr, State.actw, State.read32, Nat.add_assoc]

/-- A group whose word is 0 adds nothing to a lane (R180, R185). -/
theorem contrib_of_zero {s : State} {g : Nat} (h : groupNonzero s g = false) (j : Nat) :
    contrib s g j = 0 := by
  have hzero : s.actw g = 0#32 := by simpa [groupNonzero] using h
  rw [State.actw_eq] at hzero
  have hbyte (k : Nat) (hk : k < 4) := (extractLsb'_wordOfBytes (s.act (4 * g)) (s.act (4 * g + 1))
    (s.act (4 * g + 2)) (s.act (4 * g + 3)) hk).symm.trans (by rw [hzero])
  have h0 : s.act (4 * g) = 0#8 := by simpa using hbyte 0 (by decide)
  have h1 : s.act (4 * g + 1) = 0#8 := by simpa using hbyte 1 (by decide)
  have h2 : s.act (4 * g + 2) = 0#8 := by simpa using hbyte 2 (by decide)
  have h3 : s.act (4 * g + 3) = 0#8 := by simpa using hbyte 3 (by decide)
  simp [contrib, dot4, h0, h1, h2, h3]

/-- The sum over the nonzero groups is the sum over all (R185). -/
theorem l1Sum_nonzeroGroups (s : State) :
    l1Sum s (nonzeroGroups s) = l1Sum s (List.range Config.ngroups) := by
  funext j
  have key (l : List Nat) : l1Sum s (l.filter (groupNonzero s)) j = l1Sum s l j := by
    induction l with
    | nil => rfl
    | cons g l ih =>
      have hcons (m : List Nat) : l1Sum s (g :: m) j = contrib s g j + l1Sum s m j := rfl
      cases hg : groupNonzero s g with
      | true => rw [List.filter_cons_of_pos hg, hcons, hcons, ih]
      | false => rw [List.filter_cons_of_neg (by simp [hg]), hcons, ih, contrib_of_zero hg, Int.zero_add]
  exact key _

/-- The stage over the nonzero groups is the stage over all. -/
theorem l1Stage_nonzeroGroups (s : State) :
    l1Stage s (nonzeroGroups s) = l1Stage s (List.range Config.ngroups) := by
  have hpre : l1Pre s (nonzeroGroups s) = l1Pre s (List.range Config.ngroups) := by
    funext j
    rw [l1Pre, l1Pre, l1Sum_nonzeroGroups]
  rw [l1Stage, l1Stage, hpre, l1Sum_nonzeroGroups]

/-- Settles O37: both runs conclude the same stage from states that differ in `CUR`, and what an error
loses does not depend on it. -/
theorem sparseEqualsDense : Obligations.SparseEqualsDense := by
  intro s hinv h hf
  have hstage : l1Stage s s.nnzList = l1Stage s (List.range Config.ngroups) := by
    rw [(hinv.list hf).2, l1Stage_nonzeroGroups]
  have hs := runCommand_of_idle h (i := .l1s) (by decide)
    ((preconditionOf_eq_none_iff _ _).2 ⟨by simp, fun _ => hf⟩)
  have hd := runCommand_of_idle h (i := .l1d) (by decide) rfl
  rw [finishOf, finishL1s, bufferWrites, State.conclude_setStatus l1sStage_statusFree, hstage] at hs
  rw [finishOf, finishL1d, bufferWrites, State.conclude_setStatus (l1Stage_statusFree _)] at hd
  obtain ⟨t, ht⟩ : ∃ t, runCommand .l1s s = .next t := ⟨_, hs⟩
  obtain ⟨u, hu⟩ : ∃ u, runCommand .l1d s = .next u := ⟨_, hd⟩
  have heq : u.withCur .l1s = t := by
    rw [Host.Outcome.next.inj (hu.symm.trans hd), Host.Outcome.next.inj (ht.symm.trans hs)]
    cases l1Stage s (List.range Config.ngroups) <;> rfl
  subst heq
  exact ⟨_, u, ht, hu, rfl, rfl, rfl, rfl, fun _ _ => rfl, ⟨rfl, rfl, rfl, rfl⟩, fun _ => rfl⟩

/-! ### INIT again -/

theorem State.byteAt_eq_of_read16 {s t : State} {a : Nat} (h : t.read16 a = s.read16 a) :
    ∀ k < 2, t.byteAt (a + k) = s.byteAt (a + k) := by
  have hsplit (u : State) : u.byteAt a = (u.read16 a).extractLsb' 0 8 ∧
      u.byteAt (a + 1) = (u.read16 a).extractLsb' 8 8 := by
    constructor <;> refine BitVec.eq_of_getLsbD_eq fun i hi => ?_ <;>
      simp only [State.read16, BitVec.getLsbD_extractLsb', BitVec.getLsbD_append, hi] <;> simp [hi]
  intro k hk
  interval_cases k
  · rw [Nat.add_zero, (hsplit t).1, (hsplit s).1, h]
  · rw [(hsplit t).2, (hsplit s).2, h]

/-- The same table elements are the same bytes. -/
theorem agreeOn_lut_of_elems {s t : State} (h : ∀ m < 256, ∀ e < 8, t.lut m e = s.lut m e) :
    AgreeOn .lut s t := by
  intro a ha
  obtain ⟨hlo, hhi⟩ := (Region.contains_iff .lut a).1 ha
  simp only [Region.base, Region.bytes] at hlo hhi
  obtain ⟨m, e, k, hm, he, hk, rfl⟩ :
      ∃ m e k, m < 256 ∧ e < 8 ∧ k < 2 ∧ a = Region.lut.elem (8 * m + e) + k := by
    refine ⟨(a - 0x5000) / 16, (a - 0x5000) % 16 / 2, (a - 0x5000) % 2, by omega, by omega, by omega, ?_⟩
    simp only [Region.elem, Region.base, Region.elemBytes]
    omega
  exact State.byteAt_eq_of_read16 (h m hm e he) k hk

/-- Settles O25: the table that INIT writes is the one that stands there. -/
theorem initIdempotent : Obligations.InitIdempotent := by
  intro s htable hv h
  have hrun := runCommand_of_idle h (i := .init) (by decide) rfl
  rw [finishOf] at hrun
  refine ⟨finishInit _, hrun, fun a => ?_, ?_,
    (s.setStatus_samePort _).trans (finishInit_samePort _), rfl, rfl, rfl⟩
  · by_cases ha : Region.lut.contains a = true
    · exact agreeOn_lut_of_elems (t := finishInit (s.setStatus (s.status.accepted (curOf .init))))
        (fun m hm e he => (finishInit_lut _ hm he).trans (htable hv m hm e he).symm) a ha
    · exact finishInit_byteAt_out _ a (by simpa using ha)
  · rw [finishInit_status rfl]
    simp [Status.accepted, hv, h.1, curOf, encode, opcode]

end Sys2Proof.Machine
end

section
/-! EVAL stage by stage (spec/45_l3_eval.md R214): each stage depends on the buffers it reads only, so
the results can be read off the final state, and two states that hold the same inputs end alike. -/

namespace Sys2Proof.Machine

/-! ### What a stage reads -/

theorem AgreeOn.ftqOutput {s t : State} (hus : AgreeOn .us s t) (hthem : AgreeOn .them s t) :
    ftqOutput t = ftqOutput s := by
  rw [Machine.ftqOutput, Machine.ftqOutput, Config.half_eq]
  refine congrArg₂ (· ++ ·) (List.map_congr_left fun i hi => ?_) (List.map_congr_left fun i hi => ?_)
  · have hi := List.mem_range.1 hi
    rw [hus.us (by omega), hus.us (by omega)]
  · have hi := List.mem_range.1 hi
    rw [hthem.them (by omega), hthem.them (by omega)]

theorem AgreeOn.sliceMask {s t : State} (h : AgreeOn .act s t) {sl : Nat} (hsl : sl < 64) :
    sliceMask t sl = sliceMask s sl := by
  rw [Machine.sliceMask, Machine.sliceMask]
  refine congrArg List.sum (List.map_congr_left fun k hk => ?_)
  rw [h.groupNonzero (by have := List.mem_range.1 hk; omega)]

theorem AgreeOn.sliceIndices {s t : State} (hact : AgreeOn .act s t) (hlut : AgreeOn .lut s t) {sl : Nat}
    (hsl : sl < 64) : sliceIndices t sl = sliceIndices s sl := by
  rw [Machine.sliceIndices, Machine.sliceIndices, hact.sliceMask hsl]
  refine List.map_congr_left fun e he => ?_
  rw [hlut.lut (sliceMask_lt s sl) ((List.mem_range.1 he).trans_le (popcount8_le _))]

theorem AgreeOn.encoderOutput {s t : State} (hact : AgreeOn .act s t) (hlut : AgreeOn .lut s t) :
    encoderOutput t = encoderOutput s :=
  List.flatMap_congr fun _ hsl => hact.sliceIndices hlut (List.mem_range.1 hsl)

theorem AgreeOn.contrib {s t : State} (hact : AgreeOn .act s t) (hw : AgreeOn .l1w s t) {g j : Nat}
    (hg : g < 512) (hj : j < 16) : contrib t g j = contrib s g j := by
  have ha (k : Nat) (hk : k < 4) : t.act (4 * g + k) = s.act (4 * g + k) := hact.act (by omega)
  have hl (k : Nat) (hk : k < 4) : t.l1w (64 * g + 4 * j + k) = s.l1w (64 * g + 4 * j + k) :=
    hw.l1w (by omega)
  simp only [Machine.contrib, dot4, ha 0 (by decide), ha 1 (by decide), ha 2 (by decide),
    ha 3 (by decide), hl 0 (by decide), hl 1 (by decide), hl 2 (by decide), hl 3 (by decide)]

theorem AgreeOn.l1Sum {s t : State} (hact : AgreeOn .act s t) (hw : AgreeOn .l1w s t) {gs : List Nat}
    (hgs : ∀ g ∈ gs, g < 512) {j : Nat} (hj : j < 16) : l1Sum t gs j = l1Sum s gs j :=
  congrArg List.sum (List.map_congr_left fun g hg => hact.contrib hw (hgs g hg) hj)

theorem AgreeOn.l1Pre {s t : State} (hact : AgreeOn .act s t) (hw : AgreeOn .l1w s t)
    (hb : AgreeOn .l1b s t) {gs : List Nat} (hgs : ∀ g ∈ gs, g < 512) {j : Nat} (hj : j < 16) :
    l1Pre t gs j = l1Pre s gs j := by
  rw [Machine.l1Pre, Machine.l1Pre, hact.l1Sum hw hgs hj, hb.l1b hj]

theorem AgreeOn.l2Pre {s t : State} (ho : AgreeOn .l1out s t) (hw : AgreeOn .l2w s t)
    (hb : AgreeOn .l2b s t) {j : Nat} (hj : j < 32) : l2Pre t j = l2Pre s j := by
  rw [Machine.l2Pre, Machine.l2Pre, hb.l2b hj, Config.l2Size_eq]
  refine List.foldl_ext _ _ _ fun acc i hi => ?_
  have hi := List.mem_range.1 hi
  rw [ho.l1out hi, hw.l2w (by omega)]

theorem AgreeOn.l3Scaled {s t : State} (ho : AgreeOn .l2out s t) (hw : AgreeOn .l3w s t)
    (hb : AgreeOn .l3b s t) : l3Scaled t = l3Scaled s := by
  have hdot : l3Dot t = l3Dot s := by
    rw [l3Dot, l3Dot, Config.l3Size_eq]
    refine List.foldl_ext _ _ _ fun acc k hk => ?_
    have hk := List.mem_range.1 hk
    rw [ho.l2out hk, hw.l3w hk]
  rw [Machine.l3Scaled, Machine.l3Scaled, hdot, hb.l3b]

/-! ### The results in the final state -/

/-- After EVAL's feature transform only the three buffers of the layers change. -/
theorem EvalRun.sameBytesAfterFt {s s2 s3 t : State} {n : Int} (h : EvalRun s s2 s3 n t) :
    SameBytesOutside [.l1acc, .l1out, .l2out] (nnzStage (ftqStage s)) t := by
  obtain ⟨h1, h2, -, rfl⟩ := h
  exact ((l1Stage_sameBytesOutside h1).mono (by simp)).trans ((l2Stage_sameBytesOutside h2).mono (by simp))

theorem EvalRun.sameBytesAfterL1 {s s2 s3 t : State} {n : Int} (h : EvalRun s s2 s3 n t) :
    SameBytesOutside [.l2out] s2 t := by
  obtain ⟨-, h2, -, rfl⟩ := h
  exact (l2Stage_sameBytesOutside h2 :)

theorem EvalRun.sameBytesAfterL2 {s s2 s3 t : State} {n : Int} (h : EvalRun s s2 s3 n t) (a : Nat) :
    t.byteAt a = s3.byteAt a := by
  obtain ⟨-, -, -, rfl⟩ := h
  rfl

theorem EvalRun.nnzList_eq {s s2 s3 t : State} {n : Int} (h : EvalRun s s2 s3 n t) :
    t.nnzList = (nnzStage (ftqStage s)).nnzList :=
  AgreeOn.nnzList (h.sameBytesAfterFt.agreeOn (by decide)) h.nnzCount (nnzStage_nnzCount_le _)

/-- The activations that EVAL leaves are the quantizer's (R214). -/
theorem EvalRun.act {s s2 s3 t : State} {n : Int} (h : EvalRun s s2 s3 n t) {i : Nat} (hi : i < 1024) :
    t.act i = ftqByte (s.us i) (s.us (i + 1024)) ∧
      t.act (1024 + i) = ftqByte (s.them i) (s.them (i + 1024)) := by
  have hact : AgreeOn .act (nnzStage (ftqStage s)) t := h.sameBytesAfterFt.agreeOn (by decide)
  obtain ⟨hus, hthem⟩ := nnzStage_ftqStage_act s hi
  exact ⟨(hact.act (by omega)).trans hus, (hact.act (by omega)).trans hthem⟩

/-- The list that EVAL leaves is the encoder's output on the final `ACT` and table. -/
theorem EvalRun.nnzList_eq_encoderOutput {s s2 s3 t : State} {n : Int} (h : EvalRun s s2 s3 n t) :
    t.nnzList = (encoderOutput t).map (·.toNat) := by
  have hnnz := nnzStage_sameBytesOutside (ftqStage s)
  have hact : AgreeOn .act (ftqStage s) t :=
    (hnnz.agreeOn (by decide)).trans (h.sameBytesAfterFt.agreeOn (by decide))
  have hlut : AgreeOn .lut (ftqStage s) t :=
    (hnnz.agreeOn (by decide)).trans (h.sameBytesAfterFt.agreeOn (by decide))
  rw [h.nnzList_eq, nnzStage_nnzList, hact.encoderOutput hlut]

/-- The first layer's results, on the final operands (R183). -/
theorem EvalRun.l1_results {s s2 s3 t : State} {n : Int} (h : EvalRun s s2 s3 n t)
    (hgs : ∀ g ∈ t.nnzList, g < 512) {j : Nat} (hj : j < 16) :
    t.l1acc j = BitVec.ofInt 32 (l1Sum t t.nnzList j) ∧
      ∃ r, (l1Pre t t.nnzList j).csq = some r ∧ t.l1out j = r.pack := by
  have hkeep {r : Region} (hr : r ∉ [Region.l1acc, .l1out, .l2out]) :
      AgreeOn r (nnzStage (ftqStage s)) t := h.sameBytesAfterFt.agreeOn hr
  have hafter {r : Region} (hr : r ∉ [Region.l2out]) : AgreeOn r s2 t := h.sameBytesAfterL1.agreeOn hr
  have h1 := h.l1
  rw [← h.nnzList_eq] at h1
  rw [(hafter (by decide)).l1acc hj, (hafter (by decide)).l1out hj,
    AgreeOn.l1Sum (hkeep (by decide)) (hkeep (by decide)) hgs hj,
    AgreeOn.l1Pre (hkeep (by decide)) (hkeep (by decide)) (hkeep (by decide)) hgs hj]
  exact ⟨l1Stage_l1acc h1 hj, l1Stage_l1out h1 hj⟩

/-- The second layer's results, on the final operands (R202). -/
theorem EvalRun.l2_results {s s2 s3 t : State} {n : Int} (h : EvalRun s s2 s3 n t) {j : Nat}
    (hj : j < 32) : ∃ r, (l2Pre t j).csq = some r ∧ t.l2out j = r.pack := by
  have hafter {r : Region} (hr : r ∉ [Region.l2out]) : AgreeOn r s2 t := h.sameBytesAfterL1.agreeOn hr
  have hout : AgreeOn .l2out s3 t := fun a _ => h.sameBytesAfterL2 a
  rw [AgreeOn.l2Pre (hafter (by decide)) (hafter (by decide)) (hafter (by decide)) hj, hout.l2out hj]
  exact l2Stage_l2out h.l2 hj

/-- The score, on the final operands (R212). -/
theorem EvalRun.l3_result {s s2 s3 t : State} {n : Int} (h : EvalRun s s2 s3 n t) :
    (l3Scaled t).i32Trunc = .ok n ∧ t.score = BitVec.ofInt 32 n := by
  have hall (r : Region) : AgreeOn r s3 t := fun a _ => h.sameBytesAfterL2 a
  rw [AgreeOn.l3Scaled (hall _) (hall _) (hall _)]
  obtain ⟨-, -, h3, rfl⟩ := h
  exact ⟨h3, rfl⟩

/-- EVAL in flight, its stages without error, completes their result (R240). -/
theorem exec_eval_of_ok {s u : State} (hbusy : s.status.busy = true) (h : evalStages s = .ok u) :
    exec .eval s = .next u.complete := by
  rw [exec_of_busy .eval hbusy, finishOf, finishEval, h, State.conclude_ok]

theorem evalStages_complete_status {s u : State} {c : BitVec 4} (h : evalStages s = .ok u)
    (hc : s.status.cur = c) : u.complete.status =
      { s.status with nnzFresh := true, busy := false, done := true, cur := c } := by
  rw [State.complete_status, evalStages_status h, Status.completed_withFresh_of_cur hc]

/-- The list of a successful EVAL with a valid table names groups below 512. -/
theorem EvalRun.nnzList_lt {s s2 s3 t : State} {n : Int} (h : EvalRun s s2 s3 n t) (htable : s.TableInv)
    (hv : s.status.lutValid = true) : ∀ g ∈ t.nnzList, g < 512 := by
  rw [h.list htable hv]
  exact fun g hg => mem_nonzeroGroups_lt hg

/-- Settles O42: each stage's results stand in the final state, since no later stage writes what it read
or wrote. -/
theorem evalCompletes : Obligations.EvalCompletes := by
  intro s u hrun hu
  obtain ⟨s2, s3, n, h⟩ := evalStages_eq_ok hu
  exact ⟨u.complete, exec_eval_of_ok hrun.1 hu, fun i hi => h.act hi, h.nnzList_eq_encoderOutput,
    fun htable hv j hj => h.l1_results (h.nnzList_lt htable hv) hj, fun j hj => h.l2_results hj,
    ⟨n, h.l3_result⟩, evalStages_complete_status hu hrun.2.2, h.sameBytesOutside,
    h.samePort.trans u.complete_samePort, h.errinfo⟩

end Sys2Proof.Machine
end

section
/-! EVAL is a function of its inputs (spec/45_l3_eval.md R214, spec/20_memory.md R72): two states that hold
the same accumulators, table, weights and biases, and draw the same free values, end alike. -/

namespace Sys2Proof.Machine

/-! ### The same write in two states -/

/-- A buffer that neither run writes stays the same in both. -/
theorem AgreeOn.frame {r : Region} {rs : List Region} {s s' t t' : State} (h : AgreeOn r s s')
    (hr : r ∉ rs) (ht : SameBytesOutside rs s t) (ht' : SameBytesOutside rs s' t') : AgreeOn r t t' :=
  ((ht.agreeOn hr).symm.trans h).trans (ht'.agreeOn hr)

theorem AgreeOn.writeBytes {r : Region} {s t : State} (h : AgreeOn r s t) (a : Nat) (vs : List Byte) :
    AgreeOn r (s.writeBytes a vs) (t.writeBytes a vs) := by
  intro b hb
  rw [State.byteAt_writeBytes, State.byteAt_writeBytes, h b hb]

/-- Where the whole buffer is written, what stood there does not matter. -/
theorem agreeOn_writeBytes {r : Region} {vs : List Byte} (hlen : vs.length = r.bytes) (s t : State) :
    AgreeOn r (s.writeBytes r.base vs) (t.writeBytes r.base vs) := by
  intro b hb
  have hin : r.base ≤ b ∧ b < r.base + vs.length := hlen ▸ (Region.contains_iff r b).1 hb
  rw [State.byteAt_writeBytes, State.byteAt_writeBytes, dif_pos hin, dif_pos hin]

theorem AgreeOn.forget {r : Region} {s t : State} (h : AgreeOn r s t) (hf : t.fresh = s.fresh)
    (q : Region) : AgreeOn r (s.forget q) (t.forget q) := by
  rw [State.forget, State.forget, hf]
  exact h.writeBytes _ _

/-- Two states that draw the same free values forget a buffer alike. -/
theorem agreeOn_forget {s t : State} (hf : t.fresh = s.fresh) (r : Region) :
    AgreeOn r (s.forget r) (t.forget r) := by
  rw [State.forget, State.forget, hf]
  exact agreeOn_writeBytes (by simp) s t

theorem AgreeOn.forgetAll {r : Region} {s t : State} (h : AgreeOn r s t) (hf : t.fresh = s.fresh)
    (rs : List Region) : AgreeOn r (s.forgetAll rs) (t.forgetAll rs) := by
  show AgreeOn r (rs.foldl State.forget s) (rs.foldl State.forget t)
  induction rs generalizing s t with
  | nil => exact h
  | cons q rs ih => exact ih (h.forget hf q) hf

theorem agreeOn_forgetAll {r : Region} {rs : List Region} (hr : r ∈ rs) {s t : State}
    (hf : t.fresh = s.fresh) : AgreeOn r (s.forgetAll rs) (t.forgetAll rs) := by
  induction rs generalizing s t with
  | nil => cases hr
  | cons q rs ih =>
    rcases List.mem_cons.1 hr with rfl | hr
    · exact (agreeOn_forget hf r).forgetAll hf rs
    · exact ih hr (s := s.forget q) (t := t.forget q) hf

/-! ### Each stage in two states -/

theorem ftqStage_agreeOn {s t : State} (hus : AgreeOn .us s t) (hthem : AgreeOn .them s t) :
    AgreeOn .act (ftqStage s) (ftqStage t) := by
  rw [ftqStage, ftqStage, hus.ftqOutput hthem]
  exact agreeOn_writeBytes (length_ftqOutput s) s t

theorem nnzStage_agreeOn {s t : State} (hact : AgreeOn .act s t) (hlut : AgreeOn .lut s t)
    (hf : t.fresh = s.fresh) : AgreeOn .nnz (nnzStage s) (nnzStage t) := by
  rw [nnzStage, nnzStage, hact.encoderOutput hlut]
  exact (agreeOn_forgetAll List.mem_cons_self hf).writeBytes _ _

/-- Two stages raise the same error, or both end, with the same bytes in the given buffers. -/
def SameEnd (rs : List Region) : Except Failure State → Except Failure State → Prop
  | .ok t, .ok t' => ∀ r ∈ rs, AgreeOn r t t'
  | .error e, .error e' => e' = e
  | .ok _, .error _ => False
  | .error _, .ok _ => False

theorem SameEnd.cases {rs : List Region} {x y : Except Failure State} (h : SameEnd rs x y) :
    (∃ e, x = .error e ∧ y = .error e) ∨
      ∃ t t', x = .ok t ∧ y = .ok t' ∧ ∀ r ∈ rs, AgreeOn r t t' := by
  cases x with
  | ok t =>
    cases y with
    | ok t' => exact .inr ⟨t, t', rfl, rfl, h⟩
    | error e' => exact h.elim
  | error e =>
    cases y with
    | ok t' => exact h.elim
    | error e' => exact .inl ⟨e, rfl, congrArg Except.error h⟩

theorem l1Stage_sameEnd {s t : State} {gs : List Nat} (hsum : ∀ j < 16, l1Sum t gs j = l1Sum s gs j)
    (hpre : ∀ j < 16, l1Pre t gs j = l1Pre s gs j) :
    SameEnd [.l1acc, .l1out] (l1Stage s gs) (l1Stage t gs) := by
  have hlanes : (List.range 16).map (l1Pre t gs) = (List.range 16).map (l1Pre s gs) :=
    List.map_congr_left fun j hj => hpre j (List.mem_range.1 hj)
  have hwords : ((List.range 16).map fun j => BitVec.ofInt 32 (l1Sum t gs j)) =
      (List.range 16).map fun j => BitVec.ofInt 32 (l1Sum s gs j) :=
    List.map_congr_left fun j hj => by rw [hsum j (List.mem_range.1 hj)]
  simp only [l1Stage, Config.l2Size_eq, hlanes, hwords]
  cases houts : activate 0x100 0 ((List.range 16).map (l1Pre s gs)) with
  | error e => exact rfl
  | ok outs =>
    have hlen : outs.length = 16 := by simpa using (activate_eq_ok houts).1
    intro r hr
    rcases List.mem_pair.1 hr with rfl | rfl
    · exact (agreeOn_writeBytes (r := .l1acc) (by
        rw [length_flatMap_bytesOfWord]
        simp [Region.bytes]) s t).writeBytes _ _
    · exact agreeOn_writeBytes (r := .l1out) (by
        rw [length_flatMap_bytesOfWord, hlen]
        rfl) _ _

theorem l2Stage_sameEnd {s t : State} (hpre : ∀ j < 32, l2Pre t j = l2Pre s j) :
    SameEnd [.l2out] (l2Stage s) (l2Stage t) := by
  have hlanes : (List.range 32).map (l2Pre t) = (List.range 32).map (l2Pre s) :=
    List.map_congr_left fun j hj => hpre j (List.mem_range.1 hj)
  simp only [l2Stage, Config.l3Size_eq, hlanes]
  cases houts : activate 0x200 0 ((List.range 32).map (l2Pre s)) with
  | error e => exact rfl
  | ok outs =>
    have hlen : outs.length = 32 := by simpa using (activate_eq_ok houts).1
    intro r hr
    obtain rfl := List.mem_singleton.1 hr
    exact agreeOn_writeBytes (r := .l2out) (by
      rw [length_flatMap_bytesOfWord, hlen]
      rfl) s t

/-! ### EVAL in two states -/

/-- The buffers that EVAL reads and does not write (R72). -/
def evalInputs : List Region := [.us, .them, .lut, .l1w, .l1b, .l2w, .l2b, .l3w, .l3b]

theorem notMem_of_evalInputs {r : Region} (hr : r ∈ evalInputs) :
    r ∉ [Region.act, .nnz] ∧ r ∉ [Region.l1acc, .l1out] ∧ r ∉ [Region.l2out] := by
  revert r
  decide

/-- The destinations of EVAL that a host can compare. -/
structure SameResults (t t' : State) : Prop where
  score : t'.score = t.score
  nnzCount : t'.nnzCount = t.nnzCount
  buffers : ∀ r ∈ bufferWrites .eval, AgreeOn r t t'

/-- After the feature transform of two runs: the same inputs, activations, list and count. -/
structure SameAfterFt (t t' : State) : Prop where
  inputs : ∀ r ∈ evalInputs, AgreeOn r t t'
  act : AgreeOn .act t t'
  nnz : AgreeOn .nnz t t'
  nnzCount : t'.nnzCount = t.nnzCount

theorem sameAfterFt {s s' : State} (hin : ∀ r ∈ evalInputs, AgreeOn r s s') (hf : s'.fresh = s.fresh) :
    SameAfterFt (nnzStage (ftqStage s)) (nnzStage (ftqStage s')) := by
  have hact := ftqStage_agreeOn (hin .us (by decide)) (hin .them (by decide))
  have hlut : AgreeOn .lut (ftqStage s) (ftqStage s') := (hin .lut (by decide)).frame (by decide)
    (ftqStage_sameBytesOutside s) (ftqStage_sameBytesOutside s')
  exact {
    inputs := fun r hr => (hin r hr).frame (notMem_of_evalInputs hr).1
      (nnzStage_ftqStage_sameBytesOutside s) (nnzStage_ftqStage_sameBytesOutside s')
    act := hact.frame (by decide) (nnzStage_sameBytesOutside _) (nnzStage_sameBytesOutside _)
    nnz := nnzStage_agreeOn hact hlut hf
    nnzCount := by rw [nnzStage_nnzCount, nnzStage_nnzCount, hact.encoderOutput hlut] }

/-- The stages of two runs raise the same error, or end with the same results. -/
theorem evalStages_agree {s s' : State} (hin : ∀ r ∈ evalInputs, AgreeOn r s s')
    (hf : s'.fresh = s.fresh) (htable : s.TableInv) (hv : s.status.lutValid = true) :
    (∃ e, evalStages s = .error e ∧ evalStages s' = .error e) ∨
      ∃ t t', evalStages s = .ok t ∧ evalStages s' = .ok t' ∧ SameResults t t' := by
  have hft := sameAfterFt hin hf
  have hlist : (nnzStage (ftqStage s')).nnzList = (nnzStage (ftqStage s)).nnzList :=
    hft.nnz.nnzList hft.nnzCount (nnzStage_nnzCount_le _)
  have hlt : ∀ g ∈ (nnzStage (ftqStage s)).nnzList, g < 512 := by
    rw [nnzStage_list htable.ftqStage hv]
    exact fun g hg => mem_nonzeroGroups_lt hg
  have hl1 := l1Stage_sameEnd (gs := (nnzStage (ftqStage s)).nnzList)
    (fun j hj => hft.act.l1Sum (hft.inputs .l1w (by decide)) hlt hj)
    (fun j hj => hft.act.l1Pre (hft.inputs .l1w (by decide)) (hft.inputs .l1b (by decide)) hlt hj)
  simp only [evalStages, hlist]
  rcases hl1.cases with ⟨e, h1, h1'⟩ | ⟨s2, s2', h1, h1', hout1⟩
  · exact .inl ⟨e, by rw [h1], by rw [h1']⟩
  have hkeep1 {r : Region} (hr : r ∉ [Region.l1acc, .l1out])
      (h : AgreeOn r (nnzStage (ftqStage s)) (nnzStage (ftqStage s'))) : AgreeOn r s2 s2' :=
    h.frame hr (l1Stage_sameBytesOutside h1) (l1Stage_sameBytesOutside h1')
  have hin2 (r : Region) (hr : r ∈ evalInputs) : AgreeOn r s2 s2' :=
    hkeep1 (notMem_of_evalInputs hr).2.1 (hft.inputs r hr)
  have hl2 := l2Stage_sameEnd (s := s2) (t := s2') fun j hj =>
    (hout1 .l1out (by simp)).l2Pre (hin2 .l2w (by decide)) (hin2 .l2b (by decide)) hj
  simp only [h1, h1']
  rcases hl2.cases with ⟨e, h2, h2'⟩ | ⟨s3, s3', h2, h2', hout2⟩
  · exact .inl ⟨e, by rw [h2], by rw [h2']⟩
  have hkeep2 {r : Region} (hr : r ∉ [Region.l2out]) (h : AgreeOn r s2 s2') : AgreeOn r s3 s3' :=
    h.frame hr (l2Stage_sameBytesOutside h2) (l2Stage_sameBytesOutside h2')
  have hin3 (r : Region) (hr : r ∈ evalInputs) : AgreeOn r s3 s3' :=
    hkeep2 (notMem_of_evalInputs hr).2.2 (hin2 r hr)
  have hscaled : l3Scaled s3' = l3Scaled s3 :=
    (hout2 .l2out (by simp)).l3Scaled (hin3 .l3w (by decide)) (hin3 .l3b (by decide))
  simp only [h2, h2', l3Stage, hscaled]
  cases (l3Scaled s3).i32Trunc with
  | error k => exact .inl ⟨_, rfl, rfl⟩
  | ok n =>
    refine .inr ⟨_, _, rfl, rfl, rfl, ?_, fun r hr => ?_⟩
    · exact ((l2Stage_nnzCount h2').trans (l1Stage_nnzCount h1')).trans
        (hft.nnzCount.trans ((l2Stage_nnzCount h2).trans (l1Stage_nnzCount h1)).symm)
    · show AgreeOn r s3 s3'
      simp only [bufferWrites, List.mem_cons, List.not_mem_nil, or_false] at hr
      rcases hr with rfl | rfl | rfl | rfl | rfl
      · exact hkeep2 (by decide) (hkeep1 (by decide) hft.act)
      · exact hkeep2 (by decide) (hkeep1 (by decide) hft.nnz)
      · exact hkeep2 (by decide) (hout1 .l1acc (by simp))
      · exact hkeep2 (by decide) (hout1 .l1out (by simp))
      · exact hout2 .l2out (by simp)

theorem loseEval_byteAt (s : State) (a : Nat) :
    (loseEval s).byteAt a = (s.forgetAll (bufferWrites .eval)).byteAt a := by
  simp only [loseEval, State.byteAt_setFresh, State.byteAt_setScore, State.byteAt_setCount]

/-- What an error of EVAL leaves is drawn alike (R239, U2). -/
theorem loseEval_sameResults {s s' : State} (hf : s'.fresh = s.fresh) :
    SameResults (loseEval s) (loseEval s') := by
  have hword (a : Nat) : s'.unspecifiedWord a = s.unspecifiedWord a := by
    rw [State.unspecifiedWord, State.unspecifiedWord, hf]
  refine ⟨hword _, congrArg (fun w : Word => BitVec.ofNat 32 (w.toNat % 513)) (hword _),
    fun r hr a ha => ?_⟩
  rw [loseEval_byteAt, loseEval_byteAt]
  exact agreeOn_forgetAll hr hf a ha

/-- Settles O45: the stages of the two runs end alike, and so do an error's losses. -/
theorem evalDependsOnInputsOnly : Obligations.EvalDependsOnInputsOnly := by
  intro s s' hrun hrun' htable hv _ hf hin
  refine ⟨finishOf .eval s, finishOf .eval s', exec_of_busy .eval hrun.1, exec_of_busy .eval hrun'.1, ?_⟩
  rcases evalStages_agree hin hf htable hv with ⟨e, he, he'⟩ | ⟨t, t', ht, ht', hsame⟩
  · have hend : finishOf .eval s = (loseEval s).raise e.kind e.info := finishEval_of_error he
    have hend' : finishOf .eval s' = (loseEval s').raise e.kind e.info := finishEval_of_error he'
    obtain ⟨hscore, hcount, hbuffers⟩ := loseEval_sameResults hf
    rw [hend, hend']
    simp only [State.raise_score, State.raise_nnzCount, State.raise_status, State.raise_errinfo,
      State.byteAt_raise, Status.raised_err, Status.raised_errcode, if_true]
    exact ⟨hscore, hcount, trivial, trivial, fun _ => trivial, hbuffers⟩
  · have hend : finishOf .eval s = t.complete := by
      rw [finishOf, finishEval, ht, State.conclude_ok]
    have hend' : finishOf .eval s' = t'.complete := by
      rw [finishOf, finishEval, ht', State.conclude_ok]
    obtain ⟨hscore, hcount, hbuffers⟩ := hsame
    have herr : t.complete.status.err = false := by
      rw [evalStages_complete_status ht rfl]
      exact hrun.2.1
    have herr' : t'.complete.status.err = false := by
      rw [evalStages_complete_status ht' rfl]
      exact hrun'.2.1
    rw [hend, hend', herr, herr', if_neg (by decide)]
    refine ⟨hscore, hcount, rfl, ?_, fun h => absurd h (by decide), hbuffers⟩
    rw [evalStages_complete_status ht' rfl]

end Sys2Proof.Machine
end

section
/-! EVAL on particular inputs (spec/45_l3_eval.md section 2, spec/60_exceptions.md R234,
spec/95_test_vectors.md section 2.8): finite weights, zero accumulators, and the uniform scenario. -/

namespace Sys2Proof.Machine

/-! ### Outputs of an activation as operands -/

/-- Reading the pattern of a representable value gives the value back. -/
theorem F32.unpack_pack_of_representable {u : Nat} (h : F32.Representable u) (neg : Bool) :
    F32.unpack (F32.pack (.fin neg u)) = .fin neg u := by
  obtain ⟨m, e, hnormal, rfl⟩ := h
  exact hnormal.unpack_pack neg

theorem F32.representable_of_round {neg : Bool} {x u : Nat} (h : F32.round neg x = .fin neg u) :
    F32.Representable u := by
  rcases F32.correctlyRounded_round neg x with ⟨hinf, -⟩ | ⟨-, v, hv, hrep, -⟩
  · rw [h] at hinf
    cases hinf
  · rw [h] at hv
    cases hv
    exact (F32.exists_unpack_iff neg _).1 hrep

theorem F32.representable_zero : F32.Representable 0 :=
  ⟨0, 0, ⟨by decide, by decide, .inl rfl⟩, rfl⟩

/-- The clip-square answers a value that has a pattern (R130). -/
theorem F32.csq_representable {v r : F32} (h : v.csq = some r) :
    ∃ u, r = .fin false u ∧ F32.Representable u := by
  have hzero (h : some (F32.fin false 0) = some r) : ∃ u, r = .fin false u ∧ F32.Representable u :=
    ⟨0, (Option.some.inj h).symm, F32.representable_zero⟩
  have hone (h : some (F32.fin false (2 ^ 149)) = some r) : ∃ u, r = .fin false u ∧ F32.Representable u :=
    ⟨2 ^ 149, (Option.some.inj h).symm, F32.representable_one⟩
  cases v with
  | nan => cases h
  | inf neg =>
    cases neg
    · exact hone (F32.csq_inf_false ▸ h)
    · exact hzero (F32.csq_inf_true ▸ h)
  | fin neg u =>
    cases neg
    · rcases Nat.lt_or_ge (2 ^ 149) u with hgt | hle
      · exact hone (F32.csq_fin_false_of_gt hgt ▸ h)
      · obtain ⟨w, hw, -⟩ := F32.csq_range h
        rw [F32.csq_fin_false hle, Option.some.injEq] at h
        exact ⟨w, hw, F32.representable_of_round (h.trans hw)⟩
    · exact hzero (F32.csq_fin_true u ▸ h)

/-- An activated lane, stored and read again, is finite. -/
theorem F32.unpack_pack_csq {v r : F32} (h : v.csq = some r) : F32.unpack r.pack = r := by
  obtain ⟨u, rfl, hu⟩ := F32.csq_representable h
  exact F32.unpack_pack_of_representable hu false

/-! ### Finite weights -/

/-- A fold of fused multiply-adds over finite factors is a NaN only where it starts as one (R234). -/
theorem isNaN_foldl_fma {l : List Nat} {a b : Nat → F32} (ha : ∀ i ∈ l, ∃ n u, a i = .fin n u)
    (hb : ∀ i ∈ l, ∃ n u, b i = .fin n u) (c : F32) :
    (l.foldl (fun acc i => F32.fma (a i) (b i) acc) c).isNaN = c.isNaN := by
  induction l generalizing c with
  | nil => rfl
  | cons i l ih =>
    obtain ⟨n, u, hn⟩ := ha i List.mem_cons_self
    obtain ⟨m, v, hm⟩ := hb i List.mem_cons_self
    rw [List.foldl_cons, ih (fun k hk => ha k (List.mem_cons_of_mem _ hk))
      (fun k hk => hb k (List.mem_cons_of_mem _ hk)), hn, hm, F32.isNaN_fma_fin]

theorem isNaN_fin_of_eq {v : F32} (h : ∃ n u, v = .fin n u) : v.isNaN = false := by
  obtain ⟨n, u, rfl⟩ := h
  rfl

/-- The lanes of L2 on finite operands are no NaN. -/
theorem isNaN_l2Pre {s : State} {j : Nat} (hout : ∀ i < 16, ∃ n u, F32.unpack (s.l1out i) = .fin n u)
    (hw : ∀ k < 512, ∃ n u, s.l2w k = .fin n u) (hb : ∃ n u, s.l2b j = .fin n u) (hj : j < 32) :
    (l2Pre s j).isNaN = false := by
  rw [l2Pre, Config.l2Size_eq, isNaN_foldl_fma (fun i hi => hout i (List.mem_range.1 hi))
    (fun i hi => hw _ (by have := List.mem_range.1 hi; omega))]
  exact isNaN_fin_of_eq hb

/-- The scale is 400.0, a finite value that is not 0, so it makes no NaN (R132). -/
theorem isNaN_mul_outputScale (v : F32) :
    (F32.mul v (.unpack Config.outputScaleF32)).isNaN = v.isNaN := by
  obtain ⟨u, hu, hscale⟩ : ∃ u, u ≠ 0 ∧ F32.unpack Config.outputScaleF32 = .fin false u :=
    ⟨_, by decide, rfl⟩
  rw [hscale]
  cases v with
  | nan => rfl
  | inf neg => simp [F32.mul, hu, F32.isNaN]
  | fin neg x => exact F32.isNaN_round (neg != false) (x * u)

/-- The scaled value of L3 on finite operands is no NaN. -/
theorem isNaN_l3Scaled {s : State} (hout : ∀ k < 32, ∃ n u, F32.unpack (s.l2out k) = .fin n u)
    (hw : ∀ k < 32, ∃ n u, s.l3w k = .fin n u) (hb : ∃ n u, s.l3b = .fin n u) :
    (l3Scaled s).isNaN = false := by
  obtain ⟨n, u, hn⟩ := hb
  rw [l3Scaled, isNaN_mul_outputScale, hn, F32.isNaN_add_fin, l3Dot, Config.l3Size_eq,
    isNaN_foldl_fma (fun k hk => hout k (List.mem_range.1 hk)) (fun k hk => hw k (List.mem_range.1 hk))]
  rfl

/-- On finite weights and biases an error of EVAL's stages is `E_RANGE`. -/
theorem evalStages_error_range {s : State} {f : Failure} (h : evalStages s = .error f)
    (hb1 : ∀ j < 16, ∃ n u, s.l1b j = .fin n u) (hw2 : ∀ k < 512, ∃ n u, s.l2w k = .fin n u)
    (hb2 : ∀ j < 32, ∃ n u, s.l2b j = .fin n u) (hw3 : ∀ k < 32, ∃ n u, s.l3w k = .fin n u)
    (hb3 : ∃ n u, s.l3b = .fin n u) : f.kind = .range := by
  have hft := nnzStage_ftqStage_sameBytesOutside s
  have hlen : (nnzStage (ftqStage s)).nnzList.length ≤ 2 ^ 32 :=
    (State.length_nnzList _).trans_le (nnzStage (ftqStage s)).nnzCount.isLt.le
  obtain ⟨s2', hs2'⟩ := l1Stage_isOk hlen fun j hj => isNaN_fin_of_eq <| by
    rw [AgreeOn.l1b (hft.agreeOn (by decide)) hj]
    exact hb1 j hj
  rcases evalStages_eq_error h with h1 | ⟨s2, h1, h23⟩
  · rw [hs2'] at h1
    cases h1
  have hl1 := l1Stage_sameBytesOutside h1
  have hin2 {r : Region} (hr : r ∉ [Region.act, .nnz] ∧ r ∉ [Region.l1acc, .l1out]) : AgreeOn r s s2 :=
    (hft.agreeOn hr.1).trans (hl1.agreeOn hr.2)
  have hlanes : ∀ j < 32, (l2Pre s2 j).isNaN = false := fun j hj => by
    refine isNaN_l2Pre (fun i hi => ?_) (fun k hk => ?_) ?_ hj
    · obtain ⟨r, hr, hout⟩ := l1Stage_l1out h1 hi
      obtain ⟨u, hu, -⟩ := F32.csq_representable hr
      exact ⟨false, u, by rw [hout, F32.unpack_pack_csq hr, hu]⟩
    · rw [(hin2 (by decide)).l2w hk]
      exact hw2 k hk
    · rw [(hin2 (by decide)).l2b hj]
      exact hb2 j hj
  rcases h23 with h2 | ⟨s3, h2, h3⟩
  · obtain ⟨s3', hs3'⟩ := l2Stage_isOk hlanes
    rw [hs3'] at h2
    cases h2
  have hin3 {r : Region} (hr : (r ∉ [Region.act, .nnz] ∧ r ∉ [Region.l1acc, .l1out]) ∧ r ∉ [Region.l2out]) :
      AgreeOn r s s3 := (hin2 hr.1).trans ((l2Stage_sameBytesOutside h2).agreeOn hr.2)
  have hscaled : (l3Scaled s3).isNaN = false := by
    refine isNaN_l3Scaled (fun k hk => ?_) (fun k hk => ?_) ?_
    · obtain ⟨r, hr, hout⟩ := l2Stage_l2out h2 hk
      obtain ⟨u, hu, -⟩ := F32.csq_representable hr
      exact ⟨false, u, by rw [hout, F32.unpack_pack_csq hr, hu]⟩
    · rw [(hin3 (by decide)).l3w hk]
      exact hw3 k hk
    · rw [(hin3 (by decide)).l3b]
      exact hb3
  obtain ⟨htrunc, -⟩ := l3Stage_eq_error h3
  rcases l3Stage_error_kind h3 with hk | hk
  · rw [hk, F32.i32Trunc_eq_nan_iff] at htrunc
    rw [htrunc] at hscaled
    cases hscaled
  · exact hk

/-- Settles O46: with no NaN among the operands the only error left is the range of the conversion. -/
theorem finiteWeightsNeverNan : Obligations.FiniteWeightsNeverNan := by
  intro s hrun hb1 hw2 hb2 hw3 hb3
  cases hs : evalStages s with
  | ok u =>
    refine ⟨u.complete, exec_eval_of_ok hrun.1 hs, .inl ?_⟩
    rw [State.succeeded, evalStages_complete_status hs rfl]
    exact ⟨rfl, hrun.2.1, rfl⟩
  | error f =>
    have hkind := evalStages_error_range hs hb1 hw2 hb2 hw3 hb3
    refine ⟨finishOf .eval s, exec_of_busy .eval hrun.1, .inr ?_⟩
    have hend : finishOf .eval s = (loseEval s).raise f.kind f.info := finishEval_of_error hs
    rw [hend, hkind]
    exact ⟨⟨rfl, rfl, rfl, ErrorKind.code_ne_zero .range⟩, rfl⟩

/-! ### Zero accumulators -/

theorem ftqByte_zero : ftqByte 0 0 = 0#8 := by decide

/-- The activations of constant accumulators, as the first two stages leave them. -/
theorem nnzStage_ftqStage_act_of_const {s : State} {x : Int} (hx : ∀ i < 2048, s.us i = x ∧ s.them i = x)
    {i : Nat} (hi : i < 2048) : (nnzStage (ftqStage s)).act i = ftqByte x x := by
  rcases Nat.lt_or_ge i 1024 with hlt | hge
  · rw [(nnzStage_ftqStage_act s hlt).1, (hx i hi).1, (hx _ (by omega)).1]
  · obtain ⟨k, rfl⟩ := Nat.exists_eq_add_of_le hge
    rw [(nnzStage_ftqStage_act s (by omega)).2, (hx k (by omega)).2, (hx _ (by omega)).2]

theorem EvalRun.act_of_const {s s2 s3 t : State} {n : Int} (h : EvalRun s s2 s3 n t) {x : Int}
    (hx : ∀ i < 2048, s.us i = x ∧ s.them i = x) {i : Nat} (hi : i < 2048) : t.act i = ftqByte x x :=
  (AgreeOn.act (h.sameBytesAfterFt.agreeOn (by decide)) hi).trans (nnzStage_ftqStage_act_of_const hx hi)

/-- With no nonzero group the encoder lists nothing. -/
theorem encoderOutput_of_zero {s : State} (h : ∀ g < 512, groupNonzero s g = false) :
    encoderOutput s = [] := by
  refine List.flatMap_eq_nil_iff.2 fun sl hsl => ?_
  have hsl : sl < 64 := List.mem_range.1 hsl
  have hbits : setBits (sliceMask s sl) = [] := by
    rw [setBits_sliceMask, List.filter_eq_nil_iff]
    intro k hk
    simp [h (8 * sl + k) (by have := List.mem_range.1 hk; omega)]
  rw [sliceIndices, popcount8_eq_length_setBits, hbits]
  rfl

theorem F32.ofInt_zero : F32.ofInt 0 = .fin false 0 := intToFloatExact 0 (by decide)

/-- `L1_MUL` is a positive finite value (R132). -/
theorem F32.unpack_l1Mul : ∃ v, F32.unpack Config.l1Mul = .fin false v := ⟨_, rfl⟩

/-- The fused multiply-add of a zero product leaves a value of the format as it is, but for the sign of a
zero, which the clip-square does not see (R128, R130). -/
theorem F32.csq_fma_zero (w : Word) :
    (F32.fma (F32.ofInt 0) (.unpack Config.l1Mul) (.unpack w)).csq = (F32.unpack w).csq := by
  obtain ⟨v, hv⟩ := F32.unpack_l1Mul
  rw [F32.ofInt_zero, hv]
  cases hw : F32.unpack w with
  | nan => rfl
  | inf neg => rfl
  | fin neg z =>
    have hfma : F32.fma (.fin false 0) (.fin false v) (.fin neg z) =
        F32.ofExact (signed neg z * 2 ^ 149) false := by
      simp [F32.fma, signed]
    rw [hfma, F32.ofExact]
    by_cases hz : z = 0
    · rw [hz, if_pos (by cases neg <;> simp [signed]), F32.csq_fin_false (Nat.zero_le _)]
      cases neg
      · rw [F32.csq_fin_false (Nat.zero_le _)]
      · rw [F32.csq_fin_true, Nat.zero_mul, F32.round_zero]
    · have hne : signed neg z * 2 ^ 149 ≠ 0 :=
        mul_ne_zero (by cases neg <;> simp [signed, hz]) (pow_ne_zero _ two_ne_zero)
      have hneg : decide (signed neg z * 2 ^ 149 < 0) = neg := by
        cases neg <;> simp only [signed, if_true, Bool.false_eq_true, if_false, decide_eq_false_iff_not,
          decide_eq_true_eq] <;> omega
      rw [if_neg hne, hneg, natAbs_mul_two_pow, natAbs_signed,
        F32.round_of_representable (F32.representable_of_unpack hw)]

/-- Settles O47: the quantizer gives zeros, the encoder then lists nothing, and each lane is its bias. -/
theorem biasOnlyPath : Obligations.BiasOnlyPath := by
  intro s u hrun hu hzero
  obtain ⟨s2, s3, n, h⟩ := evalStages_eq_ok hu
  have hact (i : Nat) (hi : i < 2048) : u.act i = 0#8 := (h.act_of_const hzero hi).trans ftqByte_zero
  have hgroups (g : Nat) (hg : g < 512) : groupNonzero u g = false := by
    rw [groupNonzero, State.actw_eq, hact _ (by omega), hact _ (by omega), hact _ (by omega),
      hact _ (by omega)]
    decide
  have hlist : u.nnzList = [] := by rw [h.nnzList_eq_encoderOutput, encoderOutput_of_zero hgroups]; rfl
  have hcount : u.nnzCount = 0#32 := by
    refine BitVec.eq_of_toNat_eq ?_
    rw [← State.length_nnzList, hlist]
    rfl
  refine ⟨u.complete, exec_eval_of_ok hrun.1 hu, hact, hcount, fun j hj => ?_⟩
  obtain ⟨hacc, r, hr, hout⟩ := h.l1_results (by simp [hlist]) hj
  have hbias : u.l1b j = s.l1b j := AgreeOn.l1b (h.sameBytesOutside.agreeOn (by decide)) hj
  rw [hlist] at hacc hr
  refine ⟨hacc, r, ?_, hout⟩
  rw [← hbias, ← hr]
  exact (F32.csq_fma_zero _).symm

/-! ### The uniform scenario (S6, E1) -/

/-- The binary32 value of a natural number below `2^24`. -/
def F32.ofNat (n : Nat) : F32 := .fin false (n * 2 ^ 149)

theorem F32.representable_ofNat {n : Nat} (h : n < 2 ^ 24) : F32.Representable (n * 2 ^ 149) :=
  F32.representable_of_lt h (by decide)

theorem F32.ofExact_of_representable {u : Nat} (h : F32.Representable u) :
    F32.ofExact ((u * 2 ^ 149 : Nat) : Int) false = .fin false u := by
  have hround := F32.round_of_representable h false
  rw [F32.ofExact]
  split
  next hz =>
    have hu : u = 0 := by simpa using hz
    rw [hu]
  next hz =>
    rwa [Int.natAbs_natCast, show decide (((u * 2 ^ 149 : Nat) : Int) < 0) = false by simp]

theorem F32.fma_one_ofNat {n : Nat} (h : n + 1 < 2 ^ 24) :
    F32.fma (F32.ofNat 1) (F32.ofNat 1) (F32.ofNat n) = F32.ofNat (n + 1) := by
  have hsum : signed false (1 * 2 ^ 149 * (1 * 2 ^ 149)) + signed false (n * 2 ^ 149) * 2 ^ 149 =
      (((n + 1) * 2 ^ 149 * 2 ^ 149 : Nat) : Int) := by
    simp only [signed, Bool.false_eq_true, if_false]
    push_cast
    ring
  exact (congrArg (F32.ofExact · false) hsum).trans
    (F32.ofExact_of_representable (F32.representable_ofNat h))

/-- Products of ones, summed in order, count. -/
theorem F32.foldl_fma_one {n : Nat} (h : n < 2 ^ 24) :
    (List.range n).foldl (fun acc _ => F32.fma (F32.ofNat 1) (F32.ofNat 1) acc) F32.zero = F32.ofNat n := by
  induction n with
  | zero => rfl
  | succ n ih => rw [List.range_succ, List.foldl_append, ih (by omega), List.foldl_cons, List.foldl_nil,
      F32.fma_one_ofNat h]

theorem F32.unpack_one : F32.unpack 0x3F800000#32 = F32.ofNat 1 := rfl

theorem F32.pack_one : F32.pack (F32.ofNat 1) = 0x3F800000#32 := by
  rw [← F32.unpack_one]
  exact floatPatternRoundTrip _ rfl

/-- A value above 1 is activated to `1.0`, whose pattern is stored (R130). -/
theorem pack_of_csq_ofNat {n : Nat} (h : 1 < n) {r : F32} (hr : (F32.ofNat n).csq = some r) :
    r.pack = 0x3F800000#32 := by
  rw [F32.ofNat, F32.csq_fin_false_of_gt (by omega), Option.some.injEq] at hr
  rw [← hr, ← F32.pack_one, F32.ofNat, Nat.one_mul]

/-- The weights and biases of the scenario: every weight 1, every bias 0. -/
structure UniformWeights (s : State) : Prop where
  l1w : ∀ n < 32768, s.l1w n = 1#8
  l2w : ∀ k < 512, s.l2w k = F32.ofNat 1
  l3w : ∀ k < 32, s.l3w k = F32.ofNat 1
  l1b : ∀ j < 16, s.l1b j = F32.zero
  l2b : ∀ j < 32, s.l2b j = F32.zero
  l3b : s.l3b = F32.zero

/-- What writes no weight and no bias keeps the scenario's. -/
theorem UniformWeights.of_sameBytesOutside {rs : List Region} {s t : State} (h : UniformWeights s)
    (hst : SameBytesOutside rs s t)
    (hrs : ∀ r ∈ [Region.l1w, .l2w, .l3w, .l1b, .l2b, .l3b], r ∉ rs) : UniformWeights t := by
  have hagree {r : Region} (hr : r ∈ [Region.l1w, .l2w, .l3w, .l1b, .l2b, .l3b]) : AgreeOn r s t :=
    hst.agreeOn (hrs r hr)
  exact
    { l1w := fun n hn => (AgreeOn.l1w (hagree (by decide)) hn).trans (h.l1w n hn)
      l2w := fun k hk => (AgreeOn.l2w (hagree (by decide)) hk).trans (h.l2w k hk)
      l3w := fun k hk => (AgreeOn.l3w (hagree (by decide)) hk).trans (h.l3w k hk)
      l1b := fun j hj => (AgreeOn.l1b (hagree (by decide)) hj).trans (h.l1b j hj)
      l2b := fun j hj => (AgreeOn.l2b (hagree (by decide)) hj).trans (h.l2b j hj)
      l3b := (AgreeOn.l3b (hagree (by decide))).trans h.l3b }

/-- Every activation 63 and every weight 1: a group adds 252, and the 512 of them 129024. -/
theorem UniformWeights.l1Sum {s : State} (h : UniformWeights s) (hact : ∀ i < 2048, s.act i = 63#8)
    {j : Nat} (hj : j < 16) : l1Sum s (List.range 512) j = 129024 := by
  have hgroup : ∀ g ∈ List.range 512, contrib s g j = 252 := fun g hg => by
    have hg := List.mem_range.1 hg
    have ha (k : Nat) (hk : k < 4) : s.act (4 * g + k) = 63#8 := hact _ (by omega)
    have hl (k : Nat) (hk : k < 4) : s.l1w (64 * g + 4 * j + k) = 1#8 := h.l1w _ (by omega)
    rw [contrib, dot4, ha 0 (by decide), ha 1 (by decide), ha 2 (by decide), ha 3 (by decide),
      hl 0 (by decide), hl 1 (by decide), hl 2 (by decide), hl 3 (by decide)]
    decide
  rw [Machine.l1Sum, List.map_congr_left hgroup, List.map_const', List.sum_replicate, List.length_range]
  rfl

theorem nonzeroGroups_uniform {s : State} (hact : ∀ i < 2048, s.act i = 63#8) :
    nonzeroGroups s = List.range 512 := by
  refine List.filter_eq_self.2 fun g hg => ?_
  have hg : g < 512 := List.mem_range.1 hg
  rw [groupNonzero, State.actw_eq, hact _ (by omega), hact _ (by omega), hact _ (by omega),
    hact _ (by omega)]
  decide

/-- 129024 times `L1_MUL` is above 1, so the lane saturates. -/
theorem csq_uniform_l1Pre :
    (F32.fma (F32.ofInt 129024) (.unpack Config.l1Mul) F32.zero).csq = some (F32.ofNat 1) := by
  decide +kernel

theorem UniformWeights.l1Stage {s : State} (h : UniformWeights s) (hact : ∀ i < 2048, s.act i = 63#8) :
    ∃ t, l1Stage s (List.range 512) = .ok t ∧
      ∀ j < 16, t.l1acc j = 129024#32 ∧ t.l1out j = 0x3F800000#32 := by
  obtain ⟨t, ht⟩ := l1Stage_isOk (s := s) (gs := List.range 512) (by rw [List.length_range]; decide)
    fun j hj => by rw [h.l1b j hj]; rfl
  refine ⟨t, ht, fun j hj => ⟨?_, ?_⟩⟩
  · rw [l1Stage_l1acc ht hj, h.l1Sum hact hj]
    rfl
  · obtain ⟨r, hr, hout⟩ := l1Stage_l1out ht hj
    rw [l1Pre, h.l1Sum hact hj, h.l1b j hj, csq_uniform_l1Pre] at hr
    rw [hout, ← Option.some.inj hr, F32.pack_one]

theorem UniformWeights.l2Pre {s : State} (h : UniformWeights s) (hout : ∀ i < 16, s.l1out i = 0x3F800000#32)
    {j : Nat} (hj : j < 32) : l2Pre s j = F32.ofNat 16 := by
  rw [Machine.l2Pre, Config.l2Size_eq, h.l2b j hj, ← F32.foldl_fma_one (n := 16) (by decide)]
  refine List.foldl_ext _ _ _ fun acc i hi => ?_
  have hi := List.mem_range.1 hi
  rw [hout i hi, h.l2w _ (by omega), F32.unpack_one]

theorem UniformWeights.l2Stage {s : State} (h : UniformWeights s)
    (hout : ∀ i < 16, s.l1out i = 0x3F800000#32) :
    ∃ t, l2Stage s = .ok t ∧ ∀ j < 32, t.l2out j = 0x3F800000#32 := by
  obtain ⟨t, ht⟩ := l2Stage_isOk fun j hj => congrArg F32.isNaN (h.l2Pre hout hj)
  refine ⟨t, ht, fun j hj => ?_⟩
  obtain ⟨r, hr, hpack⟩ := l2Stage_l2out ht hj
  rw [hpack]
  exact pack_of_csq_ofNat (by decide) (h.l2Pre hout hj ▸ hr)

theorem F32.add_zero_ofNat {n : Nat} (h : n < 2 ^ 24) : F32.add F32.zero (F32.ofNat n) = F32.ofNat n := by
  have hsum : (signed false 0 + signed false (n * 2 ^ 149)) * 2 ^ 149 =
      ((n * 2 ^ 149 * 2 ^ 149 : Nat) : Int) := by
    simp [signed]
  exact (congrArg (F32.ofExact · false) hsum).trans
    (F32.ofExact_of_representable (F32.representable_ofNat h))

theorem F32.mul_ofNat {m n : Nat} (h : m * n < 2 ^ 24) :
    F32.mul (F32.ofNat m) (F32.ofNat n) = F32.ofNat (m * n) := by
  have hprod : m * 2 ^ 149 * (n * 2 ^ 149) = m * n * 2 ^ 149 * 2 ^ 149 := by ring
  exact (congrArg (F32.round false) hprod).trans (F32.round_of_representable (F32.representable_ofNat h) false)

theorem F32.unpack_outputScale : F32.unpack Config.outputScaleF32 = F32.ofNat 400 := rfl

theorem UniformWeights.l3Scaled {s : State} (h : UniformWeights s)
    (hout : ∀ k < 32, s.l2out k = 0x3F800000#32) : l3Scaled s = F32.ofNat 12800 := by
  have hdot : l3Dot s = F32.ofNat 32 := by
    rw [l3Dot, Config.l3Size_eq, ← F32.foldl_fma_one (n := 32) (by decide)]
    refine List.foldl_ext _ _ _ fun acc k hk => ?_
    have hk := List.mem_range.1 hk
    rw [hout k hk, h.l3w k hk, F32.unpack_one]
  rw [Machine.l3Scaled, hdot, h.l3b, F32.add_zero_ofNat (by decide), F32.unpack_outputScale,
    F32.mul_ofNat (by decide)]

theorem F32.i32Trunc_ofNat {n : Nat} (h : n < 2 ^ 31) : (F32.ofNat n).i32Trunc = .ok n := by
  rw [F32.ofNat, F32.i32Trunc_eq_ok (fun _ => by omega) (fun hn => by cases hn),
    Nat.mul_div_cancel _ (Nat.two_pow_pos 149)]
  rfl

/-- In the scenario no stage raises an error, and each stage's results are the listed ones. -/
theorem UniformWeights.evalStages {s : State} (h : UniformWeights s) (htable : s.TableInv)
    (hv : s.status.lutValid = true) (hacc : ∀ i < 2048, s.us i = 255 ∧ s.them i = 255) :
    ∃ s2 s3 t, evalStages s = .ok t ∧ EvalRun s s2 s3 12800 t ∧
      (∀ j < 16, s2.l1acc j = 129024#32 ∧ s2.l1out j = 0x3F800000#32) ∧
      ∀ j < 32, s3.l2out j = 0x3F800000#32 := by
  have hact (i : Nat) (hi : i < 2048) : (nnzStage (ftqStage s)).act i = 63#8 :=
    (nnzStage_ftqStage_act_of_const hacc hi).trans (by decide)
  have hlist : (nnzStage (ftqStage s)).nnzList = List.range 512 :=
    (nnzStage_list htable.ftqStage hv).trans (nonzeroGroups_uniform hact)
  have hw1 : UniformWeights (nnzStage (ftqStage s)) :=
    h.of_sameBytesOutside (nnzStage_ftqStage_sameBytesOutside s) (by decide)
  obtain ⟨s2, h1, hl1⟩ := hw1.l1Stage hact
  have hw2 : UniformWeights s2 := hw1.of_sameBytesOutside (l1Stage_sameBytesOutside h1) (by decide)
  obtain ⟨s3, h2, hl2⟩ := hw2.l2Stage fun i hi => (hl1 i hi).2
  have hw3 : UniformWeights s3 := hw2.of_sameBytesOutside (l2Stage_sameBytesOutside h2) (by decide)
  have htrunc : (Machine.l3Scaled s3).i32Trunc = .ok 12800 := by
    rw [hw3.l3Scaled hl2, F32.i32Trunc_ofNat (by decide)]
    rfl
  rw [← hlist] at h1
  refine ⟨s2, s3, _, ?_, ⟨h1, h2, htrunc, rfl⟩, hl1, hl2⟩
  simp only [Machine.evalStages, h1, h2, l3Stage_of_i32Trunc htrunc]

/-- Settles O48: no stage after the one that wrote a result changes it. -/
theorem uniformWeightsScore : Obligations.UniformWeightsScore := by
  intro s hrun htable hv hacc hw1 hw2 hw3 hb1 hb2 hb3
  have hone : F32.ofNat 1 = .fin false (2 ^ 149) := by rw [F32.ofNat, Nat.one_mul]
  have hweights : UniformWeights s :=
    ⟨hw1, by rwa [hone], by rwa [hone], hb1, hb2, hb3⟩
  obtain ⟨s2, s3, t, ht, h, hl1, hl2⟩ := hweights.evalStages htable hv hacc
  have hact (i : Nat) (hi : i < 2048) : t.act i = 63#8 := (h.act_of_const hacc hi).trans (by decide)
  have hlist : t.nnzList = List.range 512 := (h.list htable hv).trans (nonzeroGroups_uniform hact)
  have hcount : t.nnzCount = 512#32 := by
    refine BitVec.eq_of_toNat_eq ?_
    rw [← State.length_nnzList, hlist, List.length_range]
    rfl
  refine ⟨t.complete, exec_eval_of_ok hrun.1 ht, ?_, h.l3_result.2, hact, hcount, fun j hj => ⟨?_, ?_⟩,
    fun j hj => ?_⟩
  · rw [State.succeeded, evalStages_complete_status ht rfl]
    exact ⟨rfl, hrun.2.1, rfl⟩
  · exact (AgreeOn.l1acc (h.sameBytesAfterL1.agreeOn (by decide)) hj).trans (hl1 j hj).1
  · exact (AgreeOn.l1out (h.sameBytesAfterL1.agreeOn (by decide)) hj).trans (hl1 j hj).2
  · exact (AgreeOn.l2out (fun a _ => h.sameBytesAfterL2 a) hj).trans (hl2 j hj)

end Sys2Proof.Machine
end
